-- ==== Sys2Proof/Word.lean ====
section
/-! DEFINITION. The machine's words and the fixed sets of names the spec works with (00_scope.md R6, R13, R14). -/

namespace Sys2Proof

/-- A device register's content, bit `i` of value `2^i` (R6, R13). -/
abbrev Byte := BitVec 8

/-- A command or response word (R10: `CMD_W = RSP_W = 16`). -/
abbrev Word := BitVec 16

/-- The number that names a register on the device port (R10: `RID_W = 3`). -/
abbrev RegisterId := BitVec 3

/-- The device's error, carried opaque in `ERR_W = 8` bits (R9, D17). -/
abbrev DevErr := BitVec 8

/-- The number of a pin-handle register `x0` .. `x15` (R10: `N_HANDLES = 16`). -/
abbrev HReg := Fin 16

/-- A valid pin index, 0 to 7 (R7). -/
abbrev PinIdx := Fin 8

/-- One of the two groups of eight pins (R6). -/
inductive Bank where
  | bank0
  | bank1
deriving DecidableEq, Repr, Inhabited

/-- The four functions a bank has one register for (R6): configuration, polarity inversion, output level,
input level. -/
inductive Fn where
  | cfg
  | pol
  | out
  | inp
deriving DecidableEq, Repr, Inhabited

/-- The role of a pin object (R14). -/
inductive Role where
  | input
  | output
deriving DecidableEq, Repr, Inhabited

/-- A level to drive (R14). -/
inductive Level where
  | low
  | high
deriving DecidableEq, Repr, Inhabited

/-- How the device reports a pin's level (R14). -/
inductive Polarity where
  | normal
  | inverse
deriving DecidableEq, Repr, Inhabited

end Sys2Proof
end

