-- ==== Sys2Proof/Config.lean ====
section
/-! DEFINITION. What the spec leaves open: the parameters a machine is built with (R8, R11, D4, D19), the
answers of the external device (R52, R53, R57) and the free answers no listed move fixes. -/

namespace Sys2Proof

/-- `RegSel` written out as data: the identifier of each of the eight registers (R8, R18, R50). -/
structure RegMap where
  in0 : RegisterId
  in1 : RegisterId
  out0 : RegisterId
  out1 : RegisterId
  pol0 : RegisterId
  pol1 : RegisterId
  cfg0 : RegisterId
  cfg1 : RegisterId
deriving DecidableEq, Repr

/-- `RegSel` is injective: eight distinct identifiers (R8 (b)). -/
abbrev RegMap.wf (m : RegMap) : Prop :=
  [m.in0, m.in1, m.out0, m.out1, m.pol0, m.pol1, m.cfg0, m.cfg1].Nodup

/-- The default map `RegSel(b, f) = 2 * code(f) + b` (R8, R51, D4).
DESIGN CHOICE (log 4): unsafe for a statement about `State.reset` alone. -/
def RegMap.default : RegMap :=
  ⟨0, 1, 2, 3, 4, 5, 6, 7⟩

/-- The OPEN parameters of a machine: the register map and what a device reset leaves in the configuration and
output registers of each bank (R8, R11, R36). A value of this type is fixed for a machine. -/
structure Params where
  regs : RegMap
  cfgReset0 : Byte
  cfgReset1 : Byte
  outReset0 : Byte
  outReset1 : Byte
deriving DecidableEq, Repr

/-- `CFG_RESET(b)` (R11). -/
def Params.cfgReset (p : Params) : Bank → Byte
  | .bank0 => p.cfgReset0
  | .bank1 => p.cfgReset1

/-- `OUT_RESET(b)` (R11). -/
def Params.outReset (p : Params) : Bank → Byte
  | .bank0 => p.outReset0
  | .bank1 => p.outReset1

/-- The spec's defaults for running tests: `CFG_RESET = OUT_RESET = 0xFF` (R11, D19).
PRESUMED (log 5): unsafe for a statement about `State.reset` alone. -/
def Params.default : Params :=
  ⟨RegMap.default, 0xFF, 0xFF, 0xFF, 0xFF⟩

/-- How the device answers one transaction (R52, R53). -/
inductive Answer where
  /-- The transaction succeeded. `sample` is the byte the environment draws if the transaction reads an input
  register (R57); no other transaction looks at it. -/
  | ok (sample : Byte)
  /-- The transaction failed with error `e`. `landed` says whether a failed write took effect all the same (R55);
  a failed read does not look at it. -/
  | err (e : DevErr) (landed : Bool)
deriving DecidableEq, Repr, Inhabited

/-- FREE VALUE (log 3): the answer of the device to the `n`-th transaction for which no answer is listed in the
state. It has no body, so a claim holds whatever the device answers (R52, R53, R58). -/
opaque Config.answer : Nat → Answer

end Sys2Proof
end

