-- ==== Sys2Proof/Syntax.lean ====
section
/-! DEFINITION. The instruction set: one constructor per row of spec/opcode_table.json (30_encoding.md R84). -/

namespace Sys2Proof

/-- The twelve commands (R84). `h` names the pin-handle register; `idx` is the pin index as the host gives it,
which may lie outside 0..7 (R82, R86). -/
inductive Instr where
  /-- `NEWI xk, bB, I`: construct an input pin (R120). -/
  | newi (h : HReg) (b : Bank) (idx : Nat)
  /-- `ISHI xk`: is the input pin high (R121). -/
  | ishi (h : HReg)
  /-- `ISLO xk`: is the input pin low (R122). -/
  | islo (h : HReg)
  /-- `SPOL xk, P`: set the polarity of an input pin (R123). -/
  | spol (h : HReg) (p : Polarity)
  /-- `I2I xk`: input to input (R141). -/
  | i2i (h : HReg)
  /-- `I2O xk, L`: input to output (R142). -/
  | i2o (h : HReg) (l : Level)
  /-- `NEWO xk, bB, I, L`: construct an output pin (R130). -/
  | newo (h : HReg) (b : Bank) (idx : Nat) (l : Level)
  /-- `SETH xk`: drive an output pin high (R131). -/
  | seth (h : HReg)
  /-- `SETL xk`: drive an output pin low (R132). -/
  | setl (h : HReg)
  /-- `O2I xk`: output to input (R143). -/
  | o2i (h : HReg)
  /-- `O2O xk, L`: output to output (R144). -/
  | o2o (h : HReg) (l : Level)
  /-- `DROP xk`: destroy the pin object (R150). -/
  | drop (h : HReg)
deriving DecidableEq, Repr

/-- The pin-handle register a command names (R81 field `h`). -/
def Instr.hreg : Instr → HReg
  | .newi h _ _ => h
  | .ishi h => h
  | .islo h => h
  | .spol h _ => h
  | .i2i h => h
  | .i2o h _ => h
  | .newo h _ _ _ => h
  | .seth h => h
  | .setl h => h
  | .o2i h => h
  | .o2o h _ => h
  | .drop h => h

end Sys2Proof
end

