-- ==== Sys2Proof/Machine/State.lean ====
section
/-! DEFINITION. The state of the system as plain data: the controller's registers, the device's bytes, what the
controller drives on its ports, and the moves the outside agents make next (10_state.md R20 to R37). -/

namespace Sys2Proof.Machine

/-- A pin-handle register: one pin object, or none (R21). -/
structure Handle where
  /-- Bit 5: the register holds a live pin object. -/
  valid : Bool
  /-- Bit 4: the pin object's role. -/
  role : Role
  /-- Bit 3: the pin's bank. -/
  bank : Bank
  /-- Bits 2:0: the pin's index. -/
  idx : PinIdx
deriving DecidableEq, Repr

/-- An empty register: all six bits 0 (R21). -/
def Handle.empty : Handle := ⟨false, .input, .bank0, 0⟩

/-- The sequencer position `pc` (R24). The codes 5, 6 and 7, which the controller never produces, have no
constructor (log 12). -/
inductive SeqPos where
  | idle
  | t0
  | t1
  | t2
  | t3
deriving DecidableEq, Repr

/-- A transaction as the controller presents it on the device port (R52, R53). -/
inductive Txn where
  | read (r : RegisterId)
  | write (r : RegisterId) (v : Byte)
deriving DecidableEq, Repr

/-- One move of an agent outside the controller (R12, R169, R197). The list of them in the state says who moves
next and with what (log 2). -/
inductive Move where
  /-- The host presents a word on the command port (R80, R100). -/
  | command (w : Word)
  /-- The host asserts the controller's reset input (R190). `landed` says whether a write that was in flight took
  effect (R191). -/
  | reset (landed : Bool)
  /-- The device is reset (R193). -/
  | deviceReset
  /-- A second master writes a device register (R64, R206; log 11). -/
  | otherMaster (r : RegisterId) (v : Byte)
  /-- The device answers the transaction on its port (R52, R53). -/
  | answer (a : Answer)
deriving DecidableEq, Repr

/-- The state of the system (R20). -/
structure State where
  /-- The pin-handle registers `x0` .. `x15` (R21). -/
  x : Vector Handle 16
  /-- The sequencer position (R24). -/
  pc : SeqPos
  /-- `CMDR`, the command latch (R25). -/
  cmdr : Word
  /-- `TMP`, the data latch of the read-modify-write (R26). -/
  tmp : Byte
  /-- `RSP`, the response register (R27). -/
  rsp : Word
  /-- `HALT`, the sticky halt flag (R28). -/
  halt : Bool
  /-- The device's storage registers (R30): the registers that differ from their device-reset value, by rising
  identifier. -/
  mem : List Host.Cell
  /-- The output `rsp_valid`: did the last step present a response (R29)? -/
  rspValid : Bool
  /-- The device port in the last step: the transaction it presented, if any (R52, R53; log 10). -/
  port : Option Txn
  /-- MODEL'S OWN: the moves of the outside agents, the next one first (log 2). -/
  moves : List Move
  /-- MODEL'S OWN: how many free answers have been drawn (log 3). -/
  draws : Nat
  /-- MODEL'S OWN: the OPEN parameters the machine is built with; no step changes them (R8, R11; log 4). -/
  params : Params
deriving DecidableEq, Repr

/-- Why the machine is stuck. Both stand for states that no run reaches (log 13). -/
inductive Fault where
  /-- Raised by an instruction's meaning when `pc` stands at a transaction its plan does not have; by R24 and R102
  the controller never gets there. Safe: it only takes behaviour away. -/
  | noSuchTransaction
  /-- Raised by the sequencer when a command is in progress and `CMDR` holds no instruction; by R101 the controller
  never gets there. Safe: it only takes behaviour away. -/
  | strayCommand
deriving DecidableEq, Repr

/-- Why an instruction has no meaning. -/
inductive Refusal where
  /-- Raised by an arm of `exec` for an instruction that is not modelled yet; no arm raises it now. Safe. -/
  | notModelled (mnemonic : String)
deriving DecidableEq, Repr

/-- The system at power-up with the parameters `p`: controller reset and device reset have happened, no outside
agent has moved, nothing is driven (R35, R36, R194). The device list is empty, so every storage register reads as
its device-reset value. -/
def State.powerUp (p : Params) : State where
  x := Vector.replicate 16 Handle.empty
  pc := .idle
  cmdr := 0
  tmp := 0
  rsp := 0
  halt := false
  mem := []
  rspValid := false
  port := none
  moves := []
  draws := 0
  params := p

/-- The machine right after reset (R194), with the spec's default parameters (logs 4 and 5). -/
def State.reset : State := State.powerUp Params.default

end Sys2Proof.Machine
end

