-- ==== Sys2Proof/Machine/Flags.lean ====
section
/-! DEFINITION. Status codes, the response word and the level outputs (R29, R90, R160). The machine has no condition
codes (R27). -/

namespace Sys2Proof.Machine

/-- How a command ends (R160). -/
inductive Status where
  | ok
  | devErr
  | badHandle
  | illegal
  | contract
deriving DecidableEq, Repr

/-- The code in the field `st` (R160). -/
def Status.code : Status → BitVec 4
  | .ok => 0
  | .devErr => 1
  | .badHandle => 2
  | .illegal => 3
  | .contract => 4

/-- The response word, `err[15:8] 0[7] txn[6:5] val[4] st[3:0]` (R90). -/
def rspWord (st : Status) (val : Bool) (txn : BitVec 2) (err : DevErr) : Word :=
  err ++ 0#1 ++ txn ++ BitVec.ofBool val ++ st.code

/-- Field `st` of a response word (R90). -/
def rspSt (w : Word) : BitVec 4 := w.extractLsb' 0 4

/-- Field `val` of a response word (R90). -/
def rspVal (w : Word) : Bool := w.getLsbD 4

/-- Field `txn` of a response word (R90). -/
def rspTxn (w : Word) : BitVec 2 := w.extractLsb' 5 2

/-- Field `err` of a response word (R90). -/
def rspErr (w : Word) : DevErr := w.extractLsb' 8 8

/-- Output `busy` (R29). -/
def State.busy (s : State) : Bool := s.pc != .idle

/-- Output `cmd_ready` (R29, R100). -/
def State.cmdReady (s : State) : Bool := s.pc == .idle && !s.halt

end Sys2Proof.Machine
end

