-- ==== Sys2Proof/WellFormed.lean ====
section
/-! DEFINITION. Which terms of `Instr` a command word can hold (30_encoding.md R81, R89). -/

namespace Sys2Proof

/-- A pin index as given fits the field `idx` of the command word, 4 bits (R81, R89, D5). -/
abbrev IndexFits (i : Nat) : Prop := i < 16

/-- A well-formed instruction: every operand fits its field (R89). The handle number, the bank, the level and the
polarity fit by their types, so the one check left is that of the index of the two constructors. -/
def Instr.wellFormed : Instr → Bool
  | .newi _ _ i => decide (IndexFits i)
  | .ishi _ => true
  | .islo _ => true
  | .spol _ _ => true
  | .i2i _ => true
  | .i2o _ _ => true
  | .newo _ _ i _ => decide (IndexFits i)
  | .seth _ => true
  | .setl _ => true
  | .o2i _ => true
  | .o2o _ _ => true
  | .drop _ => true

end Sys2Proof
end

