-- ==== Sys2Proof/Decode.lean ====
section
/-! DEFINITION. The command word: its fields, the opcode map, the decoder, the encoder and the assembler's operand
checks (30_encoding.md R80 to R89). -/

namespace Sys2Proof

/-! ## Codes of the named operands (R14, D27) -/

def Bank.code : Bank → BitVec 1
  | .bank0 => 0
  | .bank1 => 1

def Role.code : Role → BitVec 1
  | .input => 0
  | .output => 1

def Level.code : Level → BitVec 1
  | .low => 0
  | .high => 1

def Polarity.code : Polarity → BitVec 1
  | .normal => 0
  | .inverse => 1

def Bank.ofCode (c : BitVec 1) : Bank := if c = 0 then .bank0 else .bank1

def Level.ofCode (c : BitVec 1) : Level := if c = 0 then .low else .high

def Polarity.ofCode (c : BitVec 1) : Polarity := if c = 0 then .normal else .inverse

/-! ## Fields of the command word (R81) -/

/-- `op`, bits 15:12. -/
def opField (w : Word) : BitVec 4 := w.extractLsb' 12 4

/-- `h`, bits 11:8. -/
def hField (w : Word) : HReg := (w.extractLsb' 8 4).toFin

/-- `bank`, bit 7. -/
def bankField (w : Word) : BitVec 1 := w.extractLsb' 7 1

/-- `arg`, bit 6. -/
def argField (w : Word) : BitVec 1 := w.extractLsb' 6 1

/-- `z`, bits 5:4, reserved. -/
def zField (w : Word) : BitVec 2 := w.extractLsb' 4 2

/-- `idx`, bits 3:0, the index as the host gives it. -/
def idxField (w : Word) : BitVec 4 := w.extractLsb' 0 4

/-! ## The opcode map (R84) -/

/-- A row of the opcode map: `w` is the instruction of the row when `w & mask = match`. -/
structure OpRow where
  mnemonic : String
  pattern : Word
  mask : Word
  build : Word → Instr

/-- Does the word belong to the row (R84)? -/
def OpRow.accepts (r : OpRow) (w : Word) : Bool := w &&& r.mask == r.pattern

def rowNewi : OpRow :=
  ⟨"NEWI", 0x1000, 0xF070, fun w => .newi (hField w) (Bank.ofCode (bankField w)) (idxField w).toNat⟩
def rowIshi : OpRow := ⟨"ISHI", 0x2000, 0xF0FF, fun w => .ishi (hField w)⟩
def rowIslo : OpRow := ⟨"ISLO", 0x3000, 0xF0FF, fun w => .islo (hField w)⟩
def rowSpol : OpRow := ⟨"SPOL", 0x4000, 0xF0BF, fun w => .spol (hField w) (Polarity.ofCode (argField w))⟩
def rowI2i : OpRow := ⟨"I2I", 0x5000, 0xF0FF, fun w => .i2i (hField w)⟩
def rowI2o : OpRow := ⟨"I2O", 0x6000, 0xF0BF, fun w => .i2o (hField w) (Level.ofCode (argField w))⟩
def rowNewo : OpRow :=
  ⟨"NEWO", 0x7000, 0xF030, fun w =>
    .newo (hField w) (Bank.ofCode (bankField w)) (idxField w).toNat (Level.ofCode (argField w))⟩
def rowSeth : OpRow := ⟨"SETH", 0x8000, 0xF0FF, fun w => .seth (hField w)⟩
def rowSetl : OpRow := ⟨"SETL", 0x9000, 0xF0FF, fun w => .setl (hField w)⟩
def rowO2i : OpRow := ⟨"O2I", 0xA000, 0xF0FF, fun w => .o2i (hField w)⟩
def rowO2o : OpRow := ⟨"O2O", 0xB000, 0xF0BF, fun w => .o2o (hField w) (Level.ofCode (argField w))⟩
def rowDrop : OpRow := ⟨"DROP", 0xC000, 0xF0FF, fun w => .drop (hField w)⟩

/-- The twelve rows, in the order of the opcodes (R84). -/
def opTable : List OpRow :=
  [rowNewi, rowIshi, rowIslo, rowSpol, rowI2i, rowI2o, rowNewo, rowSeth, rowSetl, rowO2i, rowO2o, rowDrop]

/-! ## Decoding (R85, R86) -/

/-- Why a word is not an instruction (R86). The controller answers all three alike, with status ILLEGAL. -/
inductive DecodeError where
  /-- `op` is 0x0, 0xD, 0xE or 0xF. -/
  | unknownOpcode (op : BitVec 4)
  /-- The reserved field `z` is not 0. -/
  | reservedNotZero
  /-- A field the instruction does not use is not 0 (R83). -/
  | unusedNotZero
deriving DecidableEq, Repr

/-- The name under which a word that matches no row is rejected (R86). -/
def rejection (w : Word) : DecodeError :=
  if opField w = 0x0 ∨ opField w = 0xD ∨ opField w = 0xE ∨ opField w = 0xF then .unknownOpcode (opField w)
  else if zField w ≠ 0 then .reservedNotZero
  else .unusedNotZero

/-- The decoder, total on all 65536 words; it reads no state (R85). -/
def decode (w : Word) : Except DecodeError Instr :=
  match opTable.find? (fun r => r.accepts w) with
  | some r => .ok (r.build w)
  | none => .error (rejection w)

/-- The instruction the decoder reads from a table row's bits, numbered as spec/opcode_table.json numbers them.
A command is one 16-bit word on the command port (R80), so there is no byte order to lay out. -/
def decodeTableWord (nbits w : Nat) : Option Instr :=
  match decode (BitVec.ofNat 16 (w % 2 ^ nbits)) with
  | .ok i => some i
  | .error _ => none

/-! ## Encoding (R81, R88) -/

/-- A command word put together from its fields, the reserved field 0 (R81). -/
def packWord (op : BitVec 4) (h : HReg) (bank arg : BitVec 1) (idx : BitVec 4) : Word :=
  op ++ (BitVec.ofFin h : BitVec 4) ++ bank ++ arg ++ 0#2 ++ idx

/-- The word of a well-formed instruction (R88). -/
def encode : Instr → Word
  | .newi h b i => packWord 0x1 h b.code 0 (BitVec.ofNat 4 i)
  | .ishi h => packWord 0x2 h 0 0 0
  | .islo h => packWord 0x3 h 0 0 0
  | .spol h p => packWord 0x4 h 0 p.code 0
  | .i2i h => packWord 0x5 h 0 0 0
  | .i2o h l => packWord 0x6 h 0 l.code 0
  | .newo h b i l => packWord 0x7 h b.code l.code (BitVec.ofNat 4 i)
  | .seth h => packWord 0x8 h 0 0 0
  | .setl h => packWord 0x9 h 0 0 0
  | .o2i h => packWord 0xA h 0 0 0
  | .o2o h l => packWord 0xB h 0 l.code 0
  | .drop h => packWord 0xC h 0 0 0

/-! ## Assembler syntax (R88, R89) -/

/-- An operand as it stands in a line of assembler text (R88). -/
inductive AsmOperand where
  | handle (k : Nat)
  | bank (n : Nat)
  | index (n : Nat)
  | level (l : Level)
  | polarity (p : Polarity)
deriving DecidableEq, Repr

/-- Handle registers are written `x0` to `x15`; a number above 15 is refused (R89). -/
def asmHandle (k : Nat) : Option HReg := if h : k < 16 then some ⟨k, h⟩ else none

/-- Banks are written `b0` and `b1` (R88). -/
def asmBank : Nat → Option Bank
  | 0 => some .bank0
  | 1 => some .bank1
  | _ => none

/-- An index 0 to 15 is accepted as written, one above 15 is refused (R89). -/
def asmIndex (i : Nat) : Option Nat := if i < 16 then some i else none

/-- One line of assembler text, its mnemonic and its operands, as an instruction (R88); anything else is refused (R89).
There are no pseudo-instructions. -/
def assemble (mnemonic : String) (ops : List AsmOperand) : Option Instr :=
  match mnemonic, ops with
  | "NEWI", [.handle k, .bank b, .index i] =>
    match asmHandle k, asmBank b, asmIndex i with
    | some h, some b', some i' => some (.newi h b' i')
    | _, _, _ => none
  | "ISHI", [.handle k] => (asmHandle k).map .ishi
  | "ISLO", [.handle k] => (asmHandle k).map .islo
  | "SPOL", [.handle k, .polarity p] => (asmHandle k).map fun h => .spol h p
  | "I2I", [.handle k] => (asmHandle k).map .i2i
  | "I2O", [.handle k, .level l] => (asmHandle k).map fun h => .i2o h l
  | "NEWO", [.handle k, .bank b, .index i, .level l] =>
    match asmHandle k, asmBank b, asmIndex i with
    | some h, some b', some i' => some (.newo h b' i' l)
    | _, _, _ => none
  | "SETH", [.handle k] => (asmHandle k).map .seth
  | "SETL", [.handle k] => (asmHandle k).map .setl
  | "O2I", [.handle k] => (asmHandle k).map .o2i
  | "O2O", [.handle k, .level l] => (asmHandle k).map fun h => .o2o h l
  | "DROP", [.handle k] => (asmHandle k).map .drop
  | _, _ => none

end Sys2Proof
end

