-- ==== Sys2Proof/Machine/Operands.lean ====
section
/-! DEFINITION. Operands: the bit arithmetic of the read-modify-write (R15, R108, R109), register selection (R8, R111)
and the layout of a pin-handle register (R21). -/

namespace Sys2Proof.Machine

/-! ## Bits of a byte (R15) -/

/-- `bit(v, i)` (R15). -/
def bit (v : Byte) (i : PinIdx) : Bool := v.getLsbD i.val

/-- The one-hot mask `1 << i` (R82). -/
def oneHot (i : PinIdx) : Byte := 1#8 <<< i.val

/-- `setbit(v, i)` (R15). -/
def setbit (v : Byte) (i : PinIdx) : Byte := v ||| oneHot i

/-- `clrbit(v, i)` (R15). -/
def clrbit (v : Byte) (i : PinIdx) : Byte := v &&& (0xFF#8 ^^^ oneHot i)

/-- `putbit(v, i, b)` (R15). -/
def putbit (v : Byte) (i : PinIdx) (b : Bool) : Byte := if b then setbit v i else clrbit v i

/-- The bit a Level writes: High sets, Low clears (R108). -/
def levelBit : Level → Bool
  | .low => false
  | .high => true

/-- The bit a Polarity writes: Inverse sets, Normal clears (R108). -/
def polarityBit : Polarity → Bool
  | .normal => false
  | .inverse => true

/-! ## Register selection (R8, R111) -/

/-- `RegSel(b, f)`: a function of bank and function, never of the pin index (R8 (c)). -/
def regSel (p : Params) (b : Bank) (f : Fn) : RegisterId :=
  match b, f with
  | .bank0, .inp => p.regs.in0
  | .bank1, .inp => p.regs.in1
  | .bank0, .out => p.regs.out0
  | .bank1, .out => p.regs.out1
  | .bank0, .pol => p.regs.pol0
  | .bank1, .pol => p.regs.pol1
  | .bank0, .cfg => p.regs.cfg0
  | .bank1, .cfg => p.regs.cfg1

/-- Does the identifier name an input register (R57)? -/
def isInputReg (p : Params) (r : RegisterId) : Bool :=
  r == regSel p .bank0 .inp || r == regSel p .bank1 .inp

/-! ## Pin-handle registers (R21) -/

/-- The six bits of a pin-handle register, `valid role bank idx` (R21). -/
def Handle.bits (h : Handle) : BitVec 6 :=
  BitVec.ofBool h.valid ++ h.role.code ++ h.bank.code ++ (BitVec.ofFin h.idx : BitVec 3)

/-- When `valid = 0` the other five bits are 0 (R21). -/
def Handle.wf (h : Handle) : Bool := h.valid || h == Handle.empty

/-- The register holds a valid pin object of that role (R101 step 3, R164). -/
def Handle.holds (h : Handle) (r : Role) : Bool := h.valid && h.role == r

/-- The index of a pin as the three bits of `i[2:0]` (R120, R130). -/
def pinIdx (i : Nat) : PinIdx := Fin.ofNat 8 i

/-! ## The sequencer position (R24) -/

/-- The 3-bit code of a position (R24). -/
def SeqPos.code : SeqPos → BitVec 3
  | .idle => 0
  | .t0 => 1
  | .t1 => 2
  | .t2 => 3
  | .t3 => 4

/-- The number of the transaction to be issued next, if a command is in progress (R24). -/
def SeqPos.txn : SeqPos → Option Nat
  | .idle => none
  | .t0 => some 0
  | .t1 => some 1
  | .t2 => some 2
  | .t3 => some 3

/-- The position after a successful transaction that is not the last; there is nothing past `T3` (R24, R112). -/
def SeqPos.succ : SeqPos → SeqPos
  | .idle => .idle
  | .t0 => .t1
  | .t1 => .t2
  | .t2 => .t3
  | .t3 => .idle

end Sys2Proof.Machine
end

