-- ==== Sys2Proof/Machine/Memory.lean ====
section
/-! DEFINITION. The device register space: what each register reads as after a device reset, reading and writing one
register, and the canonical form of the list that holds them (R30, R36, R50, R54, R56). -/

namespace Sys2Proof.Machine

/-- What the register with identifier `a` reads as while nothing has written it since the device reset: `CFG_RESET`
and `OUT_RESET` of its bank, `POL_RESET = 0x00` (R36). An input register is no storage (R57): its place holds 0x00 and no
transaction reads it. -/
def resetByte (p : Params) (a : Nat) : Byte :=
  if a = (regSel p .bank0 .cfg).toNat then p.cfgReset .bank0
  else if a = (regSel p .bank1 .cfg).toNat then p.cfgReset .bank1
  else if a = (regSel p .bank0 .out).toNat then p.outReset .bank0
  else if a = (regSel p .bank1 .out).toNat then p.outReset .bank1
  else 0x00

/-- The byte at an address: the listed one, or the reset content (R56). -/
def Memory.read (p : Params) : List Host.Cell → Nat → Byte
  | [], a => resetByte p a
  | c :: m, a => if c.1 = a then c.2 else Memory.read p m a

/-- The list with the entry `(a, v)` at its place. -/
def Memory.put : List Host.Cell → Nat → Byte → List Host.Cell
  | [], a, v => [(a, v)]
  | c :: m, a, v =>
    if a < c.1 then (a, v) :: c :: m
    else if a = c.1 then (a, v) :: m
    else c :: Memory.put m a v

/-- The list without an entry for `a`. -/
def Memory.drop (m : List Host.Cell) (a : Nat) : List Host.Cell :=
  m.filter fun c => c.1 != a

/-- Writing one byte, all eight bits at once (R53, R54). Writing the reset content removes the entry. -/
def Memory.write (p : Params) (m : List Host.Cell) (a : Nat) (v : Byte) : List Host.Cell :=
  if v = resetByte p a then Memory.drop m a else Memory.put m a v

/-- The canonical form: addresses rise strictly, lie in the space of eight registers (R50), and no entry repeats the
reset content. -/
abbrev Memory.wf (p : Params) (m : List Host.Cell) : Prop :=
  m.Pairwise (fun c d => c.1 < d.1) ∧ ∀ c ∈ m, c.1 < 8 ∧ c.2 ≠ resetByte p c.1

/-- `D[r]`, the byte the device register `r` holds (R30). -/
def State.devByte (s : State) (r : RegisterId) : Byte := Memory.read s.params s.mem r.toNat

/-- `D[r] <- v` (R53). -/
def State.setDev (s : State) (r : RegisterId) (v : Byte) : State :=
  { s with mem := Memory.write s.params s.mem r.toNat v }

/-- The byte that the register of a bank with a function holds: `F_b` (R18). -/
def State.devReg (s : State) (b : Bank) (f : Fn) : Byte := s.devByte (regSel s.params b f)

end Sys2Proof.Machine
end

