-- ==== Sys2Proof/Machine/Ops.lean ====
section
/-! DEFINITION. The operations every instruction shares: the device port, the response, the four ways a command fails, and
the sequencer that runs a command's plan (40_rmw_sequencer.md, 60_exceptions.md). -/

namespace Sys2Proof.Machine

/-! ## Registers and outputs -/

/-- Nothing is driven: no response, no transaction (R29). Every step starts from here. -/
def State.quiet (s : State) : State := { s with rspValid := false, port := none }

/-- `x[k]` (R15). -/
def State.getX (s : State) (k : HReg) : Handle := s.x[k]

/-- `x[k] <- h` (R15). -/
def State.setX (s : State) (k : HReg) (h : Handle) : State := { s with x := s.x.set k.val h k.isLt }

/-- `pc <- p` (R15). -/
def State.setPc (s : State) (p : SeqPos) : State := { s with pc := p }

/-- `TMP <- v` (R26). -/
def State.setTmp (s : State) (v : Byte) : State := { s with tmp := v }

/-- `CMDR <- w` (R25). -/
def State.latch (s : State) (w : Word) : State := { s with cmdr := w }

/-- The moves still to come. -/
def State.withMoves (s : State) (ms : List Move) : State := { s with moves := ms }

/-- The transaction on the device port (R52, R53). -/
def State.present (s : State) (t : Txn) : State := { s with port := some t }

/-! ## Answers of the device (R52, R53, R58) -/

/-- The answer to the transaction now on the port: the one listed next, or a free one (log 3). -/
def State.answer (s : State) : Answer :=
  match s.moves with
  | .answer a :: _ => a
  | _ => Config.answer s.draws

/-- The moves left after that answer. -/
def movesAfterAnswer : List Move → List Move
  | .answer _ :: ms => ms
  | ms => ms

/-- The count of free answers after that answer. -/
def drawsAfterAnswer : List Move → Nat → Nat
  | .answer _ :: _, n => n
  | _, n => n + 1

/-- The state once that answer has been taken. -/
def State.afterAnswer (s : State) : State :=
  { s with moves := movesAfterAnswer s.moves, draws := drawsAfterAnswer s.moves s.draws }

/-- `MemRead(r, 1)` (R52): the byte of a storage register, the environment's draw for an input register (R57), or the
device's error. A read never changes `D` (D22). -/
def memRead (r : RegisterId) (s : State) : Except DevErr Byte × State :=
  let s' := s.afterAnswer.present (.read r)
  match s.answer with
  | .ok sample => (.ok (if isInputReg s.params r then sample else s.devByte r), s')
  | .err e _ => (.error e, s')

/-- `MemWrite(r, 1, v)` (R53): `D[r] <- v`, or the device's error with `D[r]` old or new (R55). -/
def memWrite (r : RegisterId) (v : Byte) (s : State) : Except DevErr Unit × State :=
  let s' := s.afterAnswer.present (.write r v)
  match s.answer with
  | .ok _ => (.ok (), s'.setDev r v)
  | .err e landed => (.error e, if landed then s'.setDev r v else s')

/-! ## The end of a command -/

/-- `respond(st, val, txn, err)`: write `RSP`, go to `IDLE`, present the response (R15, R90). -/
def respond (st : Status) (val : Bool) (txn : Nat) (err : DevErr) (s : State) : State :=
  { s with rsp := rspWord st val (BitVec.ofNat 2 txn) err, pc := .idle, rspValid := true }

/-- What ends a command other than success (R160). -/
inductive Cause where
  /-- The word is not an instruction (R165). -/
  | illegal
  /-- The pin object is missing or of the wrong role (R164). -/
  | badHandle
  /-- A constructor's index is outside 0..7 (R166). -/
  | contract
  /-- Transaction `n` answered with the error `e` (R163). -/
  | devFail (n : Nat) (e : DevErr)
deriving DecidableEq, Repr

/-- `raise`: the one way a command fails (R163 to R166). Nothing is saved but the response word; only the contract
violation sets `HALT`. There is no return from it: the controller is in `IDLE`, and a halted one waits for reset
(R170). -/
def raise (c : Cause) (s : State) : State :=
  match c with
  | .illegal => respond .illegal false 0 0 s
  | .badHandle => respond .badHandle false 0 0 s
  | .contract => respond .contract false 0 0 { s with halt := true }
  | .devFail n e => respond .devErr false n e s

/-! ## Commands and their plans (R102) -/

/-- What a write puts in the bit of the pin: set it or clear it (R108). -/
inductive BitMod where
  | set
  | clear
deriving DecidableEq, Repr

/-- The byte to write, from the byte just read (R102, R108). -/
def BitMod.apply (m : BitMod) (v : Byte) (i : PinIdx) : Byte :=
  match m with
  | .set => setbit v i
  | .clear => clrbit v i

/-- `putbit` chosen by an operand bit: 1 sets, 0 clears (R15, R108). -/
def BitMod.put (b : Bool) : BitMod := if b then .set else .clear

/-- One transaction of a plan: `R(f)`, or `W(f, e)` with `e` made from `TMP` (R102). -/
inductive PlanStep where
  | read (f : Fn)
  | write (f : Fn) (m : BitMod)
deriving DecidableEq, Repr

/-- What becomes of the handle register when a command ends (R23). -/
inductive HandleEffect where
  /-- `x[k]` keeps its content. -/
  | keep
  /-- `x[k] <- {valid=1, role, bank=b, idx=i}` for the pin of the command. -/
  | put (r : Role)
  /-- `x[k] <- 0b000000`. -/
  | clear
deriving DecidableEq, Repr

/-- The result bit of a command that succeeds (R90, D24). -/
inductive ResultBit where
  /-- `val = 0`. -/
  | zero
  /-- `val = bit(TMP, i)`. -/
  | level
  /-- `val = 1 - bit(TMP, i)`. -/
  | notLevel
deriving DecidableEq, Repr

/-- A command as the sequencer runs it: a row of the tables of R23 and R102. -/
structure Command where
  /-- The handle register `k`. -/
  h : HReg
  /-- The role `x[k]` must hold, if any (R102 column "needs"). -/
  needs : Option Role
  /-- The bank and the index as given of a constructor; any other command takes the pin of `x[k]` (R102). -/
  pin : Option (Bank × Nat)
  /-- The transactions, in order. -/
  plan : List PlanStep
  /-- The handle register on success (R106). -/
  onOk : HandleEffect
  /-- The handle register on a device failure (R105). -/
  onErr : HandleEffect
  /-- The result bit on success. -/
  result : ResultBit
deriving DecidableEq, Repr

/-- The bank the command works on (R82, R102). -/
def Command.bankOf (c : Command) (s : State) : Bank :=
  match c.pin with
  | some (b, _) => b
  | none => (s.getX c.h).bank

/-- The pin index the command works on (R82, R102). -/
def Command.idxOf (c : Command) (s : State) : PinIdx :=
  match c.pin with
  | some (_, i) => pinIdx i
  | none => (s.getX c.h).idx

/-- The index of a constructor is outside 0..7 (R101 step 2, R166): it reads the command alone. -/
def Command.breaksContract (c : Command) : Bool :=
  match c.pin with
  | some (_, i) => decide (8 ≤ i)
  | none => false

/-- `x[k]` holds what the command needs (R101 step 3): it reads `x[k]` alone, never the device (R33, D28). -/
def Command.handleOk (c : Command) (s : State) : Bool :=
  match c.needs with
  | some r => (s.getX c.h).holds r
  | none => true

/-- The handle register after the command ended (R22, R23). -/
def HandleEffect.apply (e : HandleEffect) (c : Command) (s : State) : State :=
  match e with
  | .keep => s
  | .put r => s.setX c.h ⟨true, r, c.bankOf s, c.idxOf s⟩
  | .clear => s.setX c.h Handle.empty

/-- The result bit, from the byte last read (R121, R122). -/
def ResultBit.value (r : ResultBit) (c : Command) (s : State) : Bool :=
  match r with
  | .zero => false
  | .level => bit s.tmp (c.idxOf s)
  | .notLevel => !bit s.tmp (c.idxOf s)

/-! ## The sequencer (R101, R103 to R106) -/

/-- Completion (R106): the handle register, then `respond(OK, val, 0, 0)`. -/
def complete (c : Command) (s : State) : State :=
  respond .ok (c.result.value c s) 0 0 (c.onOk.apply c s)

/-- Abort at transaction `n` with the device's error `e` (R105, R163). -/
def abort (c : Command) (n : Nat) (e : DevErr) (s : State) : State :=
  raise (.devFail n e) (c.onErr.apply c s)

/-- After transaction `n` answered `Ok`: complete if it was the last, else go on to the next (R103, R104). -/
def advance (c : Command) (n : Nat) (s : State) : State :=
  if n + 1 = c.plan.length then complete c s else s.setPc s.pc.succ

/-- The acceptance micro-step once the word is latched and decoded: contract check, role check, then completion of an
empty plan or the first position (R101 steps 2 to 4). -/
def accept (c : Command) (s : State) : State :=
  if c.breaksContract then raise .contract s
  else if c.handleOk s = false then raise .badHandle s
  else if c.plan = [] then complete c s
  else s.setPc .t0

/-- The read micro-step of transaction `n` (R103). -/
def readStep (c : Command) (n : Nat) (f : Fn) (s : State) : State :=
  match memRead (regSel s.params (c.bankOf s) f) s with
  | (.ok v, s') => advance c n (s'.setTmp v)
  | (.error e, s') => abort c n e s'

/-- The write micro-step of transaction `n`, with the byte made from `TMP` (R104). The write is issued whether or not
the byte differs (R110). -/
def writeStep (c : Command) (n : Nat) (f : Fn) (m : BitMod) (s : State) : State :=
  match memWrite (regSel s.params (c.bankOf s) f) (m.apply s.tmp (c.idxOf s)) s with
  | (.ok _, s') => advance c n s'
  | (.error e, s') => abort c n e s'

/-- Transaction `n` of the command in progress (R103, R104). -/
def transact (c : Command) (n : Nat) (s : State) : Host.Outcome State Fault Refusal :=
  match c.plan[n]? with
  | some (.read f) => .next (readStep c n f s)
  | some (.write f m) => .next (writeStep c n f m s)
  | none => .fault .noSuchTransaction

/-- One micro-step of a command: its acceptance in `IDLE`, transaction `n` in `Tn` (R19, R101, R103, R104). -/
def runCommand (c : Command) (s : State) : Host.Outcome State Fault Refusal :=
  match s.pc with
  | .idle => .next (accept c s.quiet)
  | .t0 => transact c 0 s.quiet
  | .t1 => transact c 1 s.quiet
  | .t2 => transact c 2 s.quiet
  | .t3 => transact c 3 s.quiet

end Sys2Proof.Machine
end

