-- ==== Sys2Proof/Machine/InputPin.lean ====
section
/-! DEFINITION. The input pin instructions NEWI, ISHI, ISLO, SPOL (41_input_pin.md R120 to R124). -/

namespace Sys2Proof.Machine

/-- `NEWI xk, bB, I` (R120): read the bank's configuration register, set the pin's bit, write it back; the handle is
the new input pin, or as it was after a failure. -/
def newiCommand (h : HReg) (b : Bank) (i : Nat) : Command where
  h := h
  needs := none
  pin := some (b, i)
  plan := [.read .cfg, .write .cfg .set]
  onOk := .put .input
  onErr := .keep
  result := .zero

def execNewi (h : HReg) (b : Bank) (i : Nat) (s : State) : Host.Outcome State Fault Refusal :=
  runCommand (newiCommand h b i) s

/-- `ISHI xk` (R121): read the bank's input register; the result is the pin's bit. -/
def ishiCommand (h : HReg) : Command where
  h := h
  needs := some .input
  pin := none
  plan := [.read .inp]
  onOk := .keep
  onErr := .keep
  result := .level

def execIshi (h : HReg) (s : State) : Host.Outcome State Fault Refusal :=
  runCommand (ishiCommand h) s

/-- `ISLO xk` (R122): a read of its own of the bank's input register; the result is the negated bit. -/
def isloCommand (h : HReg) : Command where
  h := h
  needs := some .input
  pin := none
  plan := [.read .inp]
  onOk := .keep
  onErr := .keep
  result := .notLevel

def execIslo (h : HReg) (s : State) : Host.Outcome State Fault Refusal :=
  runCommand (isloCommand h) s

/-- `SPOL xk, P` (R123): put the polarity's bit in the bank's polarity register. -/
def spolCommand (h : HReg) (p : Polarity) : Command where
  h := h
  needs := some .input
  pin := none
  plan := [.read .pol, .write .pol (.put (polarityBit p))]
  onOk := .keep
  onErr := .keep
  result := .zero

def execSpol (h : HReg) (p : Polarity) (s : State) : Host.Outcome State Fault Refusal :=
  runCommand (spolCommand h p) s

end Sys2Proof.Machine
end

