-- ==== Sys2Proof/Machine/Lifetime.lean ====
section
/-! DEFINITION. The lifetime instruction DROP (44_lifetime.md R150). -/

namespace Sys2Proof.Machine

/-- `DROP xk` (R150): clear the handle register, whatever it holds; no device access. -/
def dropCommand (h : HReg) : Command where
  h := h
  needs := none
  pin := none
  plan := []
  onOk := .clear
  onErr := .clear
  result := .zero

def execDrop (h : HReg) (s : State) : Host.Outcome State Fault Refusal :=
  runCommand (dropCommand h) s

end Sys2Proof.Machine
end

