-- ==== Sys2Proof/Machine/OutputPin.lean ====
section
/-! DEFINITION. The output pin instructions NEWO, SETH, SETL (42_output_pin.md R130 to R133). -/

namespace Sys2Proof.Machine

/-- `NEWO xk, bB, I, L` (R130): put the level in the output register, then clear the pin's configuration bit, in that
order; the handle is the new output pin, or as it was after a failure. -/
def newoCommand (h : HReg) (b : Bank) (i : Nat) (l : Level) : Command where
  h := h
  needs := none
  pin := some (b, i)
  plan := [.read .out, .write .out (.put (levelBit l)), .read .cfg, .write .cfg .clear]
  onOk := .put .output
  onErr := .keep
  result := .zero

def execNewo (h : HReg) (b : Bank) (i : Nat) (l : Level) (s : State) : Host.Outcome State Fault Refusal :=
  runCommand (newoCommand h b i l) s

/-- `SETH xk` (R131): set the pin's bit of the output register. -/
def sethCommand (h : HReg) : Command where
  h := h
  needs := some .output
  pin := none
  plan := [.read .out, .write .out .set]
  onOk := .keep
  onErr := .keep
  result := .zero

def execSeth (h : HReg) (s : State) : Host.Outcome State Fault Refusal :=
  runCommand (sethCommand h) s

/-- `SETL xk` (R132): clear the pin's bit of the output register. -/
def setlCommand (h : HReg) : Command where
  h := h
  needs := some .output
  pin := none
  plan := [.read .out, .write .out .clear]
  onOk := .keep
  onErr := .keep
  result := .zero

def execSetl (h : HReg) (s : State) : Host.Outcome State Fault Refusal :=
  runCommand (setlCommand h) s

end Sys2Proof.Machine
end

