-- ==== Sys2Proof/Machine/RoleTransition.lean ====
section
/-! DEFINITION. The role transitions I2I, I2O, O2I, O2O (43_role_transition.md R140 to R145). A transition that fails
empties the handle register (D10). -/

namespace Sys2Proof.Machine

/-- `I2I xk` (R141): identity, no register access. -/
def i2iCommand (h : HReg) : Command where
  h := h
  needs := some .input
  pin := none
  plan := []
  onOk := .keep
  onErr := .keep
  result := .zero

def execI2i (h : HReg) (s : State) : Host.Outcome State Fault Refusal :=
  runCommand (i2iCommand h) s

/-- `I2O xk, L` (R142): put the level in the output register, then clear the pin's configuration bit. -/
def i2oCommand (h : HReg) (l : Level) : Command where
  h := h
  needs := some .input
  pin := none
  plan := [.read .out, .write .out (.put (levelBit l)), .read .cfg, .write .cfg .clear]
  onOk := .put .output
  onErr := .clear
  result := .zero

def execI2o (h : HReg) (l : Level) (s : State) : Host.Outcome State Fault Refusal :=
  runCommand (i2oCommand h l) s

/-- `O2I xk` (R143): set the pin's configuration bit; the output register is not touched. -/
def o2iCommand (h : HReg) : Command where
  h := h
  needs := some .output
  pin := none
  plan := [.read .cfg, .write .cfg .set]
  onOk := .put .input
  onErr := .clear
  result := .zero

def execO2i (h : HReg) (s : State) : Host.Outcome State Fault Refusal :=
  runCommand (o2iCommand h) s

/-- `O2O xk, L` (R144): put the level in the output register; the configuration register is not touched. -/
def o2oCommand (h : HReg) (l : Level) : Command where
  h := h
  needs := some .output
  pin := none
  plan := [.read .out, .write .out (.put (levelBit l))]
  onOk := .put .output
  onErr := .clear
  result := .zero

def execO2o (h : HReg) (l : Level) (s : State) : Host.Outcome State Fault Refusal :=
  runCommand (o2oCommand h l) s

end Sys2Proof.Machine
end

