-- ==== Sys2Proof/Machine/Dispatch.lean ====
section
/-! DEFINITION. One micro-step of an instruction: one arm per row of spec/opcode_table.json. -/

namespace Sys2Proof.Machine

/-- One micro-step of the command `i`, already latched in `CMDR`: its acceptance when `pc = IDLE`, the transaction `n` of
its plan when `pc = Tn` (R19). -/
def exec (i : Instr) (s : State) : Host.Outcome State Fault Refusal :=
  match i with
  | .newi h b idx => Sys2Proof.Machine.execNewi h b idx s
  | .ishi h => Sys2Proof.Machine.execIshi h s
  | .islo h => Sys2Proof.Machine.execIslo h s
  | .spol h p => Sys2Proof.Machine.execSpol h p s
  | .i2i h => Sys2Proof.Machine.execI2i h s
  | .i2o h l => Sys2Proof.Machine.execI2o h l s
  | .newo h b idx l => Sys2Proof.Machine.execNewo h b idx l s
  | .seth h => Sys2Proof.Machine.execSeth h s
  | .setl h => Sys2Proof.Machine.execSetl h s
  | .o2i h => Sys2Proof.Machine.execO2i h s
  | .o2o h l => Sys2Proof.Machine.execO2o h l s
  | .drop h => Sys2Proof.Machine.execDrop h s

end Sys2Proof.Machine
end

