-- ==== Sys2Proof/Machine/Sequencer.lean ====
section
/-! DEFINITION. What one move of an outside agent makes the system do: a word on the command port (R100, R101), the device's
turn while a command is in progress (R103, R104), the two resets (R190 to R193), a second master (R64, R206). -/

namespace Sys2Proof.Machine

/-- The row of R102 for an instruction. -/
def commandOf : Instr → Command
  | .newi h b i => newiCommand h b i
  | .ishi h => ishiCommand h
  | .islo h => isloCommand h
  | .spol h p => spolCommand h p
  | .i2i h => i2iCommand h
  | .i2o h l => i2oCommand h l
  | .newo h b i l => newoCommand h b i l
  | .seth h => sethCommand h
  | .setl h => setlCommand h
  | .o2i h => o2iCommand h
  | .o2o h l => o2oCommand h l
  | .drop h => dropCommand h

/-- A word the controller accepts: `CMDR <- w`, then decode; no instruction is ILLEGAL (R101 step 1, R165). -/
def acceptWord (w : Word) (s : State) : Host.Outcome State Fault Refusal :=
  match decode w with
  | .ok i => exec i (s.latch w)
  | .error _ => .next (raise .illegal (s.latch w).quiet)

/-- The host presents a word: accepted in `IDLE` and not halted, otherwise not taken, with no effect (R100). -/
def presentWord (w : Word) (s : State) : Host.Outcome State Fault Refusal :=
  if s.cmdReady then acceptWord w s else .next s.quiet

/-- The device's turn: the transaction of the command in progress is presented and answered (R103, R104). With no command
in progress there is nothing to answer. -/
def continueCommand (s : State) : Host.Outcome State Fault Refusal :=
  match decode s.cmdr with
  | .ok i => exec i s
  | .error _ => .fault .strayCommand

/-- The write the controller may have presented when a reset arrives: register and byte of transaction `n` of the
command in progress, if that is a write (R191). -/
def inFlightWrite (s : State) : Option (RegisterId × Byte) :=
  match s.pc.txn, decode s.cmdr with
  | some n, .ok i =>
    match (commandOf i).plan[n]? with
    | some (.write f m) =>
      some (regSel s.params ((commandOf i).bankOf s) f, m.apply s.tmp ((commandOf i).idxOf s))
    | _ => none
  | _, _ => none

/-- The device when a controller reset arrives: unchanged (R192), but for a write in flight that took effect (R191). -/
def settleInFlight (landed : Bool) (s : State) : State :=
  match landed, inFlightWrite s with
  | true, some (r, v) => s.setDev r v
  | _, _ => s

/-- Controller reset (R35, R190): every controller register at its reset value, no response, no transaction. -/
def controllerReset (landed : Bool) (s : State) : State :=
  { settleInFlight landed s with
    x := Vector.replicate 16 Handle.empty
    pc := .idle
    cmdr := 0
    tmp := 0
    rsp := 0
    halt := false
    rspValid := false
    port := none }

/-- Device reset (R36, R193): every storage register at its reset content; no controller state changes. -/
def deviceReset (s : State) : State := { s.quiet with mem := [] }

/-- A second master writes a storage register; an input register is no storage (R57, R64, R206). -/
def otherMasterWrite (r : RegisterId) (v : Byte) (s : State) : State :=
  if isInputReg s.params r then s.quiet else s.quiet.setDev r v

/-- The device answers while no command is in progress: nobody asked, nothing happens. -/
def idleStep (s : State) : Host.Outcome State Fault Refusal := .next s.quiet

/-- A state in which the next step accepts the word: the host presents it next, the controller is idle and not halted
(R100). -/
def offerWord (w : Word) (s : State) : State :=
  { s with moves := .command w :: s.moves, pc := .idle, halt := false }

end Sys2Proof.Machine
end

