-- ==== Sys2Proof/Machine/Step.lean ====
section
/-! DEFINITION. One step of the system: the next move of an outside agent, or the device's turn when no move is listed
(R12, R16, R19). -/

namespace Sys2Proof.Machine

/-- One step: the first listed move is made. With none listed, a command in progress gets a free answer of the device
(R58; log 3), and an idle controller waits (R37). -/
def step (s : State) : Host.Outcome State Fault Refusal :=
  match s.moves with
  | .command w :: ms => presentWord w (s.withMoves ms)
  | .reset landed :: ms => .next (controllerReset landed (s.withMoves ms))
  | .deviceReset :: ms => .next (deviceReset (s.withMoves ms))
  | .otherMaster r v :: ms => .next (otherMasterWrite r v (s.withMoves ms))
  | .answer _ :: ms => if s.pc = .idle then idleStep (s.withMoves ms) else continueCommand s
  | [] => if s.pc = .idle then idleStep s else continueCommand s

/-- `s` with the instruction whose bits are `w` presented on the command port, so that the next step accepts and runs
it (log 2). -/
def State.withFetchWord (s : State) (nbits w : Nat) : State :=
  offerWord (BitVec.ofNat 16 (w % 2 ^ nbits)) s

end Sys2Proof.Machine
end

