-- ==== Sys2Proof/Safety.lean ====
section
/-! DEFINITION. The terms claims are made in: legal states, the pin invariant of R33, the premises about the outside
agents (R64, R193), the end of a run (R198). -/

namespace Sys2Proof.Machine

/-! ## Pins -/

/-- `HwRole(b, i)` (R32). -/
def hwRole (s : State) (b : Bank) (i : PinIdx) : Role :=
  if bit (s.devReg b .cfg) i then .input else .output

/-- A valid handle's role is the hardware role of its pin (R33). The controller does not keep this for every handle. -/
abbrev HandleAgrees (s : State) (k : HReg) : Prop :=
  (s.getX k).valid = true → (s.getX k).role = hwRole s (s.getX k).bank (s.getX k).idx

/-- A stale handle: valid, and not of its pin's hardware role (R17, R204). -/
abbrev Stale (s : State) (k : HReg) : Prop := ¬ HandleAgrees s k

/-! ## Kinds of instruction -/

/-- The transitions that consume their pin object when a transaction fails (R23, D10). -/
def losesHandleOnFailure : Instr → Bool
  | .i2o _ _ => true
  | .o2i _ => true
  | .o2o _ _ => true
  | .newi _ _ _ => false
  | .ishi _ => false
  | .islo _ => false
  | .spol _ _ => false
  | .i2i _ => false
  | .newo _ _ _ _ => false
  | .seth _ => false
  | .setl _ => false
  | .drop _ => false

/-- The constructors NEWI and NEWO. -/
def isConstructor : Instr → Bool
  | .newi _ _ _ => true
  | .newo _ _ _ _ => true
  | .ishi _ => false
  | .islo _ => false
  | .spol _ _ => false
  | .i2i _ => false
  | .i2o _ _ => false
  | .seth _ => false
  | .setl _ => false
  | .o2i _ => false
  | .o2o _ _ => false
  | .drop _ => false

/-- The level an instruction that makes its pin an output programs first: that of NEWO and I2O (R200). -/
def seedLevel : Instr → Option Level
  | .newo _ _ _ l => some l
  | .i2o _ l => some l
  | .newi _ _ _ => none
  | .ishi _ => none
  | .islo _ => none
  | .spol _ _ => none
  | .i2i _ => none
  | .seth _ => none
  | .setl _ => none
  | .o2i _ => none
  | .o2o _ _ => none
  | .drop _ => none

/-! ## Frames -/

/-- What a micro-step of a command on the handle register `h` leaves alone: every other handle register, `CMDR`, the
parameters, `RSP` while no response is presented, and every device address but the stored ones. -/
abbrev LeavesTheRest (h : HReg) (stored : List RegisterId) (s t : State) : Prop :=
  (∀ j, j ≠ h → t.getX j = s.getX j) ∧ t.cmdr = s.cmdr ∧ t.params = s.params ∧
    (t.rspValid = false → t.rsp = s.rsp) ∧
    ∀ a, (∀ r ∈ stored, a ≠ r.toNat) → Memory.read t.params t.mem a = Memory.read s.params s.mem a

/-! ## The outside agents -/

/-- A move that changes the device behind the controller's back: a device reset or another master (R64, R193). -/
def Move.disturbs : Move → Bool
  | .deviceReset => true
  | .otherMaster _ _ => true
  | .command _ => false
  | .reset _ => false
  | .answer _ => false

/-- The premise "one master and no device reset" for the next step (R64, R193). -/
abbrev Undisturbed (s : State) : Prop := (s.moves.head?.map Move.disturbs).getD false = false

/-- The next move is a controller reset. -/
def resetsNext (s : State) : Bool :=
  match s.moves with
  | .reset _ :: _ => true
  | _ => false

/-- Only answers of the device are listed: the host and the environment are silent. -/
abbrev OnlyAnswers (s : State) : Prop :=
  (s.moves.all fun m => match m with | .answer _ => true | _ => false) = true

/-- The script of a host that follows R197: each word, then the answers its transactions get. -/
def script : List (Word × List Answer) → List Move
  | [] => []
  | (w, as) :: r => .command w :: (as.map .answer ++ script r)

/-! ## Runs -/

/-- `k` steps of the system. -/
abbrev runs (k : Nat) (s : State) : Host.Outcome State Fault Refusal := Host.Core.run Sys2Proof.core k s

/-! ## The end of a run (R198; log 21) -/

/-- How many words the host has still to present. -/
def wordCount (s : State) : Nat := s.moves.countP fun m => match m with | .command _ => true | _ => false

/-- The next step accepts a word (R100). -/
def acceptsNext (s : State) : Bool :=
  match s.moves with
  | .command _ :: _ => s.cmdReady
  | _ => false

/-- What a run has done with the host's words so far. -/
structure Tally where
  /-- Words the controller accepted. -/
  accepted : Nat
  /-- Accepted words whose response was presented. -/
  answered : Nat
  /-- An accepted word waits for its response. -/
  waiting : Bool
deriving DecidableEq, Repr

/-- Nothing accepted yet. -/
def Tally.zero : Tally := ⟨0, 0, false⟩

/-- The tally after the step from `s` to `t`. A controller reset abandons the word that waits (R191): no response ever
answers it. -/
def Tally.after (a : Tally) (s t : State) : Tally :=
  let waiting := a.waiting || acceptsNext s
  { accepted := if acceptsNext s then a.accepted + 1 else a.accepted
    answered := if waiting && t.rspValid then a.answered + 1 else a.answered
    waiting := waiting && !t.rspValid && !resetsNext s }

/-- `k` steps with the tally kept; none if the machine stops. -/
def tallyRun : Nat → Tally → State → Option (State × Tally)
  | 0, a, s => some (s, a)
  | k + 1, a, s =>
    match step s with
    | .next t => tallyRun k (a.after s t) t
    | .fault _ => none
    | .refused _ => none

/-- After `k` steps the run from `s` has ended well: every word listed in `s` was accepted and answered, the controller is
idle and not halted (R198). A word turned away while busy or halted, and one cut off by a controller reset, is not. -/
def endedWell (k : Nat) (s : State) : Bool :=
  match tallyRun k Tally.zero s with
  | some (t, a) => a.accepted == wordCount s && a.answered == wordCount s && t.pc == .idle && !t.halt
  | none => false

/-- After `k` steps the run from `s` has ended badly: the controller is halted and a word listed in `s` has not been
accepted, be it still listed or turned away (R198). The other bad end, a device that never answers, is excluded by R58. -/
def endedBadly (k : Nat) (s : State) : Bool :=
  match tallyRun k Tally.zero s with
  | some (t, a) => t.halt && decide (a.accepted < wordCount s)
  | none => false

/-! ## Legal states -/

/-- No input register has a listed byte: they are no storage (R57). -/
abbrev NoInputCell (s : State) : Prop :=
  ∀ c ∈ s.mem, c.1 ≠ (regSel s.params .bank0 .inp).toNat ∧ c.1 ≠ (regSel s.params .bank1 .inp).toNat

/-- Every empty handle register is all zeros (R21). -/
abbrev HandlesWf (s : State) : Prop := ∀ k : HReg, (s.getX k).wf = true

/-- A halted controller is idle (R166). -/
abbrev HaltedIdle (s : State) : Prop := s.halt = true → s.pc = .idle

/-- At `Tn` the latch holds an instruction whose plan has transaction `n` and whose checks passed (R24, R101). -/
def inProgressOk (s : State) : Bool :=
  match s.pc.txn with
  | none => true
  | some n =>
    match decode s.cmdr with
    | .error _ => false
    | .ok i =>
      decide (n < (commandOf i).plan.length) && !(commandOf i).breaksContract && (commandOf i).handleOk s

/-- The response word is one of R90: bit 7 is 0, the status one of five, `err` and `txn` 0 but for DEV_ERR, `val` 0 but
for OK. -/
abbrev ResponseLegal (w : Word) : Prop :=
  w.getLsbD 7 = false ∧ (rspSt w).toNat ≤ 4 ∧ (rspSt w ≠ Status.devErr.code → rspErr w = 0 ∧ rspTxn w = 0) ∧
    (rspSt w ≠ Status.ok.code → rspVal w = false)

/-- A state the machine can be in: an injective register map, the memory in canonical form with no input register
listed, handles, halt, sequencer and response as the spec has them. -/
abbrev Legal (s : State) : Prop :=
  s.params.regs.wf ∧ Memory.wf s.params s.mem ∧ NoInputCell s ∧ HandlesWf s ∧ HaltedIdle s ∧
    inProgressOk s = true ∧ ResponseLegal s.rsp

/-- The next transaction of the command in progress, if there is one. -/
def nextPlanStep (s : State) : Option (Command × PlanStep) :=
  match s.pc.txn, decode s.cmdr with
  | some n, .ok i => ((commandOf i).plan[n]?).map fun p => (commandOf i, p)
  | _, _ => none

/-- Before a write, `TMP` is the byte its register holds: nothing came between the read and the write (R26, R65). -/
def freshOk (s : State) : Bool :=
  match nextPlanStep s with
  | some (c, .write f _) => s.tmp == s.devReg (c.bankOf s) f
  | _ => true

/-- Once the level of NEWO or I2O has been written, the output register holds it (R107, R200). -/
def seededOk (s : State) : Bool :=
  match decode s.cmdr with
  | .error _ => true
  | .ok i =>
    match seedLevel i, s.pc with
    | some l, .t2 => bit (s.devReg ((commandOf i).bankOf s) .out) ((commandOf i).idxOf s) == levelBit l
    | some l, .t3 => bit (s.devReg ((commandOf i).bankOf s) .out) ((commandOf i).idxOf s) == levelBit l
    | _, _ => true

end Sys2Proof.Machine
end

