-- ==== Sys2Proof/Certificates/Slice0/Obligations.lean ====
section
/-! DEFINITION. The statements for the provers. Those about one micro-step are about `exec`; those about the system are about
`step` and `runs`. -/

open Sys2Proof Sys2Proof.Machine

/-! ## Decoding and encoding -/

/-- R81, R84, R85, R88: every well-formed instruction decodes from its own word. -/
def Obligations.DecodeOfEncodeIsTheInstruction : Prop :=
  ∀ i : Instr, i.wellFormed = true → decode (encode i) = .ok i

/-- R82, R84: a word that decodes is the word of the instruction it decodes to, which is well-formed. -/
def Obligations.EncodeOfDecodeIsTheWord : Prop :=
  ∀ (w : Word) (i : Instr), decode w = .ok i → i.wellFormed = true ∧ encode i = w

/-- R83, R86: a word is illegal exactly when its opcode is none of the twelve, or the reserved field or a field that its
instruction does not use is not 0. -/
def Obligations.IllegalWordsAreThoseOfTheRule : Prop :=
  ∀ w : Word, (∃ e, decode w = .error e) ↔
    (opField w = 0x0 ∨ opField w = 0xD ∨ opField w = 0xE ∨ opField w = 0xF) ∨
    zField w ≠ 0 ∨
    (opField w ≠ 0x1 ∧ opField w ≠ 0x7 ∧ (bankField w ≠ 0 ∨ idxField w ≠ 0)) ∨
    (opField w ≠ 0x4 ∧ opField w ≠ 0x6 ∧ opField w ≠ 0x7 ∧ opField w ≠ 0xB ∧ argField w ≠ 0)

/-- Words written out from the rows of R84 and R88. -/
def Obligations.SampleWordsDecode : Prop :=
  decode 0x1F87 = .ok (.newi 15 .bank1 7) ∧ decode 0x3500 = .ok (.islo 5) ∧
  decode 0x4F40 = .ok (.spol 15 .inverse) ∧ decode 0x6000 = .ok (.i2o 0 .low) ∧
  decode 0x7FCF = .ok (.newo 15 .bank1 15 .high) ∧ decode 0x9100 = .ok (.setl 1) ∧
  decode 0xB140 = .ok (.o2o 1 .high) ∧ decode 0xCF00 = .ok (.drop 15) ∧
  decode 0x1048 = .error .unusedNotZero ∧ decode 0x7190 = .error .reservedNotZero ∧
  decode 0xFFFF = .error (.unknownOpcode 0xF)

/-! ## One step runs the decoded instruction -/

/-- R100, R101: a word presented to an idle controller that is not halted is latched in `CMDR`, taken off the list of moves,
and its instruction runs. (The list of moves is the model's own: log 2.) -/
def Obligations.StepRunsTheAcceptedInstruction : Prop :=
  ∀ (s : State) (w : Word) (ms : List Move) (i : Instr), s.pc = .idle → s.halt = false →
    s.moves = .command w :: ms → decode w = .ok i →
    step s = exec i { s with moves := ms, cmdr := w }

/-- R103, R104: while a command is in progress and the device moves next, the step is the next micro-step of the instruction
in `CMDR`. (The list of moves is the model's own: log 2.) -/
def Obligations.StepRunsTheInstructionInProgress : Prop :=
  ∀ (s : State) (i : Instr), s.pc ≠ .idle → decode s.cmdr = .ok i →
    (s.moves = [] ∨ ∃ a ms, s.moves = .answer a :: ms) → step s = exec i s

/-- R100: a word presented while a command is in progress or the controller is halted is not taken and has no effect. That it
is gone then is the model's choice (log 15). -/
def Obligations.WordWhileNotReadyHasNoEffect : Prop :=
  ∀ (s : State) (w : Word) (ms : List Move), s.moves = .command w :: ms → s.pc ≠ .idle ∨ s.halt = true →
    step s = .next { s with moves := ms, rspValid := false, port := none }

/-- R101 step 1, R165: a word that is not an instruction is refused with ILLEGAL and nothing else happens. -/
def Obligations.IllegalWordIsRefused : Prop :=
  ∀ (s : State) (w : Word) (ms : List Move) (e : DecodeError), s.pc = .idle → s.halt = false →
    s.moves = .command w :: ms → decode w = .error e →
    step s = .next { s with moves := ms, cmdr := w, rsp := 0x0003, rspValid := true, port := none }

/-! ## The input pin instructions -/

/-- R120: NEWI is accepted, reads `CFG_b`, writes it back with the pin's bit set, and leaves the new input pin in `x[k]`. -/
def Obligations.NewiReadsSetsAndWritesConfiguration : Prop :=
  ∀ (h : HReg) (b : Bank) (i : Nat) (s : State) (smp : Byte), i < 8 → s.params.regs.wf →
    (s.pc = .idle →
      exec (.newi h b i) s = .next { s with pc := .t0, rspValid := false, port := none }) ∧
    (s.pc = .t0 → s.answer = .ok smp →
      exec (.newi h b i) s = .next { s.afterAnswer with
        pc := .t1, tmp := s.devReg b .cfg, rspValid := false, port := some (.read (regSel s.params b .cfg)) }) ∧
    (s.pc = .t1 → s.answer = .ok smp →
      exec (.newi h b i) s = .next { s.afterAnswer with
        pc := .idle
        mem := Memory.write s.params s.mem (regSel s.params b .cfg).toNat (setbit s.tmp (pinIdx i))
        x := s.x.set h.val ⟨true, .input, b, pinIdx i⟩ h.isLt
        rsp := 0x0000, rspValid := true
        port := some (.write (regSel s.params b .cfg) (setbit s.tmp (pinIdx i))) })

/-- R121: ISHI is accepted on an input handle, reads `IN_b` and answers the pin's bit of the byte the environment drew. -/
def Obligations.IshiAnswersTheBitRead : Prop :=
  ∀ (h : HReg) (s : State) (smp : Byte),
    (s.pc = .idle → (s.getX h).valid = true → (s.getX h).role = .input →
      exec (.ishi h) s = .next { s with pc := .t0, rspValid := false, port := none }) ∧
    (s.pc = .t0 → s.answer = .ok smp →
      exec (.ishi h) s = .next { s.afterAnswer with
        pc := .idle, tmp := smp, rspValid := true
        rsp := if bit smp (s.getX h).idx then 0x0010 else 0x0000
        port := some (.read (regSel s.params (s.getX h).bank .inp)) })

/-- R122: ISLO is accepted on an input handle, reads `IN_b` itself and answers the negated bit. -/
def Obligations.IsloAnswersTheNegatedBitRead : Prop :=
  ∀ (h : HReg) (s : State) (smp : Byte),
    (s.pc = .idle → (s.getX h).valid = true → (s.getX h).role = .input →
      exec (.islo h) s = .next { s with pc := .t0, rspValid := false, port := none }) ∧
    (s.pc = .t0 → s.answer = .ok smp →
      exec (.islo h) s = .next { s.afterAnswer with
        pc := .idle, tmp := smp, rspValid := true
        rsp := if bit smp (s.getX h).idx then 0x0000 else 0x0010
        port := some (.read (regSel s.params (s.getX h).bank .inp)) })

/-- R123: SPOL is accepted on an input handle, reads `POL_b` and writes it back with the pin's bit 1 for Inverse, 0 for
Normal; the handle is unchanged. -/
def Obligations.SpolPutsThePolarityBit : Prop :=
  ∀ (h : HReg) (p : Polarity) (s : State) (smp : Byte), s.params.regs.wf →
    (s.pc = .idle → (s.getX h).valid = true → (s.getX h).role = .input →
      exec (.spol h p) s = .next { s with pc := .t0, rspValid := false, port := none }) ∧
    (s.pc = .t0 → s.answer = .ok smp →
      exec (.spol h p) s = .next { s.afterAnswer with
        pc := .t1, tmp := s.devReg (s.getX h).bank .pol, rspValid := false
        port := some (.read (regSel s.params (s.getX h).bank .pol)) }) ∧
    (s.pc = .t1 → s.answer = .ok smp →
      exec (.spol h p) s = .next { s.afterAnswer with
        pc := .idle
        mem := Memory.write s.params s.mem (regSel s.params (s.getX h).bank .pol).toNat
          (putbit s.tmp (s.getX h).idx (p = .inverse))
        rsp := 0x0000, rspValid := true
        port := some (.write (regSel s.params (s.getX h).bank .pol)
          (putbit s.tmp (s.getX h).idx (p = .inverse))) })

/-! ## The output pin instructions -/

/-- R130: NEWO is accepted, reads and writes `OUT_b` with the level, then reads `CFG_b` and writes it with the pin's bit
clear, and leaves the new output pin in `x[k]`. -/
def Obligations.NewoProgramsOutputThenConfiguration : Prop :=
  ∀ (h : HReg) (b : Bank) (i : Nat) (l : Level) (s : State) (smp : Byte), i < 8 → s.params.regs.wf →
    (s.pc = .idle →
      exec (.newo h b i l) s = .next { s with pc := .t0, rspValid := false, port := none }) ∧
    (s.pc = .t0 → s.answer = .ok smp →
      exec (.newo h b i l) s = .next { s.afterAnswer with
        pc := .t1, tmp := s.devReg b .out, rspValid := false, port := some (.read (regSel s.params b .out)) }) ∧
    (s.pc = .t1 → s.answer = .ok smp →
      exec (.newo h b i l) s = .next { s.afterAnswer with
        pc := .t2, rspValid := false
        mem := Memory.write s.params s.mem (regSel s.params b .out).toNat (putbit s.tmp (pinIdx i) (l = .high))
        port := some (.write (regSel s.params b .out) (putbit s.tmp (pinIdx i) (l = .high))) }) ∧
    (s.pc = .t2 → s.answer = .ok smp →
      exec (.newo h b i l) s = .next { s.afterAnswer with
        pc := .t3, tmp := s.devReg b .cfg, rspValid := false, port := some (.read (regSel s.params b .cfg)) }) ∧
    (s.pc = .t3 → s.answer = .ok smp →
      exec (.newo h b i l) s = .next { s.afterAnswer with
        pc := .idle
        mem := Memory.write s.params s.mem (regSel s.params b .cfg).toNat (clrbit s.tmp (pinIdx i))
        x := s.x.set h.val ⟨true, .output, b, pinIdx i⟩ h.isLt
        rsp := 0x0000, rspValid := true
        port := some (.write (regSel s.params b .cfg) (clrbit s.tmp (pinIdx i))) })

/-- R131: SETH is accepted on an output handle, reads `OUT_b` and writes it back with the pin's bit set; the handle is
unchanged. -/
def Obligations.SethSetsTheOutputBit : Prop :=
  ∀ (h : HReg) (s : State) (smp : Byte), s.params.regs.wf →
    (s.pc = .idle → (s.getX h).valid = true → (s.getX h).role = .output →
      exec (.seth h) s = .next { s with pc := .t0, rspValid := false, port := none }) ∧
    (s.pc = .t0 → s.answer = .ok smp →
      exec (.seth h) s = .next { s.afterAnswer with
        pc := .t1, tmp := s.devReg (s.getX h).bank .out, rspValid := false
        port := some (.read (regSel s.params (s.getX h).bank .out)) }) ∧
    (s.pc = .t1 → s.answer = .ok smp →
      exec (.seth h) s = .next { s.afterAnswer with
        pc := .idle
        mem := Memory.write s.params s.mem (regSel s.params (s.getX h).bank .out).toNat (setbit s.tmp (s.getX h).idx)
        rsp := 0x0000, rspValid := true
        port := some (.write (regSel s.params (s.getX h).bank .out) (setbit s.tmp (s.getX h).idx)) })

/-- R132: SETL is accepted on an output handle, reads `OUT_b` and writes it back with the pin's bit clear; the handle is
unchanged. -/
def Obligations.SetlClearsTheOutputBit : Prop :=
  ∀ (h : HReg) (s : State) (smp : Byte), s.params.regs.wf →
    (s.pc = .idle → (s.getX h).valid = true → (s.getX h).role = .output →
      exec (.setl h) s = .next { s with pc := .t0, rspValid := false, port := none }) ∧
    (s.pc = .t0 → s.answer = .ok smp →
      exec (.setl h) s = .next { s.afterAnswer with
        pc := .t1, tmp := s.devReg (s.getX h).bank .out, rspValid := false
        port := some (.read (regSel s.params (s.getX h).bank .out)) }) ∧
    (s.pc = .t1 → s.answer = .ok smp →
      exec (.setl h) s = .next { s.afterAnswer with
        pc := .idle
        mem := Memory.write s.params s.mem (regSel s.params (s.getX h).bank .out).toNat (clrbit s.tmp (s.getX h).idx)
        rsp := 0x0000, rspValid := true
        port := some (.write (regSel s.params (s.getX h).bank .out) (clrbit s.tmp (s.getX h).idx)) })

/-! ## The role transitions and DROP -/

/-- R141, R150: I2I on an input handle and DROP on any handle complete in the acceptance step with no transaction; I2I
changes nothing but the response, DROP empties the handle register. -/
def Obligations.I2iAndDropCompleteAtAcceptance : Prop :=
  ∀ (h : HReg) (s : State), s.pc = .idle →
    ((s.getX h).valid = true → (s.getX h).role = .input →
      exec (.i2i h) s = .next { s with rsp := 0x0000, rspValid := true, port := none }) ∧
    exec (.drop h) s = .next { s with
      x := s.x.set h.val Handle.empty h.isLt, rsp := 0x0000, rspValid := true, port := none }

/-- R142: I2O is accepted on an input handle, reads and writes `OUT_b` with the level, then reads `CFG_b` and writes it with
the pin's bit clear, and makes the handle's role Output. -/
def Obligations.I2oProgramsOutputThenConfiguration : Prop :=
  ∀ (h : HReg) (l : Level) (s : State) (smp : Byte), s.params.regs.wf →
    (s.pc = .idle → (s.getX h).valid = true → (s.getX h).role = .input →
      exec (.i2o h l) s = .next { s with pc := .t0, rspValid := false, port := none }) ∧
    (s.pc = .t0 → s.answer = .ok smp →
      exec (.i2o h l) s = .next { s.afterAnswer with
        pc := .t1, tmp := s.devReg (s.getX h).bank .out, rspValid := false
        port := some (.read (regSel s.params (s.getX h).bank .out)) }) ∧
    (s.pc = .t1 → s.answer = .ok smp →
      exec (.i2o h l) s = .next { s.afterAnswer with
        pc := .t2, rspValid := false
        mem := Memory.write s.params s.mem (regSel s.params (s.getX h).bank .out).toNat
          (putbit s.tmp (s.getX h).idx (l = .high))
        port := some (.write (regSel s.params (s.getX h).bank .out) (putbit s.tmp (s.getX h).idx (l = .high))) }) ∧
    (s.pc = .t2 → s.answer = .ok smp →
      exec (.i2o h l) s = .next { s.afterAnswer with
        pc := .t3, tmp := s.devReg (s.getX h).bank .cfg, rspValid := false
        port := some (.read (regSel s.params (s.getX h).bank .cfg)) }) ∧
    (s.pc = .t3 → s.answer = .ok smp →
      exec (.i2o h l) s = .next { s.afterAnswer with
        pc := .idle
        mem := Memory.write s.params s.mem (regSel s.params (s.getX h).bank .cfg).toNat (clrbit s.tmp (s.getX h).idx)
        x := s.x.set h.val ⟨true, .output, (s.getX h).bank, (s.getX h).idx⟩ h.isLt
        rsp := 0x0000, rspValid := true
        port := some (.write (regSel s.params (s.getX h).bank .cfg) (clrbit s.tmp (s.getX h).idx)) })

/-- R143: O2I is accepted on an output handle, reads `CFG_b`, writes it back with the pin's bit set, and makes the handle's
role Input; the output register is not touched. -/
def Obligations.TransitionO2iSetsTheConfigurationBit : Prop :=
  ∀ (h : HReg) (s : State) (smp : Byte), s.params.regs.wf →
    (s.pc = .idle → (s.getX h).valid = true → (s.getX h).role = .output →
      exec (.o2i h) s = .next { s with pc := .t0, rspValid := false, port := none }) ∧
    (s.pc = .t0 → s.answer = .ok smp →
      exec (.o2i h) s = .next { s.afterAnswer with
        pc := .t1, tmp := s.devReg (s.getX h).bank .cfg, rspValid := false
        port := some (.read (regSel s.params (s.getX h).bank .cfg)) }) ∧
    (s.pc = .t1 → s.answer = .ok smp →
      exec (.o2i h) s = .next { s.afterAnswer with
        pc := .idle
        mem := Memory.write s.params s.mem (regSel s.params (s.getX h).bank .cfg).toNat (setbit s.tmp (s.getX h).idx)
        x := s.x.set h.val ⟨true, .input, (s.getX h).bank, (s.getX h).idx⟩ h.isLt
        rsp := 0x0000, rspValid := true
        port := some (.write (regSel s.params (s.getX h).bank .cfg) (setbit s.tmp (s.getX h).idx)) })

/-- R144: O2O is accepted on an output handle, reads `OUT_b` and writes it back with the level; the handle is an output pin
of the same bank and index, and the configuration register is not touched. -/
def Obligations.TransitionO2oPutsTheLevelBit : Prop :=
  ∀ (h : HReg) (l : Level) (s : State) (smp : Byte), s.params.regs.wf →
    (s.pc = .idle → (s.getX h).valid = true → (s.getX h).role = .output →
      exec (.o2o h l) s = .next { s with pc := .t0, rspValid := false, port := none }) ∧
    (s.pc = .t0 → s.answer = .ok smp →
      exec (.o2o h l) s = .next { s.afterAnswer with
        pc := .t1, tmp := s.devReg (s.getX h).bank .out, rspValid := false
        port := some (.read (regSel s.params (s.getX h).bank .out)) }) ∧
    (s.pc = .t1 → s.answer = .ok smp →
      exec (.o2o h l) s = .next { s.afterAnswer with
        pc := .idle
        mem := Memory.write s.params s.mem (regSel s.params (s.getX h).bank .out).toNat
          (putbit s.tmp (s.getX h).idx (l = .high))
        x := s.x.set h.val ⟨true, .output, (s.getX h).bank, (s.getX h).idx⟩ h.isLt
        rsp := 0x0000, rspValid := true
        port := some (.write (regSel s.params (s.getX h).bank .out) (putbit s.tmp (s.getX h).idx (l = .high))) })

/-! ## Commands that fail -/

/-- R101 step 2, R166: NEWI and NEWO with an index above 7 halt the controller in the acceptance step, whatever the device
holds: no transaction, no handle changed, status CONTRACT. An index above 15, which no word holds, is the model's
(log 14). -/
def Obligations.IndexAboveSevenHalts : Prop :=
  ∀ (h : HReg) (b : Bank) (i : Nat) (l : Level) (s : State), 8 ≤ i → s.pc = .idle →
    exec (.newi h b i) s = .next { s with halt := true, rsp := 0x0004, rspValid := true, port := none } ∧
    exec (.newo h b i l) s = .next { s with halt := true, rsp := 0x0004, rspValid := true, port := none }

/-- R101 step 3, R164: an instruction that needs a pin object of one role is refused with BAD_HANDLE on an empty register
and on one of the other role, with no other effect. -/
def Obligations.WrongHandleIsRefused : Prop :=
  ∀ (h : HReg) (s : State), s.pc = .idle →
    (¬ ((s.getX h).valid = true ∧ (s.getX h).role = .input) → ∀ (i : Instr),
      (i = .ishi h ∨ i = .islo h ∨ (∃ p, i = .spol h p) ∨ i = .i2i h ∨ ∃ l, i = .i2o h l) →
      exec i s = .next { s with rsp := 0x0002, rspValid := true, port := none }) ∧
    (¬ ((s.getX h).valid = true ∧ (s.getX h).role = .output) → ∀ (i : Instr),
      (i = .seth h ∨ i = .setl h ∨ i = .o2i h ∨ ∃ l, i = .o2o h l) →
      exec i s = .next { s with rsp := 0x0002, rspValid := true, port := none })

/-- R103, R105, R163: a read that fails ends the command with DEV_ERR, the number of the transaction and the device's error;
no byte is delivered, the device is unchanged, I2O, O2I and O2O lose their handle and every other instruction keeps it. -/
def Obligations.FailedReadAbortsTheCommand : Prop :=
  ∀ (i : Instr) (s : State) (n : Nat) (f : Fn) (e : DevErr) (landed : Bool), s.pc.txn = some n →
    (commandOf i).plan[n]? = some (.read f) → s.answer = .err e landed →
    exec i s = .next { s.afterAnswer with
      pc := .idle, rsp := rspWord .devErr false (BitVec.ofNat 2 n) e, rspValid := true
      port := some (.read (regSel s.params ((commandOf i).bankOf s) f))
      x := if losesHandleOnFailure i then s.x.set i.hreg.val Handle.empty i.hreg.isLt else s.x }

/-- R55, R104, R105, R163: a write that fails ends the command in the same way and leaves its register with the old or
the new byte, as the device chose; nothing else in the device changes. That the answer carries the choice is the model's
form (log 8). -/
def Obligations.FailedWriteLeavesOldOrNewByte : Prop :=
  ∀ (i : Instr) (s : State) (n : Nat) (f : Fn) (m : BitMod) (e : DevErr) (landed : Bool), s.pc.txn = some n →
    (commandOf i).plan[n]? = some (.write f m) → s.answer = .err e landed →
    exec i s = .next { s.afterAnswer with
      pc := .idle, rsp := rspWord .devErr false (BitVec.ofNat 2 n) e, rspValid := true
      mem := if landed then
          Memory.write s.params s.mem (regSel s.params ((commandOf i).bankOf s) f).toNat
            (m.apply s.tmp ((commandOf i).idxOf s))
        else s.mem
      port := some (.write (regSel s.params ((commandOf i).bankOf s) f) (m.apply s.tmp ((commandOf i).idxOf s)))
      x := if losesHandleOnFailure i then s.x.set i.hreg.val Handle.empty i.hreg.isLt else s.x }

/-! ## The sequencer -/

/-- R103 as it stands: `TMP <- v`, then completion or the next position on `Ok(v)`, the abort at `n` on `Err(e)`. -/
def Obligations.ReadMicroStep : Prop :=
  ∀ (i : Instr) (s : State) (n : Nat) (f : Fn), s.pc.txn = some n → (commandOf i).plan[n]? = some (.read f) →
    (∀ v s', memRead (regSel s.params ((commandOf i).bankOf s) f) s.quiet = (.ok v, s') →
      (n + 1 = (commandOf i).plan.length → exec i s = .next (complete (commandOf i) { s' with tmp := v })) ∧
      (n + 1 < (commandOf i).plan.length →
        ∃ p, p.txn = some (n + 1) ∧ exec i s = .next { s' with tmp := v, pc := p })) ∧
    (∀ e s', memRead (regSel s.params ((commandOf i).bankOf s) f) s.quiet = (.error e, s') →
      exec i s = .next (abort (commandOf i) n e s'))

/-- R104 as it stands: the byte computed from `TMP` is issued, then completion or the next position on `Ok`, the abort at
`n` on `Err(e)`; `TMP` is not changed. -/
def Obligations.WriteMicroStep : Prop :=
  ∀ (i : Instr) (s : State) (n : Nat) (f : Fn) (m : BitMod), s.pc.txn = some n →
    (commandOf i).plan[n]? = some (.write f m) →
    (∀ s', memWrite (regSel s.params ((commandOf i).bankOf s) f) (m.apply s.tmp ((commandOf i).idxOf s)) s.quiet =
        (.ok (), s') →
      s'.tmp = s.tmp ∧
      (n + 1 = (commandOf i).plan.length → exec i s = .next (complete (commandOf i) s')) ∧
      (n + 1 < (commandOf i).plan.length → ∃ p, p.txn = some (n + 1) ∧ exec i s = .next { s' with pc := p })) ∧
    (∀ e s', memWrite (regSel s.params ((commandOf i).bankOf s) f) (m.apply s.tmp ((commandOf i).idxOf s)) s.quiet =
        (.error e, s') →
      s'.tmp = s.tmp ∧ exec i s = .next (abort (commandOf i) n e s'))

/-- R102's facts: even transactions are reads and odd ones writes, a write goes to the register read just before, no plan
writes an input register, only SPOL touches POL, and a plan has 0, 1, 2 or 4 transactions. -/
def Obligations.PlansAlternateReadAndWrite : Prop :=
  ∀ i : Instr,
    (∀ n f, (commandOf i).plan[n]? = some (.read f) → n % 2 = 0 ∧ (f = .pol → ∃ h p, i = .spol h p)) ∧
    (∀ n f m, (commandOf i).plan[n]? = some (.write f m) →
      n % 2 = 1 ∧ f ≠ .inp ∧ (commandOf i).plan[n - 1]? = some (.read f) ∧ (f = .pol → ∃ h p, i = .spol h p)) ∧
    (commandOf i).plan.length ∈ [0, 1, 2, 4]

/-- R52, R53, R110, R111: the transaction on the port is the plan's, at the register of the pin's bank and the plan's
function, whatever the device answers; the write is issued even when the byte does not change. -/
def Obligations.PortShowsThePlannedTransaction : Prop :=
  ∀ (i : Instr) (s t : State) (n : Nat), s.pc.txn = some n → exec i s = .next t →
    (∀ f, (commandOf i).plan[n]? = some (.read f) →
      t.port = some (.read (regSel s.params ((commandOf i).bankOf s) f))) ∧
    (∀ f m, (commandOf i).plan[n]? = some (.write f m) →
      t.port = some (.write (regSel s.params ((commandOf i).bankOf s) f) (m.apply s.tmp ((commandOf i).idxOf s))))

/-! ## Bits -/

/-- R109: the laws of the bit operations. -/
def Obligations.BitOperationLaws : Prop :=
  ∀ (v : Byte) (i j : PinIdx) (c : Bool),
    bit (setbit v i) i = true ∧ bit (clrbit v i) i = false ∧ bit (putbit v i c) i = c ∧
    (j ≠ i → bit (setbit v i) j = bit v j) ∧ (j ≠ i → bit (clrbit v i) j = bit v j) ∧
    (bit v i = true → setbit v i = v) ∧ (bit v i = false → clrbit v i = v) ∧
    clrbit (setbit v i) i = clrbit v i ∧ setbit (clrbit v i) i = setbit v i ∧
    putbit (putbit v i c) i (bit v i) = v ∧
    oneHot i ∈ [0x01#8, 0x02#8, 0x04#8, 0x08#8, 0x10#8, 0x20#8, 0x40#8, 0x80#8] ∧
    (oneHot i).toNat = 2 ^ i.val

/-! ## Resets and another master -/

/-- R35, R190: a controller reset puts every controller register at its reset value, from every state and halted or not,
with no response and no transaction. -/
def Obligations.ControllerResetValues : Prop :=
  ∀ (s : State) (landed : Bool) (ms : List Move), s.moves = .reset landed :: ms →
    ∃ t, step s = .next t ∧ (∀ k, t.getX k = ⟨false, .input, .bank0, 0⟩) ∧ t.pc = .idle ∧ t.cmdr = 0x0000 ∧
      t.tmp = 0x00 ∧ t.rsp = 0x0000 ∧ t.halt = false ∧ t.rspValid = false ∧ t.port = none ∧ t.moves = ms ∧
      t.params = s.params

/-- R191, R192: a controller reset leaves the device as it is, but for a write that was in flight, whose register then
holds the old or the new byte. The flag `landed` is the model's form of the two outcomes (log 9). -/
def Obligations.ControllerResetKeepsTheDevice : Prop :=
  ∀ (s : State) (landed : Bool) (ms : List Move), s.moves = .reset landed :: ms →
    ∃ t, step s = .next t ∧
      (landed = false ∨ inFlightWrite s = none → ∀ r, t.devByte r = s.devByte r) ∧
      (landed = true → ∀ r v, inFlightWrite s = some (r, v) →
        t.devByte r = v ∧ ∀ r', r' ≠ r → t.devByte r' = s.devByte r') ∧
      (∀ r v, inFlightWrite s = some (r, v) ↔ ∃ i n f m, decode s.cmdr = .ok i ∧ s.pc.txn = some n ∧
        (commandOf i).plan[n]? = some (.write f m) ∧ r = regSel s.params ((commandOf i).bankOf s) f ∧
        v = m.apply s.tmp ((commandOf i).idxOf s)) ∧
      (s.pc = .idle → inFlightWrite s = none)

/-- R36, R193: a device reset puts polarity at Normal and configuration and output at the OPEN reset bytes, for both banks
and every register map, and changes no controller state, also in the middle of a command. -/
def Obligations.DeviceResetRestoresTheDevice : Prop :=
  ∀ (s : State) (ms : List Move), s.params.regs.wf → s.moves = .deviceReset :: ms →
    ∃ t, step s = .next t ∧
      (∀ b, t.devReg b .pol = 0x00 ∧ t.devReg b .cfg = s.params.cfgReset b ∧
        t.devReg b .out = s.params.outReset b) ∧
      t.x = s.x ∧ t.pc = s.pc ∧ t.cmdr = s.cmdr ∧ t.tmp = s.tmp ∧ t.rsp = s.rsp ∧ t.halt = s.halt ∧
      t.rspValid = false ∧ t.port = none ∧ t.moves = ms ∧ t.params = s.params

/-- R35, R36, R194: what the first command sees after power-up, for every value of the OPEN parameters. -/
def Obligations.PowerUpValues : Prop :=
  ∀ p : Params, p.regs.wf →
    (∀ k, (State.powerUp p).getX k = Handle.empty) ∧ (State.powerUp p).pc = .idle ∧
    (State.powerUp p).cmdr = 0 ∧ (State.powerUp p).tmp = 0 ∧ (State.powerUp p).rsp = 0 ∧
    (State.powerUp p).halt = false ∧ (State.powerUp p).rspValid = false ∧
    (State.powerUp p).cmdReady = true ∧ (State.powerUp p).busy = false ∧
    ∀ b, (State.powerUp p).devReg b .pol = 0x00 ∧ (State.powerUp p).devReg b .cfg = p.cfgReset b ∧
      (State.powerUp p).devReg b .out = p.outReset b

/-- R206: a write of another master to `OUT_b` that falls between the read and the write of SETH is lost. The
second master as an agent is the model's addition (log 11). -/
def Obligations.OtherMastersWriteIsLost : Prop :=
  ∀ (s : State) (h : HReg) (v smp : Byte) (ms : List Move), s.params.regs.wf → s.pc = .t1 →
    decode s.cmdr = .ok (.seth h) →
    s.moves = .otherMaster (regSel s.params (s.getX h).bank .out) v :: .answer (.ok smp) :: ms →
    (∃ t, runs 1 s = .next t ∧ t.devReg (s.getX h).bank .out = v) ∧
    (∃ t, runs 2 s = .next t ∧ t.devReg (s.getX h).bank .out = setbit s.tmp (s.getX h).idx ∧ t.rsp = 0x0000 ∧
      t.pc = .idle)

/-! ## Frames -/

/-- R121, R122, R141, R150: ISHI, ISLO, I2I and DROP store nothing in the device; ISHI, ISLO and I2I keep every handle
register, DROP every other one; none touches HALT; I2I and DROP keep TMP. -/
def Obligations.InstructionsThatStoreNothing : Prop :=
  ∀ (h : HReg) (s t : State),
    (exec (.ishi h) s = .next t → LeavesTheRest h [] s t ∧ t.getX h = s.getX h ∧ t.halt = s.halt) ∧
    (exec (.islo h) s = .next t → LeavesTheRest h [] s t ∧ t.getX h = s.getX h ∧ t.halt = s.halt) ∧
    (exec (.i2i h) s = .next t →
      LeavesTheRest h [] s t ∧ t.getX h = s.getX h ∧ t.halt = s.halt ∧ t.tmp = s.tmp) ∧
    (exec (.drop h) s = .next t → LeavesTheRest h [] s t ∧ t.halt = s.halt ∧ t.tmp = s.tmp)

/-- R120, R123, R131, R132, R143, R144: NEWI, O2I (configuration), SPOL (polarity), SETH, SETL and O2O (output) store to that
one register of the pin's bank, in transaction 1; SPOL, SETH and SETL keep every handle register; NEWI alone can set
HALT, on an index above 7. -/
def Obligations.InstructionsThatStoreOnce : Prop :=
  ∀ (h : HReg) (s t : State),
    (∀ b i, exec (.newi h b i) s = .next t →
      LeavesTheRest h (if s.pc = .t1 then [regSel s.params b .cfg] else []) s t ∧
      (t.halt = s.halt ∨ (s.pc = .idle ∧ 8 ≤ i)) ∧ (s.pc = .idle ∨ s.pc = .t1 → t.tmp = s.tmp)) ∧
    (exec (.o2i h) s = .next t →
      LeavesTheRest h (if s.pc = .t1 then [regSel s.params (s.getX h).bank .cfg] else []) s t ∧
      t.halt = s.halt ∧ (s.pc = .idle ∨ s.pc = .t1 → t.tmp = s.tmp)) ∧
    (∀ p, exec (.spol h p) s = .next t →
      LeavesTheRest h (if s.pc = .t1 then [regSel s.params (s.getX h).bank .pol] else []) s t ∧
      t.getX h = s.getX h ∧ t.halt = s.halt ∧ (s.pc = .idle ∨ s.pc = .t1 → t.tmp = s.tmp)) ∧
    (exec (.seth h) s = .next t →
      LeavesTheRest h (if s.pc = .t1 then [regSel s.params (s.getX h).bank .out] else []) s t ∧
      t.getX h = s.getX h ∧ t.halt = s.halt ∧ (s.pc = .idle ∨ s.pc = .t1 → t.tmp = s.tmp)) ∧
    (exec (.setl h) s = .next t →
      LeavesTheRest h (if s.pc = .t1 then [regSel s.params (s.getX h).bank .out] else []) s t ∧
      t.getX h = s.getX h ∧ t.halt = s.halt ∧ (s.pc = .idle ∨ s.pc = .t1 → t.tmp = s.tmp)) ∧
    (∀ l, exec (.o2o h l) s = .next t →
      LeavesTheRest h (if s.pc = .t1 then [regSel s.params (s.getX h).bank .out] else []) s t ∧
      t.halt = s.halt ∧ (s.pc = .idle ∨ s.pc = .t1 → t.tmp = s.tmp))

/-- R130, R142: NEWO and I2O store to the output register of the pin's bank in transaction 1 and to its configuration
register in transaction 3; NEWO alone can set HALT, on an index above 7. -/
def Obligations.InstructionsThatStoreTwice : Prop :=
  ∀ (h : HReg) (l : Level) (s t : State),
    (∀ b i, exec (.newo h b i l) s = .next t →
      LeavesTheRest h (if s.pc = .t1 then [regSel s.params b .out]
        else if s.pc = .t3 then [regSel s.params b .cfg] else []) s t ∧
      (t.halt = s.halt ∨ (s.pc = .idle ∧ 8 ≤ i)) ∧
      (s.pc = .idle ∨ s.pc = .t1 ∨ s.pc = .t3 → t.tmp = s.tmp)) ∧
    (exec (.i2o h l) s = .next t →
      LeavesTheRest h (if s.pc = .t1 then [regSel s.params (s.getX h).bank .out]
        else if s.pc = .t3 then [regSel s.params (s.getX h).bank .cfg] else []) s t ∧
      t.halt = s.halt ∧ (s.pc = .idle ∨ s.pc = .t1 ∨ s.pc = .t3 → t.tmp = s.tmp))

/-! ## Rules of the whole machine -/

/-- A legal state stays legal: the register map injective, the memory in canonical form with no input register listed, empty
handles all zeros, a halted controller idle, the command in progress one whose checks passed, the response word of R90. -/
def Obligations.StepKeepsLegal : Prop :=
  ∀ s t : State, Legal s → step s = .next t → Legal t

/-- Power-up is legal, for every injective register map and every reset content. -/
def Obligations.PowerUpIsLegal : Prop :=
  ∀ p : Params, p.regs.wf → Legal (State.powerUp p)

/-- From a legal state the machine never stops: every move of every outside agent, and every answer of the device, leads
to a next state. -/
def Obligations.LegalStateNeverStops : Prop :=
  ∀ s : State, Legal s → ∃ t, step s = .next t

/-- R30, R55, R67: but for a device reset and another master, a device byte changes only by the write that the plan of the
command in progress has next, and then to the byte computed from TMP. -/
def Obligations.DeviceChangesOnlyByThePlannedWrite : Prop :=
  ∀ (s t : State) (r : RegisterId), step s = .next t → Undisturbed s → t.devByte r ≠ s.devByte r →
    ∃ i n f m, decode s.cmdr = .ok i ∧ s.pc.txn = some n ∧ (commandOf i).plan[n]? = some (.write f m) ∧
      r = regSel s.params ((commandOf i).bankOf s) f ∧ t.devByte r = m.apply s.tmp ((commandOf i).idxOf s)

/-- R26, R65: as long as neither a device reset nor another master comes between, TMP is at every write the byte its
register holds. -/
def Obligations.StepKeepsTmpFresh : Prop :=
  ∀ s t : State, Legal s → freshOk s = true → Undisturbed s → step s = .next t → freshOk t = true

/-- R65, R66, R108: a read-modify-write disturbs no sibling: with neither a device reset nor another master, one step changes at
most the one bit that belongs to the pin of the command in progress. -/
def Obligations.OnlyThePinsBitChanges : Prop :=
  ∀ (s t : State) (b : Bank) (f : Fn) (j : PinIdx), Legal s → freshOk s = true → Undisturbed s →
    step s = .next t → bit (t.devReg b f) j ≠ bit (s.devReg b f) j →
    ∃ i n m, decode s.cmdr = .ok i ∧ s.pc.txn = some n ∧ (commandOf i).plan[n]? = some (.write f m) ∧
      b = (commandOf i).bankOf s ∧ j = (commandOf i).idxOf s

/-- R107: once NEWO or I2O has written the level, the output register keeps it until the command ends, with neither a device
reset nor another master between. -/
def Obligations.StepKeepsTheLevelSeeded : Prop :=
  ∀ s t : State, Legal s → seededOk s = true → Undisturbed s → step s = .next t → seededOk t = true

/-- R107, R200: a pin's configuration bit goes from input to output only by NEWO or I2O of that pin, and then its output bit
already holds the level of the command. -/
def Obligations.OutputLevelIsProgrammedBeforeDirection : Prop :=
  ∀ (s t : State) (b : Bank) (j : PinIdx), Legal s → freshOk s = true → seededOk s = true → Undisturbed s →
    step s = .next t → hwRole s b j = .input → hwRole t b j = .output →
    ∃ i l, decode s.cmdr = .ok i ∧ seedLevel i = some l ∧ b = (commandOf i).bankOf s ∧
      j = (commandOf i).idxOf s ∧ bit (t.devReg b .out) j = levelBit l

/-- R208: the polarity registers change only by SPOL, a device reset or another master. -/
def Obligations.PolarityChangesOnlyBySpol : Prop :=
  ∀ (s t : State) (b : Bank), s.params.regs.wf → step s = .next t → Undisturbed s →
    t.devReg b .pol ≠ s.devReg b .pol → ∃ h p, decode s.cmdr = .ok (.spol h p) ∧ s.pc = .t1 ∧ b = (s.getX h).bank

/-- R22, R106: a handle register changes only when a command on it ends, or by controller reset. -/
def Obligations.HandleChangesOnlyWhenItsCommandEnds : Prop :=
  ∀ (s t : State) (k : HReg), step s = .next t → t.getX k ≠ s.getX k →
    resetsNext s = true ∨
      (t.rspValid = true ∧ t.pc = .idle ∧ ∃ i, decode t.cmdr = .ok i ∧ i.hreg = k)

/-- R22: the bank and index of a pin object never change while it lives, unless a constructor puts a new object in its
register. -/
def Obligations.BankAndIndexOfAPinNeverChange : Prop :=
  ∀ (s t : State) (k : HReg), step s = .next t → (s.getX k).valid = true → (t.getX k).valid = true →
    ((t.getX k).bank = (s.getX k).bank ∧ (t.getX k).idx = (s.getX k).idx) ∨
      ∃ i, decode t.cmdr = .ok i ∧ isConstructor i = true ∧ i.hreg = k

/-- R152, R195: a pin object comes into being only by NEWI or NEWO on its register completing with OK. -/
def Obligations.PinObjectsComeOnlyFromConstructors : Prop :=
  ∀ (s t : State) (k : HReg), Legal s → step s = .next t → (s.getX k).valid = false → (t.getX k).valid = true →
    ∃ i, decode s.cmdr = .ok i ∧ isConstructor i = true ∧ i.hreg = k ∧ t.rsp = 0x0000 ∧ t.rspValid = true

/-- R33: at the successful end of NEWI, NEWO, I2O and O2I the handle is valid and agrees with the hardware role of its
pin. -/
def Obligations.HandleAgreesAfterTheRoleIsWritten : Prop :=
  ∀ (i : Instr) (s t : State), s.params.regs.wf → s.pc ≠ .idle → exec i s = .next t → t.rspValid = true →
    rspSt t.rsp = Status.ok.code →
    (isConstructor i = true ∨ (∃ h l, i = .i2o h l) ∨ ∃ h, i = .o2i h) →
    (t.getX i.hreg).valid = true ∧ HandleAgrees t i.hreg

/-- R33, R164, R204: what the device's storage registers hold never steers the controller: two states that differ in them
alone give the same position, handles, response and halt flag. So a stale handle is never noticed. -/
def Obligations.DeviceContentNeverSteersTheController : Prop :=
  ∀ (i : Instr) (s t : State) (m : List Host.Cell), exec i s = .next t →
    ∃ t', exec i { s with mem := m } = .next t' ∧ t'.pc = t.pc ∧ t'.x = t.x ∧ t'.rsp = t.rsp ∧
      t'.halt = t.halt ∧ t'.cmdr = t.cmdr ∧ t'.rspValid = t.rspValid ∧ t'.moves = t.moves ∧ t'.draws = t.draws

/-- R25, R26, R27, R112: CMDR changes only when a word is accepted, TMP only by a read that succeeded, RSP only when a response is
presented, `pc` only by an accepted word with a plan and by a transaction, and each by controller reset; the parameters
never change. So neither a wait in `IDLE` (R37) nor a move of another agent moves `pc`. -/
def Obligations.LatchesChangeOnlyAsTheRulesSay : Prop :=
  ∀ s t : State, step s = .next t →
    t.params = s.params ∧
    (t.cmdr ≠ s.cmdr → resetsNext s = true ∨
      ∃ w ms, s.moves = .command w :: ms ∧ s.cmdReady = true ∧ t.cmdr = w) ∧
    (t.tmp ≠ s.tmp → resetsNext s = true ∨ ∃ r smp, t.port = some (.read r) ∧ s.answer = .ok smp) ∧
    (t.rsp ≠ s.rsp → resetsNext s = true ∨ t.rspValid = true) ∧
    (t.pc ≠ s.pc → resetsNext s = true ∨
      (s.pc = .idle ∧ t.pc = .t0 ∧ ∃ w ms i, s.moves = .command w :: ms ∧ s.cmdReady = true ∧ decode w = .ok i ∧
        (commandOf i).plan ≠ []) ∨
      ((s.moves = [] ∨ ∃ a ms, s.moves = .answer a :: ms) ∧ ∃ i n, decode s.cmdr = .ok i ∧ s.pc.txn = some n ∧
        ((t.pc.txn = some (n + 1) ∧ n + 1 < (commandOf i).plan.length ∧ ∃ v, s.answer = .ok v) ∨
          (t.pc = .idle ∧ t.rspValid = true ∧
            ((n + 1 = (commandOf i).plan.length ∧ ∃ v, s.answer = .ok v) ∨ ∃ e landed, s.answer = .err e landed)))))

/-- R28, R166: HALT is set only by NEWI or NEWO with an index above 7 being accepted, which changes no handle and no device
register and answers CONTRACT. -/
def Obligations.HaltIsSetOnlyByAContractViolation : Prop :=
  ∀ s t : State, step s = .next t → s.halt = false → t.halt = true →
    ∃ w ms h b n, s.moves = .command w :: ms ∧ s.pc = .idle ∧ 8 ≤ n ∧
      (decode w = .ok (.newi h b n) ∨ ∃ l, decode w = .ok (.newo h b n l)) ∧
      t.x = s.x ∧ t.mem = s.mem ∧ t.tmp = s.tmp ∧ t.rsp = 0x0004 ∧ t.port = none

/-- R170, R212: a halted controller does nothing until it is reset: no other move changes any of its registers. -/
def Obligations.HaltIsLeftOnlyByReset : Prop :=
  ∀ s t : State, HaltedIdle s → s.halt = true → step s = .next t → resetsNext s = false →
    t.halt = true ∧ t.x = s.x ∧ t.pc = s.pc ∧ t.cmdr = s.cmdr ∧ t.tmp = s.tmp ∧ t.rsp = s.rsp ∧
      t.rspValid = false ∧ t.port = none

/-- R58, R90, R102: while the host and the environment are silent, a command in progress ends within four steps with exactly
one response. Answers no list holds are free (log 3). -/
def Obligations.CommandInProgressEnds : Prop :=
  ∀ s : State, Legal s → OnlyAnswers s → s.pc ≠ .idle →
    ∃ k t, 1 ≤ k ∧ k ≤ 4 ∧ runs k s = .next t ∧ t.pc = .idle ∧ t.rspValid = true ∧ t.halt = s.halt ∧
      ∀ j u, 1 ≤ j → j < k → runs j s = .next u → u.rspValid = false ∧ u.pc ≠ .idle

/-! ## Whole commands -/

/-- S1 of the test vectors, R120: a whole NEWI sets the pin's configuration bit and no other, from any content. -/
def Obligations.NewiConstructsAnInputPin : Prop :=
  ∀ (h : HReg) (b : Bank) (i : PinIdx) (s : State) (v0 v1 : Byte) (ms : List Move), Legal s → s.cmdReady = true →
    s.moves = .command (encode (.newi h b i.val)) :: .answer (.ok v0) :: .answer (.ok v1) :: ms →
    ∃ t, runs 3 s = .next t ∧ t.devReg b .cfg = setbit (s.devReg b .cfg) i ∧
      (∀ b' f', ¬ (b' = b ∧ f' = .cfg) → t.devReg b' f' = s.devReg b' f') ∧
      t.getX h = ⟨true, .input, b, i⟩ ∧ (∀ k, k ≠ h → t.getX k = s.getX k) ∧
      t.rsp = 0x0000 ∧ t.rspValid = true ∧ t.cmdReady = true ∧ t.moves = ms

/-- S1 and S7 of the test vectors, R107, R130: a whole NEWO programs the level and the direction and no other bit, and its
four transactions are on the port in this order: read and write OUT, read and write CFG. -/
def Obligations.NewoConstructsAnOutputPin : Prop :=
  ∀ (h : HReg) (b : Bank) (i : PinIdx) (l : Level) (s : State) (v0 v1 v2 v3 : Byte) (ms : List Move), Legal s →
    s.cmdReady = true →
    s.moves = .command (encode (.newo h b i.val l)) :: .answer (.ok v0) :: .answer (.ok v1) :: .answer (.ok v2) ::
      .answer (.ok v3) :: ms →
    (∃ t, runs 5 s = .next t ∧ t.devReg b .out = putbit (s.devReg b .out) i (levelBit l) ∧
      t.devReg b .cfg = clrbit (s.devReg b .cfg) i ∧
      (∀ b' f', ¬ (b' = b ∧ (f' = .out ∨ f' = .cfg)) → t.devReg b' f' = s.devReg b' f') ∧
      t.getX h = ⟨true, .output, b, i⟩ ∧ (∀ k, k ≠ h → t.getX k = s.getX k) ∧
      t.rsp = 0x0000 ∧ t.rspValid = true ∧ t.cmdReady = true ∧ t.moves = ms) ∧
    (∃ t, runs 1 s = .next t ∧ t.port = none) ∧
    (∃ t, runs 2 s = .next t ∧ t.port = some (.read (regSel s.params b .out))) ∧
    (∃ t, runs 3 s = .next t ∧
      t.port = some (.write (regSel s.params b .out) (putbit (s.devReg b .out) i (levelBit l)))) ∧
    (∃ t, runs 4 s = .next t ∧ t.port = some (.read (regSel s.params b .cfg))) ∧
    (∃ t, runs 5 s = .next t ∧
      t.port = some (.write (regSel s.params b .cfg) (clrbit (s.devReg b .cfg) i)))

/-- S2 of the test vectors, R121, R122, R209: ISHI answers the bit of the byte it read, ISLO the negated bit of the byte it
read; on one and the same byte the two answers are complementary. -/
def Obligations.IshiAndIsloAnswerTheirOwnReads : Prop :=
  ∀ (h : HReg) (s : State) (v w : Byte) (ms : List Move), Legal s → s.cmdReady = true →
    (s.getX h).valid = true → (s.getX h).role = .input →
    s.moves = .command (encode (.ishi h)) :: .answer (.ok v) :: .command (encode (.islo h)) :: .answer (.ok w) :: ms →
    ∃ t u, runs 2 s = .next t ∧ runs 4 s = .next u ∧
      rspSt t.rsp = Status.ok.code ∧ rspVal t.rsp = bit v (s.getX h).idx ∧
      rspSt u.rsp = Status.ok.code ∧ rspVal u.rsp = !bit w (s.getX h).idx ∧
      (v = w → rspVal u.rsp = !rspVal t.rsp) ∧ ∀ r, u.devByte r = s.devByte r

/-- S4 of the test vectors, R123: SPOL Inverse then SPOL Normal leaves the pin's bit Normal and every other bit as it was, so
it restores the register when the bit was Normal. -/
def Obligations.InverseThenNormalRestoresPolarity : Prop :=
  ∀ (h : HReg) (s : State) (v0 v1 v2 v3 : Byte) (ms : List Move), Legal s → s.cmdReady = true →
    (s.getX h).valid = true → (s.getX h).role = .input →
    s.moves = script [(encode (.spol h .inverse), [.ok v0, .ok v1]), (encode (.spol h .normal), [.ok v2, .ok v3])] ++
      ms →
    ∃ t, runs 6 s = .next t ∧
      t.devReg (s.getX h).bank .pol = clrbit (s.devReg (s.getX h).bank .pol) (s.getX h).idx ∧
      (bit (s.devReg (s.getX h).bank .pol) (s.getX h).idx = false → ∀ r, t.devByte r = s.devByte r) ∧
      t.x = s.x ∧ t.rsp = 0x0000 ∧ t.cmdReady = true ∧ t.moves = ms

/-- S3 of the test vectors, R142, R143: input, output High, input again leaves the configuration bit set, the other bits of
the register as they were, the output bit at 1 and the handle an input pin. -/
def Obligations.InputOutputInputRoundTrip : Prop :=
  ∀ (h : HReg) (b : Bank) (i : PinIdx) (s : State) (v0 v1 v2 v3 v4 v5 v6 v7 : Byte) (ms : List Move), Legal s →
    s.cmdReady = true →
    s.moves = script [(encode (.newi h b i.val), [.ok v0, .ok v1]),
      (encode (.i2o h .high), [.ok v2, .ok v3, .ok v4, .ok v5]), (encode (.o2i h), [.ok v6, .ok v7])] ++ ms →
    ∃ t, runs 11 s = .next t ∧ t.devReg b .cfg = setbit (s.devReg b .cfg) i ∧
      t.devReg b .out = setbit (s.devReg b .out) i ∧
      (∀ b' f', ¬ (b' = b ∧ (f' = .out ∨ f' = .cfg)) → t.devReg b' f' = s.devReg b' f') ∧
      t.getX h = ⟨true, .input, b, i⟩ ∧ t.rsp = 0x0000 ∧ t.cmdReady = true ∧ t.moves = ms

/-- R202, R105, R164: whichever transaction of I2O, O2I or O2O fails, after any number of earlier ones that answered `Ok`, the
pin object is lost, no other handle changes, and the next instruction on the register that needs a pin object, of either
role, is refused. -/
def Obligations.FailedTransitionLosesThePin : Prop :=
  ∀ (h : HReg) (i j : Instr) (s : State) (vs : List Byte) (e : DevErr) (landed : Bool) (ms : List Move), Legal s →
    s.cmdReady = true → (s.getX h).valid = true →
    ((s.getX h).role = .input ∧ (∃ l, i = .i2o h l) ∨ (s.getX h).role = .output ∧ (i = .o2i h ∨ ∃ l, i = .o2o h l)) →
    (j = .ishi h ∨ j = .islo h ∨ (∃ p, j = .spol h p) ∨ j = .i2i h ∨ (∃ l, j = .i2o h l) ∨ j = .seth h ∨ j = .setl h ∨
      j = .o2i h ∨ ∃ l, j = .o2o h l) →
    vs.length < (commandOf i).plan.length →
    s.moves = script [(encode i, vs.map .ok ++ [.err e landed]), (encode j, [])] ++ ms →
    (∃ t, runs (vs.length + 2) s = .next t ∧ t.getX h = Handle.empty ∧ (∀ k, k ≠ h → t.getX k = s.getX k) ∧
      t.rsp = rspWord .devErr false (BitVec.ofNat 2 vs.length) e ∧ t.rspValid = true ∧
      (vs = [] → ∀ r, t.devByte r = s.devByte r)) ∧
    (∃ u, runs (vs.length + 3) s = .next u ∧ u.rsp = 0x0002 ∧ u.rspValid = true ∧ u.port = none ∧
      u.getX h = Handle.empty ∧ u.cmdReady = true ∧ u.moves = ms)
end

