-- ==== Sys2Proof/Laws/Bits.lean ====
section
/-! SUPPORT. The bit operations and the fields of the response word, seen bit by bit. -/

namespace Sys2Proof.Machine

/-- The one-hot mask has the pin's bit and no other. -/
theorem bit_oneHot (i j : PinIdx) : bit (oneHot i) j = decide (i = j) := by
  revert i j; decide

@[simp] theorem bit_or (v w : Byte) (i : PinIdx) : bit (v ||| w) i = (bit v i || bit w i) := by
  simp [bit]

theorem bit_setbit (v : Byte) (i j : PinIdx) : bit (setbit v i) j = (bit v j || decide (i = j)) := by
  simp [setbit, bit_oneHot]

theorem bit_clrbit (v : Byte) (i j : PinIdx) : bit (clrbit v i) j = (bit v j && !decide (i = j)) := by
  have h : bit (0xFF#8 ^^^ oneHot i) j = !decide (i = j) := by revert i j; decide
  simp only [bit] at h
  simp only [clrbit, bit, BitVec.getLsbD_and, h]

theorem bit_putbit (v : Byte) (i j : PinIdx) (b : Bool) :
    bit (putbit v i b) j = if i = j then b else bit v j := by
  cases b <;> by_cases h : i = j <;> simp [putbit, bit_setbit, bit_clrbit, h]

/-- Two bytes with the same eight bits are equal. -/
theorem eq_of_bit_eq {v w : Byte} (h : ∀ j, bit v j = bit w j) : v = w :=
  BitVec.eq_of_getLsbD_eq fun j hj => h ⟨j, hj⟩

@[simp] theorem rspSt_rspWord (st : Status) (val : Bool) (n : BitVec 2) (e : DevErr) :
    rspSt (rspWord st val n e) = st.code := by
  apply BitVec.eq_of_getLsbD_eq
  intro j hj
  simp only [rspSt, rspWord, BitVec.getLsbD_extractLsb', BitVec.getLsbD_append]
  simp [hj]

@[simp] theorem rspVal_rspWord (st : Status) (val : Bool) (n : BitVec 2) (e : DevErr) :
    rspVal (rspWord st val n e) = val := by
  simp only [rspVal, rspWord, BitVec.getLsbD_append]
  simp

@[simp] theorem rspTxn_rspWord (st : Status) (val : Bool) (n : BitVec 2) (e : DevErr) :
    rspTxn (rspWord st val n e) = n := by
  apply BitVec.eq_of_getLsbD_eq
  intro j hj
  simp only [rspTxn, rspWord, BitVec.getLsbD_extractLsb', BitVec.getLsbD_append]
  interval_cases j <;> simp

@[simp] theorem rspErr_rspWord (st : Status) (val : Bool) (n : BitVec 2) (e : DevErr) :
    rspErr (rspWord st val n e) = e := by
  apply BitVec.eq_of_getLsbD_eq
  intro j hj
  simp only [rspErr, rspWord, BitVec.getLsbD_extractLsb', BitVec.getLsbD_append]
  interval_cases j <;> simp

/-- The response words of the test vectors "at a glance" (95_test_vectors.md). -/
theorem rspWord_ok (val : Bool) : rspWord .ok val 0 0 = if val then 0x0010 else 0x0000 := by
  cases val <;> rfl

theorem rspWord_badHandle : rspWord .badHandle false 0 0 = 0x0002 := rfl

theorem rspWord_illegal : rspWord .illegal false 0 0 = 0x0003 := rfl

theorem rspWord_contract : rspWord .contract false 0 0 = 0x0004 := rfl

/-- Bit 7 of a response word is always 0 (R90). -/
theorem bit7_rspWord (st : Status) (val : Bool) (n : BitVec 2) (e : DevErr) :
    (rspWord st val n e).getLsbD 7 = false := by
  simp only [rspWord, BitVec.getLsbD_append]
  simp

end Sys2Proof.Machine
end

