-- ==== Sys2Proof/Laws/Commands.lean ====
section
/-! SUPPORT. The row of R23 and R102 of every instruction, one lemma a column, true by definition. -/

namespace Sys2Proof.Machine

@[simp] theorem newi_hreg (h : HReg) (b : Bank) (k : Nat) : (Instr.newi h b k).hreg = h := rfl
@[simp] theorem newi_needs (h : HReg) (b : Bank) (k : Nat) : (commandOf (.newi h b k)).needs = none := rfl
@[simp] theorem newi_pin (h : HReg) (b : Bank) (k : Nat) : (commandOf (.newi h b k)).pin = some (b, k) := rfl
@[simp] theorem newi_plan (h : HReg) (b : Bank) (k : Nat) :
    (commandOf (.newi h b k)).plan = [.read .cfg, .write .cfg .set] := rfl
@[simp] theorem newi_onOk (h : HReg) (b : Bank) (k : Nat) : (commandOf (.newi h b k)).onOk = .put .input := rfl
@[simp] theorem newi_onErr (h : HReg) (b : Bank) (k : Nat) : (commandOf (.newi h b k)).onErr = .keep := rfl
@[simp] theorem newi_result (h : HReg) (b : Bank) (k : Nat) : (commandOf (.newi h b k)).result = .zero := rfl

@[simp] theorem ishi_hreg (h : HReg) : (Instr.ishi h).hreg = h := rfl
@[simp] theorem ishi_needs (h : HReg) : (commandOf (.ishi h)).needs = some .input := rfl
@[simp] theorem ishi_pin (h : HReg) : (commandOf (.ishi h)).pin = none := rfl
@[simp] theorem ishi_plan (h : HReg) : (commandOf (.ishi h)).plan = [.read .inp] := rfl
@[simp] theorem ishi_onOk (h : HReg) : (commandOf (.ishi h)).onOk = .keep := rfl
@[simp] theorem ishi_onErr (h : HReg) : (commandOf (.ishi h)).onErr = .keep := rfl
@[simp] theorem ishi_result (h : HReg) : (commandOf (.ishi h)).result = .level := rfl

@[simp] theorem islo_hreg (h : HReg) : (Instr.islo h).hreg = h := rfl
@[simp] theorem islo_needs (h : HReg) : (commandOf (.islo h)).needs = some .input := rfl
@[simp] theorem islo_pin (h : HReg) : (commandOf (.islo h)).pin = none := rfl
@[simp] theorem islo_plan (h : HReg) : (commandOf (.islo h)).plan = [.read .inp] := rfl
@[simp] theorem islo_onOk (h : HReg) : (commandOf (.islo h)).onOk = .keep := rfl
@[simp] theorem islo_onErr (h : HReg) : (commandOf (.islo h)).onErr = .keep := rfl
@[simp] theorem islo_result (h : HReg) : (commandOf (.islo h)).result = .notLevel := rfl

@[simp] theorem spol_hreg (h : HReg) (p : Polarity) : (Instr.spol h p).hreg = h := rfl
@[simp] theorem spol_needs (h : HReg) (p : Polarity) : (commandOf (.spol h p)).needs = some .input := rfl
@[simp] theorem spol_pin (h : HReg) (p : Polarity) : (commandOf (.spol h p)).pin = none := rfl
@[simp] theorem spol_plan (h : HReg) (p : Polarity) :
    (commandOf (.spol h p)).plan = [.read .pol, .write .pol (.put (polarityBit p))] := rfl
@[simp] theorem spol_onOk (h : HReg) (p : Polarity) : (commandOf (.spol h p)).onOk = .keep := rfl
@[simp] theorem spol_onErr (h : HReg) (p : Polarity) : (commandOf (.spol h p)).onErr = .keep := rfl
@[simp] theorem spol_result (h : HReg) (p : Polarity) : (commandOf (.spol h p)).result = .zero := rfl

@[simp] theorem i2i_hreg (h : HReg) : (Instr.i2i h).hreg = h := rfl
@[simp] theorem i2i_needs (h : HReg) : (commandOf (.i2i h)).needs = some .input := rfl
@[simp] theorem i2i_pin (h : HReg) : (commandOf (.i2i h)).pin = none := rfl
@[simp] theorem i2i_plan (h : HReg) : (commandOf (.i2i h)).plan = [] := rfl
@[simp] theorem i2i_onOk (h : HReg) : (commandOf (.i2i h)).onOk = .keep := rfl
@[simp] theorem i2i_onErr (h : HReg) : (commandOf (.i2i h)).onErr = .keep := rfl
@[simp] theorem i2i_result (h : HReg) : (commandOf (.i2i h)).result = .zero := rfl

@[simp] theorem i2o_hreg (h : HReg) (l : Level) : (Instr.i2o h l).hreg = h := rfl
@[simp] theorem i2o_needs (h : HReg) (l : Level) : (commandOf (.i2o h l)).needs = some .input := rfl
@[simp] theorem i2o_pin (h : HReg) (l : Level) : (commandOf (.i2o h l)).pin = none := rfl
@[simp] theorem i2o_plan (h : HReg) (l : Level) :
    (commandOf (.i2o h l)).plan = [.read .out, .write .out (.put (levelBit l)), .read .cfg, .write .cfg .clear] := rfl
@[simp] theorem i2o_onOk (h : HReg) (l : Level) : (commandOf (.i2o h l)).onOk = .put .output := rfl
@[simp] theorem i2o_onErr (h : HReg) (l : Level) : (commandOf (.i2o h l)).onErr = .clear := rfl
@[simp] theorem i2o_result (h : HReg) (l : Level) : (commandOf (.i2o h l)).result = .zero := rfl

@[simp] theorem newo_hreg (h : HReg) (b : Bank) (k : Nat) (l : Level) : (Instr.newo h b k l).hreg = h := rfl
@[simp] theorem newo_needs (h : HReg) (b : Bank) (k : Nat) (l : Level) : (commandOf (.newo h b k l)).needs = none := rfl
@[simp] theorem newo_pin (h : HReg) (b : Bank) (k : Nat) (l : Level) :
    (commandOf (.newo h b k l)).pin = some (b, k) := rfl
@[simp] theorem newo_plan (h : HReg) (b : Bank) (k : Nat) (l : Level) :
    (commandOf (.newo h b k l)).plan = [.read .out, .write .out (.put (levelBit l)), .read .cfg, .write .cfg .clear] := rfl
@[simp] theorem newo_onOk (h : HReg) (b : Bank) (k : Nat) (l : Level) :
    (commandOf (.newo h b k l)).onOk = .put .output := rfl
@[simp] theorem newo_onErr (h : HReg) (b : Bank) (k : Nat) (l : Level) :
    (commandOf (.newo h b k l)).onErr = .keep := rfl
@[simp] theorem newo_result (h : HReg) (b : Bank) (k : Nat) (l : Level) :
    (commandOf (.newo h b k l)).result = .zero := rfl

@[simp] theorem seth_hreg (h : HReg) : (Instr.seth h).hreg = h := rfl
@[simp] theorem seth_needs (h : HReg) : (commandOf (.seth h)).needs = some .output := rfl
@[simp] theorem seth_pin (h : HReg) : (commandOf (.seth h)).pin = none := rfl
@[simp] theorem seth_plan (h : HReg) : (commandOf (.seth h)).plan = [.read .out, .write .out .set] := rfl
@[simp] theorem seth_onOk (h : HReg) : (commandOf (.seth h)).onOk = .keep := rfl
@[simp] theorem seth_onErr (h : HReg) : (commandOf (.seth h)).onErr = .keep := rfl
@[simp] theorem seth_result (h : HReg) : (commandOf (.seth h)).result = .zero := rfl

@[simp] theorem setl_hreg (h : HReg) : (Instr.setl h).hreg = h := rfl
@[simp] theorem setl_needs (h : HReg) : (commandOf (.setl h)).needs = some .output := rfl
@[simp] theorem setl_pin (h : HReg) : (commandOf (.setl h)).pin = none := rfl
@[simp] theorem setl_plan (h : HReg) : (commandOf (.setl h)).plan = [.read .out, .write .out .clear] := rfl
@[simp] theorem setl_onOk (h : HReg) : (commandOf (.setl h)).onOk = .keep := rfl
@[simp] theorem setl_onErr (h : HReg) : (commandOf (.setl h)).onErr = .keep := rfl
@[simp] theorem setl_result (h : HReg) : (commandOf (.setl h)).result = .zero := rfl

@[simp] theorem o2i_hreg (h : HReg) : (Instr.o2i h).hreg = h := rfl
@[simp] theorem o2i_needs (h : HReg) : (commandOf (.o2i h)).needs = some .output := rfl
@[simp] theorem o2i_pin (h : HReg) : (commandOf (.o2i h)).pin = none := rfl
@[simp] theorem o2i_plan (h : HReg) : (commandOf (.o2i h)).plan = [.read .cfg, .write .cfg .set] := rfl
@[simp] theorem o2i_onOk (h : HReg) : (commandOf (.o2i h)).onOk = .put .input := rfl
@[simp] theorem o2i_onErr (h : HReg) : (commandOf (.o2i h)).onErr = .clear := rfl
@[simp] theorem o2i_result (h : HReg) : (commandOf (.o2i h)).result = .zero := rfl

@[simp] theorem o2o_hreg (h : HReg) (l : Level) : (Instr.o2o h l).hreg = h := rfl
@[simp] theorem o2o_needs (h : HReg) (l : Level) : (commandOf (.o2o h l)).needs = some .output := rfl
@[simp] theorem o2o_pin (h : HReg) (l : Level) : (commandOf (.o2o h l)).pin = none := rfl
@[simp] theorem o2o_plan (h : HReg) (l : Level) :
    (commandOf (.o2o h l)).plan = [.read .out, .write .out (.put (levelBit l))] := rfl
@[simp] theorem o2o_onOk (h : HReg) (l : Level) : (commandOf (.o2o h l)).onOk = .put .output := rfl
@[simp] theorem o2o_onErr (h : HReg) (l : Level) : (commandOf (.o2o h l)).onErr = .clear := rfl
@[simp] theorem o2o_result (h : HReg) (l : Level) : (commandOf (.o2o h l)).result = .zero := rfl

@[simp] theorem drop_hreg (h : HReg) : (Instr.drop h).hreg = h := rfl
@[simp] theorem drop_needs (h : HReg) : (commandOf (.drop h)).needs = none := rfl
@[simp] theorem drop_pin (h : HReg) : (commandOf (.drop h)).pin = none := rfl
@[simp] theorem drop_plan (h : HReg) : (commandOf (.drop h)).plan = [] := rfl
@[simp] theorem drop_onOk (h : HReg) : (commandOf (.drop h)).onOk = .clear := rfl
@[simp] theorem drop_onErr (h : HReg) : (commandOf (.drop h)).onErr = .clear := rfl
@[simp] theorem drop_result (h : HReg) : (commandOf (.drop h)).result = .zero := rfl

/-- No plan has more than four transactions (R102). -/
theorem plan_length_le (i : Instr) : (commandOf i).plan.length ≤ 4 := by
  cases i <;> simp

/-- No plan writes an input register (R57, R102). -/
theorem write_ne_inp {i : Instr} {n : Nat} {f : Fn} {m : BitMod}
    (h : (commandOf i).plan[n]? = some (.write f m)) : f ≠ .inp := by
  have hm := List.mem_of_getElem? h
  rintro rfl
  cases i <;> simp at hm

end Sys2Proof.Machine
end

