-- ==== Sys2Proof/Laws/Decode.lean ====
section
/-! SUPPORT. The fields of a command word and the rows of the opcode map in terms of them (R81, R84). -/

namespace Sys2Proof

/-! ## A word is its fields -/

section
variable (op : BitVec 4) (h : HReg) (bank arg : BitVec 1) (idx : BitVec 4)

@[simp] theorem opField_packWord : opField (packWord op h bank arg idx) = op := by
  apply BitVec.eq_of_getLsbD_eq
  intro j hj
  simp only [opField, packWord, BitVec.getLsbD_extractLsb', BitVec.getLsbD_append]
  interval_cases j <;> simp

@[simp] theorem hField_packWord : hField (packWord op h bank arg idx) = h := by
  have : (packWord op h bank arg idx).extractLsb' 8 4 = (BitVec.ofFin h : BitVec 4) := by
    apply BitVec.eq_of_getLsbD_eq
    intro j hj
    simp only [packWord, BitVec.getLsbD_extractLsb', BitVec.getLsbD_append]
    interval_cases j <;> simp
  simp only [hField, this]

@[simp] theorem bankField_packWord : bankField (packWord op h bank arg idx) = bank := by
  apply BitVec.eq_of_getLsbD_eq
  intro j hj
  simp only [bankField, packWord, BitVec.getLsbD_extractLsb', BitVec.getLsbD_append]
  interval_cases j; simp

@[simp] theorem argField_packWord : argField (packWord op h bank arg idx) = arg := by
  apply BitVec.eq_of_getLsbD_eq
  intro j hj
  simp only [argField, packWord, BitVec.getLsbD_extractLsb', BitVec.getLsbD_append]
  interval_cases j; simp

@[simp] theorem zField_packWord : zField (packWord op h bank arg idx) = 0 := by
  apply BitVec.eq_of_getLsbD_eq
  intro j hj
  simp only [zField, packWord, BitVec.getLsbD_extractLsb', BitVec.getLsbD_append]
  interval_cases j <;> simp

@[simp] theorem idxField_packWord : idxField (packWord op h bank arg idx) = idx := by
  apply BitVec.eq_of_getLsbD_eq
  intro j hj
  simp only [idxField, packWord, BitVec.getLsbD_extractLsb', BitVec.getLsbD_append]
  interval_cases j <;> simp

end

/-- The handle number is the four bits of the field `h`. -/
theorem ofFin_hField (w : Word) : (BitVec.ofFin (hField w) : BitVec 4) = w.extractLsb' 8 4 := rfl

/-- A word whose reserved field is 0 is put together from its own fields. -/
theorem packWord_fields (w : Word) (hz : zField w = 0) :
    packWord (opField w) (hField w) (bankField w) (argField w) (idxField w) = w := by
  have h4 := congrArg (fun v : BitVec 2 => v.getLsbD 0) hz
  have h5 := congrArg (fun v : BitVec 2 => v.getLsbD 1) hz
  simp [zField] at h4 h5
  apply BitVec.eq_of_getLsbD_eq
  intro j hj
  simp only [packWord, ofFin_hField, opField, bankField, argField, idxField, BitVec.getLsbD_append,
    BitVec.getLsbD_extractLsb']
  interval_cases j <;> simp [h4, h5]

/-! ## The masks in terms of the fields -/

/-- Two words are equal when their fields are. -/
theorem eq_of_fields {v w : Word} (ho : opField v = opField w) (hh : hField v = hField w)
    (hb : bankField v = bankField w) (ha : argField v = argField w) (hz : zField v = zField w)
    (hi : idxField v = idxField w) : v = w := by
  have hh' : v.extractLsb' 8 4 = w.extractLsb' 8 4 := by
    rw [← ofFin_hField v, ← ofFin_hField w, hh]
  have key : ∀ (x : Word), x = x.extractLsb' 12 4 ++ x.extractLsb' 8 4 ++ x.extractLsb' 7 1 ++
      x.extractLsb' 6 1 ++ x.extractLsb' 4 2 ++ x.extractLsb' 0 4 := by
    intro x
    apply BitVec.eq_of_getLsbD_eq
    intro j hj
    simp only [BitVec.getLsbD_append, BitVec.getLsbD_extractLsb']
    interval_cases j <;> simp
  rw [key v, key w]
  simp only [opField, bankField, argField, zField, idxField] at *
  rw [ho, hh', hb, ha, hz, hi]

/-- Masking acts on each field by itself. -/
theorem opField_and (v w : Word) : opField (v &&& w) = opField v &&& opField w := by
  simp [opField, BitVec.extractLsb'_and]

theorem hField_and (v w : Word) :
    hField (v &&& w) = (BitVec.ofFin (hField v) &&& BitVec.ofFin (hField w) : BitVec 4).toFin := by
  simp [hField, BitVec.extractLsb'_and]

theorem bankField_and (v w : Word) : bankField (v &&& w) = bankField v &&& bankField w := by
  simp [bankField, BitVec.extractLsb'_and]

theorem argField_and (v w : Word) : argField (v &&& w) = argField v &&& argField w := by
  simp [argField, BitVec.extractLsb'_and]

theorem zField_and (v w : Word) : zField (v &&& w) = zField v &&& zField w := by
  simp [zField, BitVec.extractLsb'_and]

theorem idxField_and (v w : Word) : idxField (v &&& w) = idxField v &&& idxField w := by
  simp [idxField, BitVec.extractLsb'_and]

/-- Equality of a masked word with a pattern, field by field. -/
theorem and_eq_iff_fields (w m p : Word) : w &&& m = p ↔
    opField w &&& opField m = opField p ∧ hField (w &&& m) = hField p ∧
    bankField w &&& bankField m = bankField p ∧ argField w &&& argField m = argField p ∧
    zField w &&& zField m = zField p ∧ idxField w &&& idxField m = idxField p := by
  constructor
  · rintro rfl
    simp [opField_and, bankField_and, argField_and, zField_and, idxField_and]
  · rintro ⟨ho, hh, hb, ha, hz, hi⟩
    exact eq_of_fields (by rw [opField_and, ho]) hh (by rw [bankField_and, hb]) (by rw [argField_and, ha])
      (by rw [zField_and, hz]) (by rw [idxField_and, hi])

theorem and_allOnes4 (v : BitVec 4) : v &&& 15#4 = v := by revert v; decide
theorem and_allOnes1 (v : BitVec 1) : v &&& 1#1 = v := by revert v; decide
theorem and_allOnes2 (v : BitVec 2) : v &&& 3#2 = v := by revert v; decide

end Sys2Proof
end

