-- ==== Sys2Proof/Laws/State.lean ====
section
/-! SUPPORT. What each update of the state leaves in each field, true by definition. -/

namespace Sys2Proof.Machine

/-! ## State.quiet -/

@[simp] theorem State.quiet_x (s : State) : (s.quiet).x = s.x := rfl
@[simp] theorem State.quiet_pc (s : State) : (s.quiet).pc = s.pc := rfl
@[simp] theorem State.quiet_cmdr (s : State) : (s.quiet).cmdr = s.cmdr := rfl
@[simp] theorem State.quiet_tmp (s : State) : (s.quiet).tmp = s.tmp := rfl
@[simp] theorem State.quiet_rsp (s : State) : (s.quiet).rsp = s.rsp := rfl
@[simp] theorem State.quiet_halt (s : State) : (s.quiet).halt = s.halt := rfl
@[simp] theorem State.quiet_mem (s : State) : (s.quiet).mem = s.mem := rfl
@[simp] theorem State.quiet_rspValid (s : State) : (s.quiet).rspValid = false := rfl
@[simp] theorem State.quiet_port (s : State) : (s.quiet).port = none := rfl
@[simp] theorem State.quiet_moves (s : State) : (s.quiet).moves = s.moves := rfl
@[simp] theorem State.quiet_draws (s : State) : (s.quiet).draws = s.draws := rfl
@[simp] theorem State.quiet_params (s : State) : (s.quiet).params = s.params := rfl
@[simp] theorem State.quiet_getX (s : State) (j : HReg) : (s.quiet).getX j = s.getX j := rfl
@[simp] theorem State.quiet_devByte (s : State) (a : RegisterId) : (s.quiet).devByte a = s.devByte a := rfl
@[simp] theorem State.quiet_devReg (s : State) (b : Bank) (f : Fn) : (s.quiet).devReg b f = s.devReg b f := rfl

/-! ## State.setX -/

@[simp] theorem State.setX_x (s : State) (k : HReg) (h : Handle) : (s.setX k h).x = s.x.set k.val h k.isLt := rfl
@[simp] theorem State.setX_pc (s : State) (k : HReg) (h : Handle) : (s.setX k h).pc = s.pc := rfl
@[simp] theorem State.setX_cmdr (s : State) (k : HReg) (h : Handle) : (s.setX k h).cmdr = s.cmdr := rfl
@[simp] theorem State.setX_tmp (s : State) (k : HReg) (h : Handle) : (s.setX k h).tmp = s.tmp := rfl
@[simp] theorem State.setX_rsp (s : State) (k : HReg) (h : Handle) : (s.setX k h).rsp = s.rsp := rfl
@[simp] theorem State.setX_halt (s : State) (k : HReg) (h : Handle) : (s.setX k h).halt = s.halt := rfl
@[simp] theorem State.setX_mem (s : State) (k : HReg) (h : Handle) : (s.setX k h).mem = s.mem := rfl
@[simp] theorem State.setX_rspValid (s : State) (k : HReg) (h : Handle) : (s.setX k h).rspValid = s.rspValid := rfl
@[simp] theorem State.setX_port (s : State) (k : HReg) (h : Handle) : (s.setX k h).port = s.port := rfl
@[simp] theorem State.setX_moves (s : State) (k : HReg) (h : Handle) : (s.setX k h).moves = s.moves := rfl
@[simp] theorem State.setX_draws (s : State) (k : HReg) (h : Handle) : (s.setX k h).draws = s.draws := rfl
@[simp] theorem State.setX_params (s : State) (k : HReg) (h : Handle) : (s.setX k h).params = s.params := rfl
@[simp] theorem State.setX_devByte (s : State) (k : HReg) (h : Handle) (a : RegisterId) : (s.setX k h).devByte a = s.devByte a := rfl
@[simp] theorem State.setX_devReg (s : State) (k : HReg) (h : Handle) (b : Bank) (f : Fn) : (s.setX k h).devReg b f = s.devReg b f := rfl

/-! ## State.setPc -/

@[simp] theorem State.setPc_x (s : State) (p : SeqPos) : (s.setPc p).x = s.x := rfl
@[simp] theorem State.setPc_pc (s : State) (p : SeqPos) : (s.setPc p).pc = p := rfl
@[simp] theorem State.setPc_cmdr (s : State) (p : SeqPos) : (s.setPc p).cmdr = s.cmdr := rfl
@[simp] theorem State.setPc_tmp (s : State) (p : SeqPos) : (s.setPc p).tmp = s.tmp := rfl
@[simp] theorem State.setPc_rsp (s : State) (p : SeqPos) : (s.setPc p).rsp = s.rsp := rfl
@[simp] theorem State.setPc_halt (s : State) (p : SeqPos) : (s.setPc p).halt = s.halt := rfl
@[simp] theorem State.setPc_mem (s : State) (p : SeqPos) : (s.setPc p).mem = s.mem := rfl
@[simp] theorem State.setPc_rspValid (s : State) (p : SeqPos) : (s.setPc p).rspValid = s.rspValid := rfl
@[simp] theorem State.setPc_port (s : State) (p : SeqPos) : (s.setPc p).port = s.port := rfl
@[simp] theorem State.setPc_moves (s : State) (p : SeqPos) : (s.setPc p).moves = s.moves := rfl
@[simp] theorem State.setPc_draws (s : State) (p : SeqPos) : (s.setPc p).draws = s.draws := rfl
@[simp] theorem State.setPc_params (s : State) (p : SeqPos) : (s.setPc p).params = s.params := rfl
@[simp] theorem State.setPc_getX (s : State) (p : SeqPos) (j : HReg) : (s.setPc p).getX j = s.getX j := rfl
@[simp] theorem State.setPc_devByte (s : State) (p : SeqPos) (a : RegisterId) : (s.setPc p).devByte a = s.devByte a := rfl
@[simp] theorem State.setPc_devReg (s : State) (p : SeqPos) (b : Bank) (f : Fn) : (s.setPc p).devReg b f = s.devReg b f := rfl

/-! ## State.setTmp -/

@[simp] theorem State.setTmp_x (s : State) (v : Byte) : (s.setTmp v).x = s.x := rfl
@[simp] theorem State.setTmp_pc (s : State) (v : Byte) : (s.setTmp v).pc = s.pc := rfl
@[simp] theorem State.setTmp_cmdr (s : State) (v : Byte) : (s.setTmp v).cmdr = s.cmdr := rfl
@[simp] theorem State.setTmp_tmp (s : State) (v : Byte) : (s.setTmp v).tmp = v := rfl
@[simp] theorem State.setTmp_rsp (s : State) (v : Byte) : (s.setTmp v).rsp = s.rsp := rfl
@[simp] theorem State.setTmp_halt (s : State) (v : Byte) : (s.setTmp v).halt = s.halt := rfl
@[simp] theorem State.setTmp_mem (s : State) (v : Byte) : (s.setTmp v).mem = s.mem := rfl
@[simp] theorem State.setTmp_rspValid (s : State) (v : Byte) : (s.setTmp v).rspValid = s.rspValid := rfl
@[simp] theorem State.setTmp_port (s : State) (v : Byte) : (s.setTmp v).port = s.port := rfl
@[simp] theorem State.setTmp_moves (s : State) (v : Byte) : (s.setTmp v).moves = s.moves := rfl
@[simp] theorem State.setTmp_draws (s : State) (v : Byte) : (s.setTmp v).draws = s.draws := rfl
@[simp] theorem State.setTmp_params (s : State) (v : Byte) : (s.setTmp v).params = s.params := rfl
@[simp] theorem State.setTmp_getX (s : State) (v : Byte) (j : HReg) : (s.setTmp v).getX j = s.getX j := rfl
@[simp] theorem State.setTmp_devByte (s : State) (v : Byte) (a : RegisterId) : (s.setTmp v).devByte a = s.devByte a := rfl
@[simp] theorem State.setTmp_devReg (s : State) (v : Byte) (b : Bank) (f : Fn) : (s.setTmp v).devReg b f = s.devReg b f := rfl

/-! ## State.latch -/

@[simp] theorem State.latch_x (s : State) (w : Word) : (s.latch w).x = s.x := rfl
@[simp] theorem State.latch_pc (s : State) (w : Word) : (s.latch w).pc = s.pc := rfl
@[simp] theorem State.latch_cmdr (s : State) (w : Word) : (s.latch w).cmdr = w := rfl
@[simp] theorem State.latch_tmp (s : State) (w : Word) : (s.latch w).tmp = s.tmp := rfl
@[simp] theorem State.latch_rsp (s : State) (w : Word) : (s.latch w).rsp = s.rsp := rfl
@[simp] theorem State.latch_halt (s : State) (w : Word) : (s.latch w).halt = s.halt := rfl
@[simp] theorem State.latch_mem (s : State) (w : Word) : (s.latch w).mem = s.mem := rfl
@[simp] theorem State.latch_rspValid (s : State) (w : Word) : (s.latch w).rspValid = s.rspValid := rfl
@[simp] theorem State.latch_port (s : State) (w : Word) : (s.latch w).port = s.port := rfl
@[simp] theorem State.latch_moves (s : State) (w : Word) : (s.latch w).moves = s.moves := rfl
@[simp] theorem State.latch_draws (s : State) (w : Word) : (s.latch w).draws = s.draws := rfl
@[simp] theorem State.latch_params (s : State) (w : Word) : (s.latch w).params = s.params := rfl
@[simp] theorem State.latch_getX (s : State) (w : Word) (j : HReg) : (s.latch w).getX j = s.getX j := rfl
@[simp] theorem State.latch_devByte (s : State) (w : Word) (a : RegisterId) : (s.latch w).devByte a = s.devByte a := rfl
@[simp] theorem State.latch_devReg (s : State) (w : Word) (b : Bank) (f : Fn) : (s.latch w).devReg b f = s.devReg b f := rfl

/-! ## State.withMoves -/

@[simp] theorem State.withMoves_x (s : State) (ms : List Move) : (s.withMoves ms).x = s.x := rfl
@[simp] theorem State.withMoves_pc (s : State) (ms : List Move) : (s.withMoves ms).pc = s.pc := rfl
@[simp] theorem State.withMoves_cmdr (s : State) (ms : List Move) : (s.withMoves ms).cmdr = s.cmdr := rfl
@[simp] theorem State.withMoves_tmp (s : State) (ms : List Move) : (s.withMoves ms).tmp = s.tmp := rfl
@[simp] theorem State.withMoves_rsp (s : State) (ms : List Move) : (s.withMoves ms).rsp = s.rsp := rfl
@[simp] theorem State.withMoves_halt (s : State) (ms : List Move) : (s.withMoves ms).halt = s.halt := rfl
@[simp] theorem State.withMoves_mem (s : State) (ms : List Move) : (s.withMoves ms).mem = s.mem := rfl
@[simp] theorem State.withMoves_rspValid (s : State) (ms : List Move) : (s.withMoves ms).rspValid = s.rspValid := rfl
@[simp] theorem State.withMoves_port (s : State) (ms : List Move) : (s.withMoves ms).port = s.port := rfl
@[simp] theorem State.withMoves_moves (s : State) (ms : List Move) : (s.withMoves ms).moves = ms := rfl
@[simp] theorem State.withMoves_draws (s : State) (ms : List Move) : (s.withMoves ms).draws = s.draws := rfl
@[simp] theorem State.withMoves_params (s : State) (ms : List Move) : (s.withMoves ms).params = s.params := rfl
@[simp] theorem State.withMoves_getX (s : State) (ms : List Move) (j : HReg) : (s.withMoves ms).getX j = s.getX j := rfl
@[simp] theorem State.withMoves_devByte (s : State) (ms : List Move) (a : RegisterId) : (s.withMoves ms).devByte a = s.devByte a := rfl
@[simp] theorem State.withMoves_devReg (s : State) (ms : List Move) (b : Bank) (f : Fn) : (s.withMoves ms).devReg b f = s.devReg b f := rfl

/-! ## State.present -/

@[simp] theorem State.present_x (s : State) (t : Txn) : (s.present t).x = s.x := rfl
@[simp] theorem State.present_pc (s : State) (t : Txn) : (s.present t).pc = s.pc := rfl
@[simp] theorem State.present_cmdr (s : State) (t : Txn) : (s.present t).cmdr = s.cmdr := rfl
@[simp] theorem State.present_tmp (s : State) (t : Txn) : (s.present t).tmp = s.tmp := rfl
@[simp] theorem State.present_rsp (s : State) (t : Txn) : (s.present t).rsp = s.rsp := rfl
@[simp] theorem State.present_halt (s : State) (t : Txn) : (s.present t).halt = s.halt := rfl
@[simp] theorem State.present_mem (s : State) (t : Txn) : (s.present t).mem = s.mem := rfl
@[simp] theorem State.present_rspValid (s : State) (t : Txn) : (s.present t).rspValid = s.rspValid := rfl
@[simp] theorem State.present_port (s : State) (t : Txn) : (s.present t).port = some t := rfl
@[simp] theorem State.present_moves (s : State) (t : Txn) : (s.present t).moves = s.moves := rfl
@[simp] theorem State.present_draws (s : State) (t : Txn) : (s.present t).draws = s.draws := rfl
@[simp] theorem State.present_params (s : State) (t : Txn) : (s.present t).params = s.params := rfl
@[simp] theorem State.present_getX (s : State) (t : Txn) (j : HReg) : (s.present t).getX j = s.getX j := rfl
@[simp] theorem State.present_devByte (s : State) (t : Txn) (a : RegisterId) : (s.present t).devByte a = s.devByte a := rfl
@[simp] theorem State.present_devReg (s : State) (t : Txn) (b : Bank) (f : Fn) : (s.present t).devReg b f = s.devReg b f := rfl

/-! ## State.afterAnswer -/

@[simp] theorem State.afterAnswer_x (s : State) : (s.afterAnswer).x = s.x := rfl
@[simp] theorem State.afterAnswer_pc (s : State) : (s.afterAnswer).pc = s.pc := rfl
@[simp] theorem State.afterAnswer_cmdr (s : State) : (s.afterAnswer).cmdr = s.cmdr := rfl
@[simp] theorem State.afterAnswer_tmp (s : State) : (s.afterAnswer).tmp = s.tmp := rfl
@[simp] theorem State.afterAnswer_rsp (s : State) : (s.afterAnswer).rsp = s.rsp := rfl
@[simp] theorem State.afterAnswer_halt (s : State) : (s.afterAnswer).halt = s.halt := rfl
@[simp] theorem State.afterAnswer_mem (s : State) : (s.afterAnswer).mem = s.mem := rfl
@[simp] theorem State.afterAnswer_rspValid (s : State) : (s.afterAnswer).rspValid = s.rspValid := rfl
@[simp] theorem State.afterAnswer_port (s : State) : (s.afterAnswer).port = s.port := rfl
@[simp] theorem State.afterAnswer_moves (s : State) : (s.afterAnswer).moves = movesAfterAnswer s.moves := rfl
@[simp] theorem State.afterAnswer_draws (s : State) : (s.afterAnswer).draws = drawsAfterAnswer s.moves s.draws := rfl
@[simp] theorem State.afterAnswer_params (s : State) : (s.afterAnswer).params = s.params := rfl
@[simp] theorem State.afterAnswer_getX (s : State) (j : HReg) : (s.afterAnswer).getX j = s.getX j := rfl
@[simp] theorem State.afterAnswer_devByte (s : State) (a : RegisterId) : (s.afterAnswer).devByte a = s.devByte a := rfl
@[simp] theorem State.afterAnswer_devReg (s : State) (b : Bank) (f : Fn) : (s.afterAnswer).devReg b f = s.devReg b f := rfl

/-! ## State.setDev -/

@[simp] theorem State.setDev_x (s : State) (r : RegisterId) (v : Byte) : (s.setDev r v).x = s.x := rfl
@[simp] theorem State.setDev_pc (s : State) (r : RegisterId) (v : Byte) : (s.setDev r v).pc = s.pc := rfl
@[simp] theorem State.setDev_cmdr (s : State) (r : RegisterId) (v : Byte) : (s.setDev r v).cmdr = s.cmdr := rfl
@[simp] theorem State.setDev_tmp (s : State) (r : RegisterId) (v : Byte) : (s.setDev r v).tmp = s.tmp := rfl
@[simp] theorem State.setDev_rsp (s : State) (r : RegisterId) (v : Byte) : (s.setDev r v).rsp = s.rsp := rfl
@[simp] theorem State.setDev_halt (s : State) (r : RegisterId) (v : Byte) : (s.setDev r v).halt = s.halt := rfl
@[simp] theorem State.setDev_mem (s : State) (r : RegisterId) (v : Byte) : (s.setDev r v).mem = Memory.write s.params s.mem r.toNat v := rfl
@[simp] theorem State.setDev_rspValid (s : State) (r : RegisterId) (v : Byte) : (s.setDev r v).rspValid = s.rspValid := rfl
@[simp] theorem State.setDev_port (s : State) (r : RegisterId) (v : Byte) : (s.setDev r v).port = s.port := rfl
@[simp] theorem State.setDev_moves (s : State) (r : RegisterId) (v : Byte) : (s.setDev r v).moves = s.moves := rfl
@[simp] theorem State.setDev_draws (s : State) (r : RegisterId) (v : Byte) : (s.setDev r v).draws = s.draws := rfl
@[simp] theorem State.setDev_params (s : State) (r : RegisterId) (v : Byte) : (s.setDev r v).params = s.params := rfl
@[simp] theorem State.setDev_getX (s : State) (r : RegisterId) (v : Byte) (j : HReg) : (s.setDev r v).getX j = s.getX j := rfl

/-! ## respond -/

@[simp] theorem respond_x (st : Status) (val : Bool) (n : Nat) (e : DevErr) (s : State) : (respond st val n e s).x = s.x := rfl
@[simp] theorem respond_pc (st : Status) (val : Bool) (n : Nat) (e : DevErr) (s : State) : (respond st val n e s).pc = .idle := rfl
@[simp] theorem respond_cmdr (st : Status) (val : Bool) (n : Nat) (e : DevErr) (s : State) : (respond st val n e s).cmdr = s.cmdr := rfl
@[simp] theorem respond_tmp (st : Status) (val : Bool) (n : Nat) (e : DevErr) (s : State) : (respond st val n e s).tmp = s.tmp := rfl
@[simp] theorem respond_rsp (st : Status) (val : Bool) (n : Nat) (e : DevErr) (s : State) : (respond st val n e s).rsp = rspWord st val (BitVec.ofNat 2 n) e := rfl
@[simp] theorem respond_halt (st : Status) (val : Bool) (n : Nat) (e : DevErr) (s : State) : (respond st val n e s).halt = s.halt := rfl
@[simp] theorem respond_mem (st : Status) (val : Bool) (n : Nat) (e : DevErr) (s : State) : (respond st val n e s).mem = s.mem := rfl
@[simp] theorem respond_rspValid (st : Status) (val : Bool) (n : Nat) (e : DevErr) (s : State) : (respond st val n e s).rspValid = true := rfl
@[simp] theorem respond_port (st : Status) (val : Bool) (n : Nat) (e : DevErr) (s : State) : (respond st val n e s).port = s.port := rfl
@[simp] theorem respond_moves (st : Status) (val : Bool) (n : Nat) (e : DevErr) (s : State) : (respond st val n e s).moves = s.moves := rfl
@[simp] theorem respond_draws (st : Status) (val : Bool) (n : Nat) (e : DevErr) (s : State) : (respond st val n e s).draws = s.draws := rfl
@[simp] theorem respond_params (st : Status) (val : Bool) (n : Nat) (e : DevErr) (s : State) : (respond st val n e s).params = s.params := rfl
@[simp] theorem respond_getX (st : Status) (val : Bool) (n : Nat) (e : DevErr) (s : State) (j : HReg) : (respond st val n e s).getX j = s.getX j := rfl
@[simp] theorem respond_devByte (st : Status) (val : Bool) (n : Nat) (e : DevErr) (s : State) (a : RegisterId) : (respond st val n e s).devByte a = s.devByte a := rfl
@[simp] theorem respond_devReg (st : Status) (val : Bool) (n : Nat) (e : DevErr) (s : State) (b : Bank) (f : Fn) : (respond st val n e s).devReg b f = s.devReg b f := rfl

/-! ## The handle file -/

@[simp] theorem State.getX_setX_self (s : State) (k : HReg) (h : Handle) : (s.setX k h).getX k = h := by
  simp [State.getX]

theorem State.getX_setX_ne (s : State) (k j : HReg) (h : Handle) (hne : j ≠ k) :
    (s.setX k h).getX j = s.getX j := by
  have : k.val ≠ j.val := fun e => hne (Fin.ext e.symm)
  simp [State.getX, this]

/-- Writing back what the register holds changes nothing. -/
@[simp] theorem State.setX_getX (s : State) (k : HReg) : s.setX k (s.getX k) = s := by
  simp [State.setX, State.getX]

/-- The answer to a transaction depends on the listed moves and on the count of free answers alone. -/
theorem State.answer_eq_of (s s' : State) (hm : s'.moves = s.moves) (hd : s'.draws = s.draws) :
    s'.answer = s.answer := by
  simp only [State.answer, hm, hd]

@[simp] theorem State.quiet_answer (s : State) : s.quiet.answer = s.answer := rfl

@[simp] theorem State.latch_answer (s : State) (w : Word) : (s.latch w).answer = s.answer := rfl

end Sys2Proof.Machine
end

