-- ==== Sys2Proof/Laws/Memory.lean ====
section
/-! SUPPORT. The laws of the device register space: read after write, the canonical form, register selection
(R8, R50, R54, R56). -/

namespace Sys2Proof.Machine

/-! ## Read after write -/

theorem Memory.read_put_self (p : Params) (m : List Host.Cell) (a : Nat) (v : Byte) :
    Memory.read p (Memory.put m a v) a = v := by
  induction m with
  | nil => simp [Memory.put, Memory.read]
  | cons c m ih =>
    simp only [Memory.put]
    split
    · simp [Memory.read]
    · split
      · simp [Memory.read]
      · simp only [Memory.read]
        rw [if_neg (by omega), ih]

theorem Memory.read_put_ne (p : Params) (m : List Host.Cell) (a a' : Nat) (v : Byte) (h : a' ≠ a) :
    Memory.read p (Memory.put m a v) a' = Memory.read p m a' := by
  induction m with
  | nil => simp [Memory.put, Memory.read, h.symm]
  | cons c m ih =>
    simp only [Memory.put]
    split
    · simp [Memory.read, h.symm]
    · split
      · next heq => simp [Memory.read, h.symm, ← heq]
      · simp [Memory.read, ih]

theorem Memory.read_drop_self (p : Params) (m : List Host.Cell) (a : Nat) :
    Memory.read p (Memory.drop m a) a = resetByte p a := by
  induction m with
  | nil => rfl
  | cons c m ih =>
    by_cases hc : c.1 = a
    · simpa [Memory.drop, hc] using ih
    · simpa [Memory.drop, hc, Memory.read] using ih

theorem Memory.read_drop_ne (p : Params) (m : List Host.Cell) (a a' : Nat) (h : a' ≠ a) :
    Memory.read p (Memory.drop m a) a' = Memory.read p m a' := by
  induction m with
  | nil => rfl
  | cons c m ih =>
    by_cases hc : c.1 = a
    · have : c.1 ≠ a' := fun e => h (e.symm.trans hc)
      simp only [Memory.drop, Memory.read] at ih ⊢
      simp [hc, h.symm, ih]
    · simp only [Memory.drop, Memory.read] at ih ⊢
      simp [hc, Memory.read, ih]

/-- A byte read back is the byte last written (R56). -/
@[simp] theorem Memory.read_write_self (p : Params) (m : List Host.Cell) (a : Nat) (v : Byte) :
    Memory.read p (Memory.write p m a v) a = v := by
  simp only [Memory.write]
  split
  · next h => rw [Memory.read_drop_self, h]
  · exact Memory.read_put_self p m a v

/-- A write leaves every other address alone (R53). -/
theorem Memory.read_write_ne (p : Params) (m : List Host.Cell) (a a' : Nat) (v : Byte) (h : a' ≠ a) :
    Memory.read p (Memory.write p m a v) a' = Memory.read p m a' := by
  simp only [Memory.write]
  split
  · exact Memory.read_drop_ne p m a a' h
  · exact Memory.read_put_ne p m a a' v h

@[simp] theorem Memory.read_nil (p : Params) (a : Nat) : Memory.read p [] a = resetByte p a := rfl

/-! ## The canonical form -/

/-- Every entry after a `put` is the new one or an old one. -/
theorem Memory.mem_put (m : List Host.Cell) (a : Nat) (v : Byte) (c : Host.Cell)
    (h : c ∈ Memory.put m a v) : c = (a, v) ∨ c ∈ m := by
  induction m with
  | nil => simpa [Memory.put] using h
  | cons d m ih =>
    simp only [Memory.put] at h
    split at h
    · simpa using h
    · split at h
      · simp only [List.mem_cons] at h ⊢
        tauto
      · simp only [List.mem_cons] at h ⊢
        tauto

theorem Memory.put_sorted (m : List Host.Cell) (a : Nat) (v : Byte)
    (h : m.Pairwise (fun c d => c.1 < d.1)) :
    (Memory.put m a v).Pairwise (fun c d => c.1 < d.1) := by
  induction m with
  | nil => simp [Memory.put]
  | cons c m ih =>
    have ⟨hc, hm⟩ := List.pairwise_cons.mp h
    simp only [Memory.put]
    split
    · next hlt =>
      refine List.pairwise_cons.mpr ⟨fun d hd => ?_, h⟩
      rcases List.mem_cons.mp hd with rfl | hd
      · exact hlt
      · exact Nat.lt_trans hlt (hc d hd)
    · split
      · next heq => exact List.pairwise_cons.mpr ⟨fun d hd => heq ▸ hc d hd, hm⟩
      · refine List.pairwise_cons.mpr ⟨fun d hd => ?_, ih hm⟩
        rcases Memory.mem_put m a v d hd with rfl | hd
        · show c.1 < a
          omega
        · exact hc d hd

/-- Every entry after a write is the new one or an old one. -/
theorem Memory.mem_write (p : Params) (m : List Host.Cell) (a : Nat) (v : Byte) (c : Host.Cell)
    (h : c ∈ Memory.write p m a v) : c = (a, v) ∨ c ∈ m := by
  simp only [Memory.write] at h
  split at h
  · exact .inr (List.mem_of_mem_filter h)
  · exact Memory.mem_put m a v c h

/-- A write keeps the canonical form. -/
theorem Memory.write_wf (p : Params) (m : List Host.Cell) (a : Nat) (v : Byte) (ha : a < 8)
    (h : Memory.wf p m) : Memory.wf p (Memory.write p m a v) := by
  simp only [Memory.write]
  split
  · exact ⟨h.1.filter _, fun c hc => h.2 c (List.mem_of_mem_filter hc)⟩
  · next hv =>
    refine ⟨Memory.put_sorted m a v h.1, fun c hc => ?_⟩
    rcases Memory.mem_put m a v c hc with rfl | hc
    · exact ⟨ha, hv⟩
    · exact h.2 c hc

theorem Memory.wf_nil (p : Params) : Memory.wf p [] := by simp [Memory.wf]

/-- Reset leaves the memory in canonical form. -/
theorem State.reset_mem_wf : Memory.wf State.reset.params State.reset.mem := Memory.wf_nil _

theorem State.setDev_wf (s : State) (r : RegisterId) (v : Byte) (h : Memory.wf s.params s.mem) :
    Memory.wf (s.setDev r v).params (s.setDev r v).mem :=
  Memory.write_wf _ _ _ _ r.isLt h

/-! ## Register selection -/

/-- `RegSel` is injective when the eight identifiers are distinct (R8 (b)). -/
theorem regSel_inj {p : Params} (hp : p.regs.wf) {b b' : Bank} {f f' : Fn}
    (h : regSel p b f = regSel p b' f') : b = b' ∧ f = f' := by
  simp only [RegMap.wf, List.nodup_cons, List.mem_cons, List.not_mem_nil, not_or, or_false] at hp
  cases b <;> cases f <;> cases b' <;> cases f' <;> simp_all [regSel]

@[simp] theorem isInputReg_inp (p : Params) (b : Bank) : isInputReg p (regSel p b .inp) = true := by
  cases b <;> simp [isInputReg]

/-- A storage register is no input register (R57). -/
theorem isInputReg_eq_false {p : Params} (hp : p.regs.wf) (b : Bank) {f : Fn} (hf : f ≠ .inp) :
    isInputReg p (regSel p b f) = false := by
  simp only [isInputReg, Bool.or_eq_false_iff, beq_eq_false_iff_ne]
  exact ⟨fun e => hf (regSel_inj hp e).2, fun e => hf (regSel_inj hp e).2⟩

/-! ## The device's bytes in the state -/

@[simp] theorem State.devByte_setDev_self (s : State) (r : RegisterId) (v : Byte) :
    (s.setDev r v).devByte r = v := by
  simp [State.devByte]

theorem State.devByte_setDev_ne (s : State) (r r' : RegisterId) (v : Byte) (h : r' ≠ r) :
    (s.setDev r v).devByte r' = s.devByte r' := by
  have : r'.toNat ≠ r.toNat := fun e => h (BitVec.eq_of_toNat_eq e)
  simp [State.devByte, Memory.read_write_ne _ _ _ _ _ this]

@[simp] theorem State.devReg_setDev_self (s : State) (b : Bank) (f : Fn) (v : Byte) :
    (s.setDev (regSel s.params b f) v).devReg b f = v := by
  simp [State.devReg]

/-- A write to one register leaves the register of another bank or function alone (R8, R53). -/
theorem State.devReg_setDev_ne {s : State} (hp : s.params.regs.wf) {b b' : Bank} {f f' : Fn} (v : Byte)
    (h : ¬ (b' = b ∧ f' = f)) : (s.setDev (regSel s.params b f) v).devReg b' f' = s.devReg b' f' :=
  s.devByte_setDev_ne _ _ _ fun e => h (regSel_inj hp e)

end Sys2Proof.Machine
end

