-- ==== Sys2Proof/Laws/Ops.lean ====
section
/-! SUPPORT. One lemma for each shared operation that says once what it can do. -/

namespace Sys2Proof.Machine

/-- An instruction's micro-step is the sequencer running its row of R102. -/
theorem exec_eq (i : Instr) (s : State) : exec i s = runCommand (commandOf i) s := by
  cases i <;> rfl

@[simp] theorem commandOf_h (i : Instr) : (commandOf i).h = i.hreg := by
  cases i <;> rfl

/-! ## The device port -/

/-- A read gives the byte of the register, or the environment's draw, or the device's error, and changes nothing but
the port and the answers (R52). -/
theorem memRead_cases (r : RegisterId) (s : State) :
    (∃ sample, s.answer = .ok sample ∧
      memRead r s = (.ok (if isInputReg s.params r then sample else s.devByte r), s.afterAnswer.present (.read r))) ∨
    (∃ e landed, s.answer = .err e landed ∧ memRead r s = (.error e, s.afterAnswer.present (.read r))) := by
  cases h : s.answer with
  | ok sample => exact .inl ⟨sample, rfl, by simp [memRead, h]⟩
  | err e landed => exact .inr ⟨e, landed, rfl, by simp [memRead, h]⟩

/-- A write that answered `Ok` took effect; one that failed did or did not (R53, R55). -/
theorem memWrite_cases (r : RegisterId) (v : Byte) (s : State) :
    (∃ sample, s.answer = .ok sample ∧
      memWrite r v s = (.ok (), (s.afterAnswer.present (.write r v)).setDev r v)) ∨
    (∃ e, s.answer = .err e true ∧
      memWrite r v s = (.error e, (s.afterAnswer.present (.write r v)).setDev r v)) ∨
    (∃ e, s.answer = .err e false ∧ memWrite r v s = (.error e, s.afterAnswer.present (.write r v))) := by
  cases h : s.answer with
  | ok sample => exact .inl ⟨sample, rfl, by simp [memWrite, h]⟩
  | err e landed =>
    cases landed
    · exact .inr (.inr ⟨e, rfl, by simp [memWrite, h]⟩)
    · exact .inr (.inl ⟨e, rfl, by simp [memWrite, h]⟩)

/-! ## The handle register after a command -/

/-- What `HandleEffect.apply` writes, if anything. -/
theorem HandleEffect.apply_cases (e : HandleEffect) (c : Command) (s : State) :
    (e = .keep ∧ e.apply c s = s) ∨
    (∃ r, e = .put r ∧ e.apply c s = s.setX c.h ⟨true, r, c.bankOf s, c.idxOf s⟩) ∨
    (e = .clear ∧ e.apply c s = s.setX c.h Handle.empty) := by
  cases e <;> simp [HandleEffect.apply]

section
variable (e : HandleEffect) (c : Command) (s : State)

@[simp] theorem HandleEffect.apply_pc : (e.apply c s).pc = s.pc := by cases e <;> rfl
@[simp] theorem HandleEffect.apply_cmdr : (e.apply c s).cmdr = s.cmdr := by cases e <;> rfl
@[simp] theorem HandleEffect.apply_tmp : (e.apply c s).tmp = s.tmp := by cases e <;> rfl
@[simp] theorem HandleEffect.apply_rsp : (e.apply c s).rsp = s.rsp := by cases e <;> rfl
@[simp] theorem HandleEffect.apply_halt : (e.apply c s).halt = s.halt := by cases e <;> rfl
@[simp] theorem HandleEffect.apply_mem : (e.apply c s).mem = s.mem := by cases e <;> rfl
@[simp] theorem HandleEffect.apply_rspValid : (e.apply c s).rspValid = s.rspValid := by cases e <;> rfl
@[simp] theorem HandleEffect.apply_port : (e.apply c s).port = s.port := by cases e <;> rfl
@[simp] theorem HandleEffect.apply_moves : (e.apply c s).moves = s.moves := by cases e <;> rfl
@[simp] theorem HandleEffect.apply_draws : (e.apply c s).draws = s.draws := by cases e <;> rfl
@[simp] theorem HandleEffect.apply_params : (e.apply c s).params = s.params := by cases e <;> rfl

@[simp] theorem HandleEffect.apply_devByte (r : RegisterId) : (e.apply c s).devByte r = s.devByte r := by
  cases e <;> rfl

@[simp] theorem HandleEffect.apply_devReg (b : Bank) (f : Fn) : (e.apply c s).devReg b f = s.devReg b f := by
  cases e <;> rfl

/-- No handle register but the command's own is written (R22). -/
theorem HandleEffect.apply_getX_ne (k : HReg) (hk : k ≠ c.h) : (e.apply c s).getX k = s.getX k := by
  cases e with
  | keep => rfl
  | put r => exact s.getX_setX_ne _ _ _ hk
  | clear => exact s.getX_setX_ne _ _ _ hk

end

/-- The bank and index a command works on come from the command and its handle register alone (R102). -/
theorem Command.bankOf_congr (c : Command) {s s' : State} (h : s'.getX c.h = s.getX c.h) :
    c.bankOf s' = c.bankOf s := by
  simp only [Command.bankOf, h]

theorem Command.idxOf_congr (c : Command) {s s' : State} (h : s'.getX c.h = s.getX c.h) :
    c.idxOf s' = c.idxOf s := by
  simp only [Command.idxOf, h]

theorem Command.handleOk_congr (c : Command) {s s' : State} (h : s'.getX c.h = s.getX c.h) :
    c.handleOk s' = c.handleOk s := by
  simp only [Command.handleOk, h]

/-! ## Micro-steps -/

/-- Acceptance ends the command with CONTRACT, BAD_HANDLE or, for an empty plan, OK, or it goes to `T0` (R101). -/
theorem accept_cases (c : Command) (s : State) :
    (c.breaksContract = true ∧ accept c s = raise .contract s) ∨
    (c.breaksContract = false ∧ c.handleOk s = false ∧ accept c s = raise .badHandle s) ∨
    (c.breaksContract = false ∧ c.handleOk s = true ∧ c.plan = [] ∧ accept c s = complete c s) ∨
    (c.breaksContract = false ∧ c.handleOk s = true ∧ c.plan ≠ [] ∧ accept c s = s.setPc .t0) := by
  cases hb : c.breaksContract <;> cases hh : c.handleOk s <;> by_cases hp : c.plan = [] <;>
    simp [accept, hb, hh, hp]

/-- After a transaction that answered `Ok` the command is complete or at its next position (R103, R104). -/
theorem advance_cases (c : Command) (n : Nat) (s : State) :
    (n + 1 = c.plan.length ∧ advance c n s = complete c s) ∨
    (n + 1 ≠ c.plan.length ∧ advance c n s = s.setPc s.pc.succ) := by
  by_cases h : n + 1 = c.plan.length <;> simp [advance, h]

/-- The read micro-step goes on with the byte in `TMP`, or aborts (R103). -/
theorem readStep_cases (c : Command) (n : Nat) (f : Fn) (s : State) :
    (∃ sample, s.answer = .ok sample ∧ readStep c n f s =
      advance c n ((s.afterAnswer.present (.read (regSel s.params (c.bankOf s) f))).setTmp
        (if isInputReg s.params (regSel s.params (c.bankOf s) f) then sample else s.devReg (c.bankOf s) f))) ∨
    (∃ e landed, s.answer = .err e landed ∧ readStep c n f s =
      abort c n e (s.afterAnswer.present (.read (regSel s.params (c.bankOf s) f)))) := by
  rcases memRead_cases (regSel s.params (c.bankOf s) f) s with ⟨sample, ha, h⟩ | ⟨e, landed, ha, h⟩
  · exact .inl ⟨sample, ha, by simp only [readStep, h, State.devReg]⟩
  · exact .inr ⟨e, landed, ha, by simp only [readStep, h]⟩

/-- The write micro-step goes on with the byte stored, or aborts with the old or the new byte (R104, R55). -/
theorem writeStep_cases (c : Command) (n : Nat) (f : Fn) (m : BitMod) (s : State) :
    let r := regSel s.params (c.bankOf s) f
    let v := m.apply s.tmp (c.idxOf s)
    let s' := s.afterAnswer.present (.write r v)
    (∃ sample, s.answer = .ok sample ∧ writeStep c n f m s = advance c n (s'.setDev r v)) ∨
    (∃ e, s.answer = .err e true ∧ writeStep c n f m s = abort c n e (s'.setDev r v)) ∨
    (∃ e, s.answer = .err e false ∧ writeStep c n f m s = abort c n e s') := by
  intro r v s'
  rcases memWrite_cases r v s with ⟨sample, ha, h⟩ | ⟨e, ha, h⟩ | ⟨e, ha, h⟩
  · exact .inl ⟨sample, ha, by simp only [writeStep]; rw [h]⟩
  · exact .inr (.inl ⟨e, ha, by simp only [writeStep]; rw [h]⟩)
  · exact .inr (.inr ⟨e, ha, by simp only [writeStep]; rw [h]⟩)

/-- A read that answers `Ok` (R103). -/
theorem readStep_ok {c : Command} {n : Nat} {f : Fn} {s : State} {sample : Byte} (ha : s.answer = .ok sample) :
    readStep c n f s =
      advance c n ((s.afterAnswer.present (.read (regSel s.params (c.bankOf s) f))).setTmp
        (if isInputReg s.params (regSel s.params (c.bankOf s) f) then sample else s.devReg (c.bankOf s) f)) := by
  simp [readStep, memRead, ha, State.devReg]

/-- A read that answers `Err` (R103). -/
theorem readStep_err {c : Command} {n : Nat} {f : Fn} {s : State} {e : DevErr} {landed : Bool}
    (ha : s.answer = .err e landed) :
    readStep c n f s = abort c n e (s.afterAnswer.present (.read (regSel s.params (c.bankOf s) f))) := by
  simp [readStep, memRead, ha]

/-- A write that answers `Ok` (R104). -/
theorem writeStep_ok {c : Command} {n : Nat} {f : Fn} {m : BitMod} {s : State} {sample : Byte}
    (ha : s.answer = .ok sample) :
    writeStep c n f m s =
      advance c n ((s.afterAnswer.present
        (.write (regSel s.params (c.bankOf s) f) (m.apply s.tmp (c.idxOf s)))).setDev
          (regSel s.params (c.bankOf s) f) (m.apply s.tmp (c.idxOf s))) := by
  simp [writeStep, memWrite, ha]

/-- A write that answers `Err`: the old or the new byte (R55, R104). -/
theorem writeStep_err {c : Command} {n : Nat} {f : Fn} {m : BitMod} {s : State} {e : DevErr} {landed : Bool}
    (ha : s.answer = .err e landed) :
    writeStep c n f m s =
      abort c n e (if landed then (s.afterAnswer.present
          (.write (regSel s.params (c.bankOf s) f) (m.apply s.tmp (c.idxOf s)))).setDev
            (regSel s.params (c.bankOf s) f) (m.apply s.tmp (c.idxOf s))
        else s.afterAnswer.present (.write (regSel s.params (c.bankOf s) f) (m.apply s.tmp (c.idxOf s)))) := by
  simp [writeStep, memWrite, ha]

/-- If a transaction answers a next state, the plan has it and that micro-step ran (R103, R104). -/
theorem transact_next {c : Command} {n : Nat} {s t : State} (h : transact c n s = .next t) :
    (∃ f, c.plan[n]? = some (.read f) ∧ t = readStep c n f s) ∨
    (∃ f m, c.plan[n]? = some (.write f m) ∧ t = writeStep c n f m s) := by
  unfold transact at h
  split at h
  · next f hp => exact .inl ⟨f, hp, by injection h with h; exact h.symm⟩
  · next f m hp => exact .inr ⟨f, m, hp, by injection h with h; exact h.symm⟩
  · cases h

/-- If a micro-step answers a next state, it was the acceptance or a transaction of the plan (R101, R103, R104). -/
theorem runCommand_next {c : Command} {s t : State} (h : runCommand c s = .next t) :
    (s.pc = .idle ∧ t = accept c s.quiet) ∨
    (∃ n f, s.pc.txn = some n ∧ c.plan[n]? = some (.read f) ∧ t = readStep c n f s.quiet) ∨
    (∃ n f m, s.pc.txn = some n ∧ c.plan[n]? = some (.write f m) ∧ t = writeStep c n f m s.quiet) := by
  unfold runCommand at h
  split at h
  · next hp => exact .inl ⟨hp, by injection h with h; exact h.symm⟩
  all_goals
    next hp =>
    rcases transact_next h with ⟨f, hf, ht⟩ | ⟨f, m, hf, ht⟩
    · exact .inr (.inl ⟨_, f, by rw [hp]; rfl, hf, ht⟩)
    · exact .inr (.inr ⟨_, f, m, by rw [hp]; rfl, hf, ht⟩)

/-- In `IDLE` a micro-step is the acceptance. -/
theorem runCommand_idle {c : Command} {s : State} (h : s.pc = .idle) :
    runCommand c s = .next (accept c s.quiet) := by
  simp [runCommand, h]

/-- In `Tn` a micro-step is transaction `n`. -/
theorem runCommand_txn {c : Command} {s : State} {n : Nat} (h : s.pc.txn = some n) :
    runCommand c s = transact c n s.quiet := by
  cases hp : s.pc <;> simp only [hp, SeqPos.txn, Option.some.injEq, reduceCtorEq] at h
  all_goals subst h; simp [runCommand, hp]

/-! ## The instructions, micro-step by micro-step -/

/-- In `IDLE` an instruction is accepted (R101). -/
theorem exec_idle {i : Instr} {s : State} (h : s.pc = .idle) :
    exec i s = .next (accept (commandOf i) s.quiet) := by
  rw [exec_eq, runCommand_idle h]

/-- In `Tn` an instruction whose plan has a read there runs the read micro-step (R103). -/
theorem exec_read {i : Instr} {s : State} {n : Nat} {f : Fn} (h : s.pc.txn = some n)
    (hp : (commandOf i).plan[n]? = some (.read f)) :
    exec i s = .next (readStep (commandOf i) n f s.quiet) := by
  rw [exec_eq, runCommand_txn h, transact, hp]

/-- In `Tn` an instruction whose plan has a write there runs the write micro-step (R104). -/
theorem exec_write {i : Instr} {s : State} {n : Nat} {f : Fn} {m : BitMod} (h : s.pc.txn = some n)
    (hp : (commandOf i).plan[n]? = some (.write f m)) :
    exec i s = .next (writeStep (commandOf i) n f m s.quiet) := by
  rw [exec_eq, runCommand_txn h, transact, hp]

/-- A position past `IDLE` has a transaction number. -/
theorem SeqPos.txn_of_ne_idle {p : SeqPos} (h : p ≠ .idle) : ∃ n, p.txn = some n := by
  cases p <;> simp_all [SeqPos.txn]

/-- The next position has the next number (R24). -/
theorem SeqPos.txn_succ {p : SeqPos} {n : Nat} (h : p.txn = some n) (hn : n < 3) : p.succ.txn = some (n + 1) := by
  cases p <;> simp [SeqPos.txn, SeqPos.succ] at * <;> omega

end Sys2Proof.Machine
end

