-- ==== Sys2Proof/Laws/Step.lean ====
section
/-! SUPPORT. What one step of the system can do, said once. -/

namespace Sys2Proof.Machine

/-- A step that answers a next state did one of these: an accepted word, an illegal or an ignored one, one of the two
resets, another master's write, nothing in idle, or a transaction of the command in progress. -/
theorem step_cases {s t : State} (h : step s = .next t) :
    (∃ w ms i, s.moves = .command w :: ms ∧ s.cmdReady = true ∧ decode w = .ok i ∧
      exec i ((s.withMoves ms).latch w) = .next t) ∨
    (∃ w ms e, s.moves = .command w :: ms ∧ s.cmdReady = true ∧ decode w = .error e ∧
      t = raise .illegal ((s.withMoves ms).latch w).quiet) ∨
    (∃ w ms, s.moves = .command w :: ms ∧ s.cmdReady = false ∧ t = (s.withMoves ms).quiet) ∨
    (∃ landed ms, s.moves = .reset landed :: ms ∧ t = controllerReset landed (s.withMoves ms)) ∨
    (∃ ms, s.moves = .deviceReset :: ms ∧ t = deviceReset (s.withMoves ms)) ∨
    (∃ r v ms, s.moves = .otherMaster r v :: ms ∧ t = otherMasterWrite r v (s.withMoves ms)) ∨
    (∃ a ms, s.moves = .answer a :: ms ∧ s.pc = .idle ∧ t = (s.withMoves ms).quiet) ∨
    (s.moves = [] ∧ s.pc = .idle ∧ t = s.quiet) ∨
    (∃ i, (s.moves = [] ∨ ∃ a ms, s.moves = .answer a :: ms) ∧ s.pc ≠ .idle ∧ decode s.cmdr = .ok i ∧
      exec i s = .next t) := by
  unfold step at h
  split at h
  · next w ms hm =>
    unfold presentWord at h
    split at h
    · next hr =>
      unfold acceptWord at h
      split at h
      · next i hd => exact .inl ⟨w, ms, i, hm, hr, hd, h⟩
      · next e hd => exact .inr (.inl ⟨w, ms, e, hm, hr, hd, by injection h with h; exact h.symm⟩)
    · next hr =>
      exact .inr (.inr (.inl ⟨w, ms, hm, Bool.eq_false_iff.mpr hr, by injection h with h; exact h.symm⟩))
  · next l ms hm =>
    exact .inr (.inr (.inr (.inl ⟨l, ms, hm, by injection h with h; exact h.symm⟩)))
  · next ms hm =>
    exact .inr (.inr (.inr (.inr (.inl ⟨ms, hm, by injection h with h; exact h.symm⟩))))
  · next r v ms hm =>
    exact .inr (.inr (.inr (.inr (.inr (.inl ⟨r, v, ms, hm, by injection h with h; exact h.symm⟩)))))
  · next a ms hm =>
    split at h
    · next hp =>
      exact .inr (.inr (.inr (.inr (.inr (.inr (.inl
        ⟨a, ms, hm, hp, by unfold idleStep at h; injection h with h; exact h.symm⟩))))))
    · next hp =>
      unfold continueCommand at h
      split at h
      · next i hd =>
        exact .inr (.inr (.inr (.inr (.inr (.inr (.inr (.inr ⟨i, .inr ⟨a, ms, hm⟩, hp, hd, h⟩)))))))
      · cases h
  · next hm =>
    split at h
    · next hp =>
      exact .inr (.inr (.inr (.inr (.inr (.inr (.inr (.inl
        ⟨hm, hp, by unfold idleStep at h; injection h with h; exact h.symm⟩)))))))
    · next hp =>
      unfold continueCommand at h
      split at h
      · next i hd =>
        exact .inr (.inr (.inr (.inr (.inr (.inr (.inr (.inr ⟨i, .inl hm, hp, hd, h⟩)))))))
      · cases h

end Sys2Proof.Machine
end

