-- ==== Sys2Proof/Laws/Legal.lean ====
section
/-! SUPPORT. The parts of a legal state, and which operations keep them. -/

namespace Sys2Proof.Machine

/-- A response word made by `respond` with unused fields 0 is one of R90. -/
theorem responseLegal_rspWord (st : Status) (val : Bool) (n : BitVec 2) (e : DevErr)
    (h1 : st ≠ .devErr → e = 0 ∧ n = 0) (h2 : st ≠ .ok → val = false) :
    ResponseLegal (rspWord st val n e) := by
  refine ⟨bit7_rspWord .., ?_, ?_, ?_⟩
  · cases st <;> simp [Status.code]
  · intro h
    simp only [rspSt_rspWord, rspErr_rspWord, rspTxn_rspWord] at h ⊢
    exact h1 fun hs => h (by rw [hs])
  · intro h
    simp only [rspSt_rspWord, rspVal_rspWord] at h ⊢
    exact h2 fun hs => h (by rw [hs])

/-- The device part of a legal state: register map, canonical form, no input register listed. -/
abbrev DeviceLegal (s : State) : Prop :=
  s.params.regs.wf ∧ Memory.wf s.params s.mem ∧ NoInputCell s

/-- A write to a storage register keeps the device part. -/
theorem DeviceLegal.setDev {s : State} (h : DeviceLegal s) (r : RegisterId) (v : Byte)
    (hr : isInputReg s.params r = false) : DeviceLegal (s.setDev r v) := by
  obtain ⟨hp, hw, hn⟩ := h
  refine ⟨hp, State.setDev_wf _ _ _ hw, fun c hc => ?_⟩
  rcases Memory.mem_write _ _ _ _ _ hc with rfl | hc
  · simp only [isInputReg, Bool.or_eq_false_iff, beq_eq_false_iff_ne] at hr
    exact ⟨fun e => hr.1 (BitVec.eq_of_toNat_eq e), fun e => hr.2 (BitVec.eq_of_toNat_eq e)⟩
  · exact hn c hc

/-- Writing a well-formed handle keeps the handle file well-formed (R21). -/
theorem HandlesWf.setX {s : State} (h : HandlesWf s) (k : HReg) (v : Handle) (hv : v.wf = true) :
    HandlesWf (s.setX k v) := by
  intro j
  by_cases hj : j = k
  · subst hj
    simpa using hv
  · rw [State.getX_setX_ne _ _ _ _ hj]
    exact h j

/-- The end of a command keeps the handle file well-formed (R23). -/
theorem HandlesWf.apply {s : State} (h : HandlesWf s) (e : HandleEffect) (c : Command) :
    HandlesWf (e.apply c s) := by
  rcases e.apply_cases c s with ⟨_, h'⟩ | ⟨r, _, h'⟩ | ⟨_, h'⟩ <;> rw [h']
  · exact h
  · exact h.setX _ _ rfl
  · exact h.setX _ _ rfl

end Sys2Proof.Machine
end

