-- ==== Sys2Proof/Laws/PerInstr.lean ====
section
/-! SUPPORT. Statements about every instruction as syntax, one lemma per constructor. -/

namespace Sys2Proof

/-- The row of the opcode map an instruction belongs to (R84). -/
def rowOf : Instr → OpRow
  | .newi _ _ _ => rowNewi
  | .ishi _ => rowIshi
  | .islo _ => rowIslo
  | .spol _ _ => rowSpol
  | .i2i _ => rowI2i
  | .i2o _ _ => rowI2o
  | .newo _ _ _ _ => rowNewo
  | .seth _ => rowSeth
  | .setl _ => rowSetl
  | .o2i _ => rowO2i
  | .o2o _ _ => rowO2o
  | .drop _ => rowDrop

namespace Laws

/-- The word of an instruction matches the mask and pattern of its own row, whatever its operands (R84, R88). -/
def RowMatch.Statement (i : Instr) : Prop := encode i &&& (rowOf i).mask = (rowOf i).pattern

theorem RowMatch.newi (h : HReg) (b : Bank) (i : Nat) : RowMatch.Statement (.newi h b i) := by
  simp only [RowMatch.Statement, encode, rowOf, rowNewi, and_eq_iff_fields, hField_and]
  generalize BitVec.ofNat 4 i = v
  cases b <;> simp [Bank.code] <;> revert h v <;> decide
theorem RowMatch.ishi (h : HReg) : RowMatch.Statement (.ishi h) := by
  revert h; unfold RowMatch.Statement; decide
theorem RowMatch.islo (h : HReg) : RowMatch.Statement (.islo h) := by
  revert h; unfold RowMatch.Statement; decide
theorem RowMatch.spol (h : HReg) (p : Polarity) : RowMatch.Statement (.spol h p) := by
  cases p <;> revert h <;> unfold RowMatch.Statement <;> decide
theorem RowMatch.i2i (h : HReg) : RowMatch.Statement (.i2i h) := by
  revert h; unfold RowMatch.Statement; decide
theorem RowMatch.i2o (h : HReg) (l : Level) : RowMatch.Statement (.i2o h l) := by
  cases l <;> revert h <;> unfold RowMatch.Statement <;> decide
theorem RowMatch.newo (h : HReg) (b : Bank) (i : Nat) (l : Level) : RowMatch.Statement (.newo h b i l) := by
  simp only [RowMatch.Statement, encode, rowOf, rowNewo, and_eq_iff_fields, hField_and]
  generalize BitVec.ofNat 4 i = v
  cases b <;> cases l <;> simp [Bank.code, Level.code] <;> revert h v <;> decide
theorem RowMatch.seth (h : HReg) : RowMatch.Statement (.seth h) := by
  revert h; unfold RowMatch.Statement; decide
theorem RowMatch.setl (h : HReg) : RowMatch.Statement (.setl h) := by
  revert h; unfold RowMatch.Statement; decide
theorem RowMatch.o2i (h : HReg) : RowMatch.Statement (.o2i h) := by
  revert h; unfold RowMatch.Statement; decide
theorem RowMatch.o2o (h : HReg) (l : Level) : RowMatch.Statement (.o2o h l) := by
  cases l <;> revert h <;> unfold RowMatch.Statement <;> decide
theorem RowMatch.drop (h : HReg) : RowMatch.Statement (.drop h) := by
  revert h; unfold RowMatch.Statement; decide

end Laws

end Sys2Proof
end

