-- ==== Sys2Proof/Laws/Run.lean ====
section
/-! SUPPORT. Runs with the tally of the host's words (R198). -/

namespace Sys2Proof.Machine

@[simp] theorem runs_zero (s : State) : runs 0 s = .next s := rfl

/-- The first of `k + 1` steps. -/
theorem runs_succ {s t : State} (k : Nat) (h : step s = .next t) : runs (k + 1) s = runs k t := by
  show Host.Core.run Sys2Proof.core (k + 1) s = _
  have h' : Sys2Proof.core.step s = .next t := h
  simp only [Host.Core.run, h']

/-- Keeping the tally does not change the run. -/
theorem tallyRun_runs {k : Nat} {a b : Tally} {s t : State} (h : tallyRun k a s = some (t, b)) :
    runs k s = .next t := by
  induction k generalizing a s with
  | zero => cases h; rfl
  | succ k ih =>
    unfold tallyRun at h
    split at h
    · next u hu => rw [runs_succ k hu]; exact ih h
    · cases h
    · cases h

/-- No word is answered that was not accepted, and one that waits has no response yet. -/
abbrev Tally.ok (a : Tally) : Prop := a.answered + (if a.waiting then 1 else 0) ≤ a.accepted

/-- In a run that starts in `IDLE` every step keeps that: a word is accepted only when none waits. -/
theorem Tally.after_ok {a : Tally} {s : State} (t : State) (h : a.ok) (hw : a.waiting = true → acceptsNext s = false) :
    (a.after s t).ok := by
  cases ha : acceptsNext s <;> cases hb : a.waiting <;> cases hv : t.rspValid <;> cases hr : resetsNext s <;>
    simp_all [Tally.ok, Tally.after] <;> omega

/-- No word is accepted in a step of a halted controller (R100, R166). -/
theorem Tally.after_accepted_of_halt (a : Tally) {s : State} (t : State) (h : s.halt = true) :
    (a.after s t).accepted = a.accepted := by
  have : acceptsNext s = false := by
    unfold acceptsNext
    split
    · simp [State.cmdReady, h]
    · rfl
  simp [Tally.after, this]

end Sys2Proof.Machine
end

