-- ==== Sys2Proof/Tests/Slice0.lean ====
section
/-! SUPPORT. The model's own tests. Expected values are those of 95_test_vectors.md, or hand calculation from the rules
named. The second half holds, for each obligation with hypotheses, a state and operands that meet them. -/

namespace Sys2Proof.Tests

open Sys2Proof.Machine

/-! ## Helpers -/

/-- The next state, if there is one. -/
def result (o : Host.Outcome State Fault Refusal) : Option State :=
  match o with
  | .next s => some s
  | .fault _ => none
  | .refused _ => none

/-- The reset state but for the sequencer, one handle register and the moves to come. -/
def at' (p : SeqPos) (w : Word) (tmp : Byte) (k : HReg) (x : Handle) (ms : List Move) : State :=
  { (State.reset.setX k x).withMoves ms with pc := p, cmdr := w, tmp := tmp }

/-- The device answers `Ok`, with `v` for an input register. -/
def ok (v : Byte) : List Move := [.answer (.ok v)]

/-- The device answers `Err`. -/
def err (e : DevErr) (landed : Bool) : List Move := [.answer (.err e landed)]

def inPin (b : Bank) (i : PinIdx) : Handle := ⟨true, .input, b, i⟩
def outPin (b : Bank) (i : PinIdx) : Handle := ⟨true, .output, b, i⟩

/-! ## Well-formedness: the one check, the index field -/

theorem test_wf_newi_refuses : (Instr.newi 0 .bank0 16).wellFormed = false := by decide
theorem test_wf_newo_refuses : (Instr.newo 0 .bank0 16 .low).wellFormed = false := by decide
theorem test_wf_index_15 :
    (Instr.newi 0 .bank0 15).wellFormed = true ∧ (Instr.newo 15 .bank1 15 .high).wellFormed = true := by decide

/-! ## Decoding -/

/-- Fields written out by R81: `op h bank arg z idx`. -/
theorem test_bits_newi :
    decode (0b0001#4 ++ 0b1111#4 ++ 0b1#1 ++ 0b0#1 ++ 0b00#2 ++ 0b0111#4) = .ok (.newi 15 .bank1 7) := by decide
theorem test_bits_spol :
    decode (0b0100#4 ++ 0b1111#4 ++ 0b0#1 ++ 0b1#1 ++ 0b00#2 ++ 0b0000#4) = .ok (.spol 15 .inverse) := by decide
theorem test_bits_newo :
    decode (0b0111#4 ++ 0b0010#4 ++ 0b0#1 ++ 0b1#1 ++ 0b00#2 ++ 0b0101#4) = .ok (.newo 2 .bank0 5 .high) := by decide
theorem test_bits_i2o :
    decode (0b0110#4 ++ 0b0000#4 ++ 0b0#1 ++ 0b1#1 ++ 0b00#2 ++ 0b0000#4) = .ok (.i2o 0 .high) := by decide
theorem test_bits_drop :
    decode (0b1100#4 ++ 0b0001#4 ++ 0b0#1 ++ 0b0#1 ++ 0b00#2 ++ 0b0000#4) = .ok (.drop 1) := by decide

/-- 95_test_vectors.md 2.1. -/
theorem test_decode_newi : decode 0x1003 = .ok (.newi 0 .bank0 3) ∧ decode 0x100F = .ok (.newi 0 .bank0 15) ∧
    decode 0x1043 = .error .unusedNotZero ∧ decode 0x1013 = .error .reservedNotZero ∧
    decode 0x1023 = .error .reservedNotZero ∧ decode 0x1048 = .error .unusedNotZero := by decide
theorem test_decode_ishi : decode 0x2000 = .ok (.ishi 0) ∧ decode 0x2F00 = .ok (.ishi 15) ∧
    decode 0x2001 = .error .unusedNotZero ∧ decode 0x2080 = .error .unusedNotZero ∧
    decode 0x2040 = .error .unusedNotZero := by decide
theorem test_decode_islo : decode 0x3500 = .ok (.islo 5) := by decide
theorem test_decode_spol : decode 0x4040 = .ok (.spol 0 .inverse) ∧ decode 0x4000 = .ok (.spol 0 .normal) ∧
    decode 0x4080 = .error .unusedNotZero ∧ decode 0x4041 = .error .unusedNotZero := by decide
theorem test_decode_i2i : decode 0x5000 = .ok (.i2i 0) ∧ decode 0x5040 = .error .unusedNotZero := by decide
theorem test_decode_i2o : decode 0x6040 = .ok (.i2o 0 .high) ∧ decode 0x6000 = .ok (.i2o 0 .low) ∧
    decode 0x6010 = .error .reservedNotZero := by decide
theorem test_decode_newo : decode 0x7180 = .ok (.newo 1 .bank1 0 .low) ∧
    decode 0x7FC7 = .ok (.newo 15 .bank1 7 .high) ∧ decode 0x7FCF = .ok (.newo 15 .bank1 15 .high) ∧
    decode 0x7190 = .error .reservedNotZero ∧ decode 0x71A0 = .error .reservedNotZero := by decide
theorem test_decode_seth : decode 0x8100 = .ok (.seth 1) ∧ decode 0x8140 = .error .unusedNotZero := by decide
theorem test_decode_setl : decode 0x9100 = .ok (.setl 1) ∧ decode 0x9101 = .error .unusedNotZero := by decide
theorem test_decode_o2i : decode 0xA100 = .ok (.o2i 1) ∧ decode 0xA180 = .error .unusedNotZero := by decide
theorem test_decode_o2o : decode 0xB140 = .ok (.o2o 1 .high) ∧ decode 0xB000 = .ok (.o2o 0 .low) ∧
    decode 0xB141 = .error .unusedNotZero := by decide
theorem test_decode_drop : decode 0xC100 = .ok (.drop 1) ∧ decode 0xC0FF = .error .reservedNotZero := by decide
theorem test_decode_unknown : decode 0x0000 = .error (.unknownOpcode 0x0) ∧
    decode 0xD000 = .error (.unknownOpcode 0xD) ∧ decode 0xE100 = .error (.unknownOpcode 0xE) := by decide

/-- R88, R89. -/
theorem test_assemble : (assemble "NEWO" [.handle 2, .bank 0, .index 5, .level .high]).map encode = some 0x7245 ∧
    (assemble "SPOL" [.handle 0, .polarity .inverse]).map encode = some 0x4040 := by decide
theorem test_assemble_refuses : assemble "NEWI" [.handle 0, .bank 0, .index 16] = none ∧
    assemble "ISHI" [.handle 16] = none ∧ assemble "NEWI" [.handle 0, .bank 2, .index 0] = none := by decide

/-! ## One micro-step of each instruction -/

/-- S1: `NEWI x0, b0, 3`, `CFG0` read as 0x00. -/
theorem test_newi : (result (exec (.newi 0 .bank0 3) (at' .t1 0x1003 0x00 0 Handle.empty (ok 0)))).map
    (fun t => (t.devReg .bank0 .cfg, (t.getX 0).bits, t.rsp)) = some (0x08, 0b100011, 0x0000) := by decide
/-- S5: `NEWI x0, b1, 8`. -/
theorem test_newi_contract : (result (exec (.newi 0 .bank1 8) (at' .idle 0x1088 0x00 0 Handle.empty []))).map
    (fun t => (t.rsp, t.halt, t.cmdReady, t.port)) = some (0x0004, true, false, none) := by decide
/-- S6. -/
theorem test_ishi : (result (exec (.ishi 0) (at' .t0 0x2000 0x00 0 (inPin .bank0 3) (ok 0x08)))).map
    (fun t => (t.rsp, t.tmp)) = some (0x0010, 0x08) := by decide
/-- 2.2: the read fails, `val` = 0. -/
theorem test_ishi_fails : (result (exec (.ishi 0) (at' .t0 0x2000 0x00 0 (inPin .bank0 3) (err 0xEE false)))).map
    (fun t => (t.rsp, (t.getX 0).bits)) = some (0xEE01, 0b100011) := by decide
/-- S6. -/
theorem test_islo : (result (exec (.islo 0) (at' .t0 0x3000 0x00 0 (inPin .bank0 3) (ok 0xF7)))).map
    (fun t => t.rsp) = some 0x0010 := by decide
/-- 2.2: `IN1` = 0x80, index 7. -/
theorem test_islo_high : (result (exec (.islo 15) (at' .t0 0x3F00 0x00 15 (inPin .bank1 7) (ok 0x80)))).map
    (fun t => (t.rsp, t.port)) = some (0x0000, some (.read 1)) := by decide
/-- S4: bit 3 of 0xA5 set. -/
theorem test_spol : (result (exec (.spol 0 .inverse) (at' .t1 0x4040 0xA5 0 (inPin .bank0 3) (ok 0)))).map
    (fun t => (t.devReg .bank0 .pol, t.rsp)) = some (0xAD, 0x0000) := by decide
/-- S4: bit 3 of 0x5A cleared. -/
theorem test_spol_normal : (result (exec (.spol 0 .normal) (at' .t1 0x4000 0x5A 0 (inPin .bank0 3) (ok 0)))).map
    (fun t => (t.devReg .bank0 .pol, (t.getX 0).bits)) = some (0x52, 0b100011) := by decide
/-- 2.4. -/
theorem test_i2i : (result (exec (.i2i 0) (at' .idle 0x5000 0x00 0 (inPin .bank0 3) []))).map
    (fun t => (t.rsp, (t.getX 0).bits, t.port)) = some (0x0000, 0b100011, none) := by decide
/-- 2.6: an output handle. -/
theorem test_i2i_refused : (result (exec (.i2i 0) (at' .idle 0x5000 0x00 0 (outPin .bank0 3) []))).map
    (fun t => (t.rsp, (t.getX 0).bits)) = some (0x0002, 0b110011) := by decide
/-- 2.4: the last write, took effect though it failed: hardware Output, handle empty. -/
theorem test_i2o_fails : (result (exec (.i2o 2 .high) (at' .t3 0x6240 0xFF 2 (inPin .bank0 7) (err 0x5A true)))).map
    (fun t => (t.devReg .bank0 .cfg, (t.getX 2).bits, t.rsp)) = some (0x7F, 0b000000, 0x5A61) := by decide
/-- 2.4: `I2O x0, High`, the last write of 0x00 to `CFG0`. -/
theorem test_i2o : (result (exec (.i2o 0 .high) (at' .t3 0x6040 0x08 0 (inPin .bank0 3) (ok 0)))).map
    (fun t => (t.devReg .bank0 .cfg, (t.getX 0).bits, t.rsp)) = some (0x00, 0b110011, 0x0000) := by decide
/-- 2.8, step T1: `W(OUT1,0xFE)`. -/
theorem test_newo : (result (exec (.newo 1 .bank1 0 .low) (at' .t1 0x7180 0xFF 1 Handle.empty (ok 0)))).map
    (fun t => (t.pc, t.tmp, t.port, t.rspValid)) = some (.t2, 0xFF, some (.write 3 0xFE), false) := by decide
/-- 2.8, step T2 failing with 0x33. -/
theorem test_newo_fails :
    (result (exec (.newo 1 .bank1 0 .low) (at' .t2 0x7180 0xFF 1 Handle.empty (err 0x33 false)))).map
    (fun t => (t.pc, t.tmp, (t.getX 1).bits, t.rsp)) = some (.idle, 0xFF, 0b000000, 0x3341) := by decide
/-- 2.3. -/
theorem test_seth : (result (exec (.seth 1) (at' .t1 0x8100 0xFE 1 (outPin .bank1 0) (ok 0)))).map
    (fun t => (t.port, t.rsp)) = some (some (.write 3 0xFF), 0x0000) := by decide
/-- 2.3: the write fails, the handle is kept. -/
theorem test_seth_fails : (result (exec (.seth 1) (at' .t1 0x8100 0xFE 1 (outPin .bank1 0) (err 0x42 false)))).map
    (fun t => ((t.getX 1).bits, t.rsp)) = some (0b111000, 0x4221) := by decide
/-- 2.3. -/
theorem test_setl : (result (exec (.setl 1) (at' .t1 0x9100 0xFF 1 (outPin .bank1 0) (ok 0)))).map
    (fun t => (t.devReg .bank1 .out, t.rsp)) = some (0xFE, 0x0000) := by decide
/-- 2.6: an input handle. -/
theorem test_setl_refused : (result (exec (.setl 0) (at' .idle 0x9000 0x00 0 (inPin .bank0 3) []))).map
    (fun t => t.rsp) = some 0x0002 := by decide
/-- 2.4, P1. -/
theorem test_o2i : (result (exec (.o2i 1) (at' .t1 0xA100 0xFE 1 (outPin .bank1 0) (ok 0)))).map
    (fun t => (t.port, (t.getX 1).bits)) = some (some (.write 7 0xFF), 0b101000) := by decide
/-- 2.4: the read fails, the handle is empty. -/
theorem test_o2i_fails : (result (exec (.o2i 1) (at' .t0 0xA100 0x00 1 (outPin .bank1 0) (err 0x61 false)))).map
    (fun t => ((t.getX 1).bits, t.rsp)) = some (0b000000, 0x6101) := by decide
/-- 2.4, P1. -/
theorem test_o2o : (result (exec (.o2o 1 .high) (at' .t1 0xB140 0xFE 1 (outPin .bank1 0) (ok 0)))).map
    (fun t => (t.port, (t.getX 1).bits)) = some (some (.write 3 0xFF), 0b111000) := by decide
/-- 2.4: the write fails, the handle is empty. -/
theorem test_o2o_fails : (result (exec (.o2o 1 .high) (at' .t1 0xB140 0xFE 1 (outPin .bank1 0) (err 0x62 true)))).map
    (fun t => ((t.getX 1).bits, t.rsp)) = some (0b000000, 0x6221) := by decide
/-- 2.5. -/
theorem test_drop : (result (exec (.drop 1) (at' .idle 0xC100 0x00 1 (outPin .bank1 0) []))).map
    (fun t => ((t.getX 1).bits, t.rsp, t.port)) = some (0b000000, 0x0000, none) := by decide
/-- 2.5: an empty register. -/
theorem test_drop_empty : (result (exec (.drop 15) (at' .idle 0xCF00 0x00 15 Handle.empty []))).map
    (fun t => ((t.getX 15).bits, t.rsp)) = some (0b000000, 0x0000) := by decide

/-! ## The system -/

/-- 2.7: ILLEGAL before CONTRACT. -/
theorem test_illegal : (result (step (State.reset.withFetchWord 16 0x1048))).map
    (fun t => (t.rsp, t.halt, t.cmdr)) = some (0x0003, false, 0x1048) := by decide
/-- 2.8, step "accept". -/
theorem test_accept : (result (step (State.reset.withFetchWord 16 0x7180))).map
    (fun t => (t.pc, t.cmdr, t.busy, t.cmdReady)) = some (.t0, 0x7180, true, false) := by decide
/-- P5: a word to a halted controller. -/
theorem test_halted : (result (step { State.reset with halt := true, moves := [.command 0xC300] })).map
    (fun t => (t.rspValid, t.cmdr, t.halt)) = some (false, 0x0000, true) := by decide
/-- 2.9: controller reset while halted. -/
theorem test_controller_reset :
    (result (step { at' .idle 0x1488 0 3 (inPin .bank1 7) [.reset false] with halt := true, rsp := 0x0004 })).map
    (fun t => ((t.getX 3).bits, t.rsp, t.cmdReady)) = some (0b000000, 0x0000, true) := by decide
/-- 2.9: controller reset at T1 of `SETH x1`, the write in flight took effect. -/
theorem test_reset_in_flight :
    (result (step (at' .t1 0x8100 0xFE 1 (outPin .bank1 0) [.reset true]))).map
    (fun t => (t.devReg .bank1 .out, (t.getX 1).bits, t.rspValid)) = some (0xFF, 0b000000, false) := by decide
/-- 2.9: device reset, the handle is stale. -/
theorem test_device_reset :
    (result (step ((at' .idle 0 0 1 (outPin .bank1 0) [.deviceReset]).setDev 7 0xFE))).map
    (fun t => (t.devReg .bank1 .cfg, decide (Stale t 1))) = some (0xFF, true) := by decide
/-- R36, R51 and the defaults of R11. -/
theorem test_reset_device : (State.reset.devByte 4, State.reset.devByte 5, State.reset.devByte 6,
    State.reset.devByte 2) = (0x00, 0x00, 0xFF, 0xFF) := by decide
theorem test_decode_table_word : decodeTableWord 16 0x70C3 = some (.newo 0 .bank1 3 .high) ∧
    decodeTableWord 16 0x0000 = none := by decide

/-! ## The end of a run (R198) -/

/-- `I2I x0` on an input handle, then `DROP x0`: both answered. -/
theorem test_ended_well :
    endedWell 2 (at' .idle 0 0 0 (inPin .bank0 3) (script [(0x5000, []), (0xC000, [])])) = true := by decide
/-- A word presented while `ISHI x0` is in progress is never accepted (R100). -/
theorem test_word_while_busy_is_not_done :
    endedWell 3 (at' .idle 0 0 0 (inPin .bank0 3) ([.command 0x2000, .command 0xC000] ++ ok 0)) = false := by decide
/-- `ISHI x0` cut off by a controller reset is never answered (R191). -/
theorem test_word_cut_off_is_not_done :
    endedWell 2 (at' .idle 0 0 0 (inPin .bank0 3) [.command 0x2000, .reset false]) = false := by decide
/-- P5: the word after the contract violation is never accepted, before and after it is turned away. -/
theorem test_ended_badly :
    let s := at' .idle 0 0 3 (inPin .bank1 7) (script [(0x1488, []), (0xC300, [])]);
    endedBadly 1 s = true ∧ endedBadly 2 s = true ∧ endedWell 2 s = false := by decide

/-! ## States that meet the hypotheses of the obligations -/

theorem witness_DecodeOfEncodeIsTheInstruction :
    (Instr.newi 0 .bank0 0).wellFormed = true ∧ (Instr.newo 15 .bank1 15 .high).wellFormed = true :=
  by decide

theorem witness_EncodeOfDecodeIsTheWord :
    decode 0x7FCF = .ok (.newo 15 .bank1 15 .high) :=
  by decide

theorem witness_StepRunsTheAcceptedInstruction :
    let s := at' .idle 0 0 0 Handle.empty [.command 0x1F87];
    s.pc = .idle ∧ s.halt = false ∧ s.moves = .command 0x1F87 :: [] ∧ decode 0x1F87 = .ok (.newi 15 .bank1 7) :=
  by decide

theorem witness_StepRunsTheInstructionInProgress :
    (let s := at' .t0 0x2000 0 0 (inPin .bank0 0) [];
      s.pc ≠ .idle ∧ decode s.cmdr = .ok (.ishi 0) ∧ s.moves = []) ∧
    let s := at' .t3 0x7FC7 0 15 Handle.empty (ok 0);
    s.pc ≠ .idle ∧ decode s.cmdr = .ok (.newo 15 .bank1 7 .high) ∧ s.moves = .answer (.ok 0) :: [] :=
  by decide

theorem witness_WordWhileNotReadyHasNoEffect :
    (let s := at' .t0 0x2000 0 0 (inPin .bank0 0) [.command 0x3000];
      s.moves = .command 0x3000 :: [] ∧ s.pc ≠ .idle) ∧
    let s := { State.reset with halt := true, moves := [.command 0x3000] };
    s.moves = .command 0x3000 :: [] ∧ s.halt = true :=
  by decide

theorem witness_IllegalWordIsRefused :
    let s := at' .idle 0 0 0 Handle.empty [.command 0xFFFF];
    s.pc = .idle ∧ s.halt = false ∧ s.moves = .command 0xFFFF :: [] ∧ decode 0xFFFF = .error (.unknownOpcode 0xF) :=
  by decide

theorem witness_NewiReadsSetsAndWritesConfiguration :
    (0 < 8 ∧ 7 < 8 ∧ State.reset.params.regs.wf) ∧
    (at' .idle 0x1F87 0 15 Handle.empty []).pc = .idle ∧
    (let s := at' .t0 0x1F87 0x7F 15 Handle.empty (ok 0); s.pc = .t0 ∧ s.answer = .ok 0) ∧
    (let s := at' .t1 0x1F87 0x7F 15 Handle.empty (ok 0); s.pc = .t1 ∧ s.answer = .ok 0) :=
  by decide

theorem witness_IshiAnswersTheBitRead :
    State.reset.params.regs.wf ∧
    (let s := at' .idle 0x2F00 0 15 (inPin .bank1 7) []; s.pc = .idle ∧ (s.getX 15).valid = true ∧ (s.getX 15).role = .input) ∧
    (let s := at' .t0 0x2F00 0x7F 15 (inPin .bank1 7) (ok 0x80); s.pc = .t0 ∧ s.answer = .ok 0x80) :=
  by decide

theorem witness_IsloAnswersTheNegatedBitRead :
    State.reset.params.regs.wf ∧
    (let s := at' .idle 0x3F00 0 15 (inPin .bank1 7) []; s.pc = .idle ∧ (s.getX 15).valid = true ∧ (s.getX 15).role = .input) ∧
    (let s := at' .t0 0x3F00 0x7F 15 (inPin .bank1 7) (ok 0x80); s.pc = .t0 ∧ s.answer = .ok 0x80) :=
  by decide

theorem witness_SpolPutsThePolarityBit :
    State.reset.params.regs.wf ∧
    (let s := at' .idle 0x4F40 0 15 (inPin .bank1 7) []; s.pc = .idle ∧ (s.getX 15).valid = true ∧ (s.getX 15).role = .input) ∧
    (let s := at' .t0 0x4F40 0x7F 15 (inPin .bank1 7) (ok 0x80); s.pc = .t0 ∧ s.answer = .ok 0x80) ∧
    (let s := at' .t1 0x4F40 0x7F 15 (inPin .bank1 7) (ok 0x80); s.pc = .t1 ∧ s.answer = .ok 0x80) :=
  by decide

theorem witness_NewoProgramsOutputThenConfiguration :
    (0 < 8 ∧ 7 < 8 ∧ State.reset.params.regs.wf) ∧
    (at' .idle 0x7FC7 0 15 Handle.empty []).pc = .idle ∧
    (let s := at' .t0 0x7FC7 0x7F 15 Handle.empty (ok 0); s.pc = .t0 ∧ s.answer = .ok 0) ∧
    (let s := at' .t1 0x7FC7 0x7F 15 Handle.empty (ok 0); s.pc = .t1 ∧ s.answer = .ok 0) ∧
    (let s := at' .t2 0x7FC7 0x7F 15 Handle.empty (ok 0); s.pc = .t2 ∧ s.answer = .ok 0) ∧
    (let s := at' .t3 0x7FC7 0x7F 15 Handle.empty (ok 0); s.pc = .t3 ∧ s.answer = .ok 0) :=
  by decide

theorem witness_SethSetsTheOutputBit :
    State.reset.params.regs.wf ∧
    (let s := at' .idle 0x8F00 0 15 (outPin .bank1 7) []; s.pc = .idle ∧ (s.getX 15).valid = true ∧ (s.getX 15).role = .output) ∧
    (let s := at' .t0 0x8F00 0x7F 15 (outPin .bank1 7) (ok 0x80); s.pc = .t0 ∧ s.answer = .ok 0x80) ∧
    (let s := at' .t1 0x8F00 0x7F 15 (outPin .bank1 7) (ok 0x80); s.pc = .t1 ∧ s.answer = .ok 0x80) :=
  by decide

theorem witness_SetlClearsTheOutputBit :
    State.reset.params.regs.wf ∧
    (let s := at' .idle 0x9F00 0 15 (outPin .bank1 7) []; s.pc = .idle ∧ (s.getX 15).valid = true ∧ (s.getX 15).role = .output) ∧
    (let s := at' .t0 0x9F00 0x7F 15 (outPin .bank1 7) (ok 0x80); s.pc = .t0 ∧ s.answer = .ok 0x80) ∧
    (let s := at' .t1 0x9F00 0x7F 15 (outPin .bank1 7) (ok 0x80); s.pc = .t1 ∧ s.answer = .ok 0x80) :=
  by decide

theorem witness_I2iAndDropCompleteAtAcceptance :
    let s := at' .idle 0x5F00 0 15 (inPin .bank1 7) [];
    s.pc = .idle ∧ (s.getX 15).valid = true ∧ (s.getX 15).role = .input :=
  by decide

theorem witness_I2oProgramsOutputThenConfiguration :
    State.reset.params.regs.wf ∧
    (let s := at' .idle 0x6F40 0 15 (inPin .bank1 7) []; s.pc = .idle ∧ (s.getX 15).valid = true ∧ (s.getX 15).role = .input) ∧
    (let s := at' .t0 0x6F40 0x7F 15 (inPin .bank1 7) (ok 0x80); s.pc = .t0 ∧ s.answer = .ok 0x80) ∧
    (let s := at' .t1 0x6F40 0x7F 15 (inPin .bank1 7) (ok 0x80); s.pc = .t1 ∧ s.answer = .ok 0x80) ∧
    (let s := at' .t2 0x6F40 0x7F 15 (inPin .bank1 7) (ok 0x80); s.pc = .t2 ∧ s.answer = .ok 0x80) ∧
    (let s := at' .t3 0x6F40 0x7F 15 (inPin .bank1 7) (ok 0x80); s.pc = .t3 ∧ s.answer = .ok 0x80) :=
  by decide

theorem witness_TransitionO2iSetsTheConfigurationBit :
    State.reset.params.regs.wf ∧
    (let s := at' .idle 0xAF00 0 15 (outPin .bank1 7) []; s.pc = .idle ∧ (s.getX 15).valid = true ∧ (s.getX 15).role = .output) ∧
    (let s := at' .t0 0xAF00 0x7F 15 (outPin .bank1 7) (ok 0x80); s.pc = .t0 ∧ s.answer = .ok 0x80) ∧
    (let s := at' .t1 0xAF00 0x7F 15 (outPin .bank1 7) (ok 0x80); s.pc = .t1 ∧ s.answer = .ok 0x80) :=
  by decide

theorem witness_TransitionO2oPutsTheLevelBit :
    State.reset.params.regs.wf ∧
    (let s := at' .idle 0xBF40 0 15 (outPin .bank1 7) []; s.pc = .idle ∧ (s.getX 15).valid = true ∧ (s.getX 15).role = .output) ∧
    (let s := at' .t0 0xBF40 0x7F 15 (outPin .bank1 7) (ok 0x80); s.pc = .t0 ∧ s.answer = .ok 0x80) ∧
    (let s := at' .t1 0xBF40 0x7F 15 (outPin .bank1 7) (ok 0x80); s.pc = .t1 ∧ s.answer = .ok 0x80) :=
  by decide

theorem witness_IndexAboveSevenHalts :
    8 ≤ 8 ∧ 8 ≤ 15 ∧ (at' .idle 0x1008 0 0 Handle.empty []).pc = .idle :=
  by decide

theorem witness_WrongHandleIsRefused :
    (let s := at' .idle 0x2000 0 0 Handle.empty [];
      s.pc = .idle ∧ ¬ ((s.getX 0).valid = true ∧ (s.getX 0).role = .input)) ∧
    (let s := at' .idle 0x2000 0 0 (outPin .bank0 0) [];
      s.pc = .idle ∧ ¬ ((s.getX 0).valid = true ∧ (s.getX 0).role = .input)) ∧
    (let s := at' .idle 0x8F00 0 15 Handle.empty [];
      s.pc = .idle ∧ ¬ ((s.getX 15).valid = true ∧ (s.getX 15).role = .output)) ∧
    let s := at' .idle 0x8F00 0 15 (inPin .bank1 7) [];
    s.pc = .idle ∧ ¬ ((s.getX 15).valid = true ∧ (s.getX 15).role = .output) :=
  by decide

theorem witness_FailedReadAbortsTheCommand :
    (let s := at' .t0 0x2000 0 0 (inPin .bank0 0) (err 0xEE false);
      s.pc.txn = some 0 ∧ (commandOf (.ishi 0)).plan[0]? = some (.read .inp) ∧ s.answer = .err 0xEE false) ∧
    let s := at' .t2 0x6F40 0 15 (inPin .bank1 7) (err 0x5A true);
    s.pc.txn = some 2 ∧ (commandOf (.i2o 15 .high)).plan[2]? = some (.read .cfg) ∧ s.answer = .err 0x5A true :=
  by decide

theorem witness_FailedWriteLeavesOldOrNewByte :
    (let s := at' .t1 0x1000 0 0 Handle.empty (err 0x22 false);
      s.pc.txn = some 1 ∧ (commandOf (.newi 0 .bank0 0)).plan[1]? = some (.write .cfg .set) ∧
        s.answer = .err 0x22 false) ∧
    let s := at' .t3 0x6F40 0 15 (inPin .bank1 7) (err 0x5A true);
    s.pc.txn = some 3 ∧ (commandOf (.i2o 15 .high)).plan[3]? = some (.write .cfg .clear) ∧ s.answer = .err 0x5A true :=
  by decide

theorem witness_ReadMicroStep :
    (let s := at' .t0 0x2F00 0 15 (inPin .bank1 7) (ok 0x80);
      s.pc.txn = some 0 ∧ (commandOf (.ishi 15)).plan[0]? = some (.read .inp) ∧
        (∃ s', memRead (regSel s.params ((commandOf (.ishi 15)).bankOf s) .inp) s.quiet = (.ok 0x80, s')) ∧
        0 + 1 = (commandOf (.ishi 15)).plan.length) ∧
    (let s := at' .t2 0x6F40 0 15 (inPin .bank1 7) (ok 0);
      s.pc.txn = some 2 ∧ (commandOf (.i2o 15 .high)).plan[2]? = some (.read .cfg) ∧
        (∃ s', memRead (regSel s.params ((commandOf (.i2o 15 .high)).bankOf s) .cfg) s.quiet = (.ok 0xFF, s')) ∧
        2 + 1 < (commandOf (.i2o 15 .high)).plan.length) ∧
    let s := at' .t0 0x2F00 0 15 (inPin .bank1 7) (err 0xEE false);
    ∃ s', memRead (regSel s.params ((commandOf (.ishi 15)).bankOf s) .inp) s.quiet = (.error 0xEE, s') :=
  ⟨⟨by decide, by decide, ⟨_, rfl⟩, by decide⟩, ⟨by decide, by decide, ⟨_, rfl⟩, by decide⟩, ⟨_, rfl⟩⟩

theorem witness_WriteMicroStep :
    (let s := at' .t1 0x8F00 0x7F 15 (outPin .bank1 7) (ok 0);
      s.pc.txn = some 1 ∧ (commandOf (.seth 15)).plan[1]? = some (.write .out .set) ∧
        (∃ s', memWrite (regSel s.params ((commandOf (.seth 15)).bankOf s) .out)
          (BitMod.set.apply s.tmp ((commandOf (.seth 15)).idxOf s)) s.quiet = (.ok (), s')) ∧
        1 + 1 = (commandOf (.seth 15)).plan.length) ∧
    (let s := at' .t1 0x6F40 0x7F 15 (inPin .bank1 7) (ok 0);
      s.pc.txn = some 1 ∧ (commandOf (.i2o 15 .high)).plan[1]? = some (.write .out .set) ∧
        (∃ s', memWrite (regSel s.params ((commandOf (.i2o 15 .high)).bankOf s) .out)
          (BitMod.set.apply s.tmp ((commandOf (.i2o 15 .high)).idxOf s)) s.quiet = (.ok (), s')) ∧
        1 + 1 < (commandOf (.i2o 15 .high)).plan.length) ∧
    let s := at' .t1 0x8F00 0x7F 15 (outPin .bank1 7) (err 0x42 true);
    ∃ s', memWrite (regSel s.params ((commandOf (.seth 15)).bankOf s) .out)
      (BitMod.set.apply s.tmp ((commandOf (.seth 15)).idxOf s)) s.quiet = (.error 0x42, s') :=
  ⟨⟨by decide, by decide, ⟨_, rfl⟩, by decide⟩, ⟨by decide, by decide, ⟨_, rfl⟩, by decide⟩, ⟨_, rfl⟩⟩

theorem witness_PlansAlternateReadAndWrite :
    (commandOf (.spol 0 .inverse)).plan[0]? = some (.read .pol) ∧
    (commandOf (.spol 0 .inverse)).plan[1]? = some (.write .pol .set) ∧
    (commandOf (.newo 15 .bank1 7 .low)).plan[3]? = some (.write .cfg .clear) :=
  by decide

theorem witness_PortShowsThePlannedTransaction :
    (let s := at' .t0 0x2000 0 0 (inPin .bank0 0) (err 0xEE false);
      s.pc.txn = some 0 ∧ (∃ t, exec (.ishi 0) s = .next t) ∧
        (commandOf (.ishi 0)).plan[0]? = some (.read .inp)) ∧
    let s := at' .t3 0x7FC7 0xFF 15 Handle.empty (ok 0);
    s.pc.txn = some 3 ∧ (∃ t, exec (.newo 15 .bank1 7 .high) s = .next t) ∧
      (commandOf (.newo 15 .bank1 7 .high)).plan[3]? = some (.write .cfg .clear) :=
  ⟨⟨by decide, ⟨_, rfl⟩, by decide⟩, ⟨by decide, ⟨_, rfl⟩, by decide⟩⟩

theorem witness_BitOperationLaws :
    (7 : PinIdx) ≠ 0 ∧ bit 0x80 7 = true ∧ bit 0x7F 7 = false :=
  by decide

theorem witness_ControllerResetValues :
    (at' .t1 0x8F00 0xFE 15 (outPin .bank1 7) [.reset true]).moves = .reset true :: [] :=
  by decide

theorem witness_ControllerResetKeepsTheDevice :
    (let s := at' .t1 0x8F00 0x7F 15 (outPin .bank1 7) [.reset true];
      s.moves = .reset true :: [] ∧ inFlightWrite s = some (3, 0xFF)) ∧
    (let s := at' .t1 0x8F00 0x7F 15 (outPin .bank1 7) [.reset false];
      s.moves = .reset false :: []) ∧
    let s := at' .idle 0x8F00 0x7F 15 (outPin .bank1 7) [.reset true];
    s.moves = .reset true :: [] ∧ inFlightWrite s = none ∧ s.pc = .idle :=
  by decide

theorem witness_DeviceResetRestoresTheDevice :
    let s := at' .t2 0x7180 0xFF 1 Handle.empty [.deviceReset];
    s.params.regs.wf ∧ s.moves = .deviceReset :: [] :=
  by decide

theorem witness_PowerUpValues :
    Params.default.regs.wf ∧ RegMap.wf ⟨7, 6, 5, 4, 3, 2, 1, 0⟩ :=
  by decide

theorem witness_OtherMastersWriteIsLost :
    let s := at' .t1 0x8F00 0x7F 15 (outPin .bank1 7) [.otherMaster 3 0x00, .answer (.ok 0)];
    s.params.regs.wf ∧ s.pc = .t1 ∧ decode s.cmdr = .ok (.seth 15) ∧
      s.moves = .otherMaster (regSel s.params (s.getX 15).bank .out) 0x00 :: .answer (.ok 0) :: [] :=
  by decide

theorem witness_InstructionsThatStoreNothing :
    (∃ t, exec (.ishi 0) (at' .t0 0x2000 0x7F 0 (inPin .bank0 0) (ok 0)) = .next t) ∧
    (∃ t, exec (.islo 15) (at' .t0 0x3F00 0x7F 15 (inPin .bank1 7) (ok 0)) = .next t) ∧
    (∃ t, exec (.i2i 15) (at' .idle 0x5F00 0x7F 15 (inPin .bank1 7) (ok 0)) = .next t) ∧
    (∃ t, exec (.drop 15) (at' .idle 0xCF00 0x7F 15 (outPin .bank1 7) (ok 0)) = .next t) :=
  ⟨⟨_, rfl⟩, ⟨_, rfl⟩, ⟨_, rfl⟩, ⟨_, rfl⟩⟩

theorem witness_InstructionsThatStoreOnce :
    (∃ t, exec (.newi 15 .bank1 7) (at' .t1 0x1F87 0x7F 15 Handle.empty (ok 0)) = .next t) ∧
    (∃ t, exec (.newi 15 .bank1 8) (at' .idle 0x1F88 0x7F 15 Handle.empty (ok 0)) = .next t) ∧
    (∃ t, exec (.o2i 15) (at' .t1 0xAF00 0x7F 15 (outPin .bank1 7) (ok 0)) = .next t) ∧
    (∃ t, exec (.spol 15 .inverse) (at' .t0 0x4F40 0x7F 15 (inPin .bank1 7) (ok 0)) = .next t) ∧
    (∃ t, exec (.spol 15 .inverse) (at' .t1 0x4F40 0x7F 15 (inPin .bank1 7) (ok 0)) = .next t) ∧
    (∃ t, exec (.seth 15) (at' .t1 0x8F00 0x7F 15 (outPin .bank1 7) (ok 0)) = .next t) ∧
    (∃ t, exec (.setl 15) (at' .t1 0x9F00 0x7F 15 (outPin .bank1 7) (ok 0)) = .next t) ∧
    (∃ t, exec (.o2o 15 .low) (at' .t1 0xBF00 0x7F 15 (outPin .bank1 7) (err 0x62 true)) = .next t) :=
  ⟨⟨_, rfl⟩, ⟨_, rfl⟩, ⟨_, rfl⟩, ⟨_, rfl⟩, ⟨_, rfl⟩, ⟨_, rfl⟩, ⟨_, rfl⟩, ⟨_, rfl⟩⟩

theorem witness_InstructionsThatStoreTwice :
    (∃ t, exec (.newo 15 .bank1 7 .high) (at' .t1 0x7FC7 0x7F 15 Handle.empty (ok 0)) = .next t) ∧
    (∃ t, exec (.newo 15 .bank1 7 .high) (at' .t3 0x7FC7 0x7F 15 Handle.empty (ok 0)) = .next t) ∧
    (∃ t, exec (.newo 15 .bank1 8 .high) (at' .idle 0x7FC8 0x7F 15 Handle.empty (ok 0)) = .next t) ∧
    (∃ t, exec (.i2o 15 .low) (at' .t0 0x6F00 0x7F 15 (inPin .bank1 7) (ok 0)) = .next t) ∧
    (∃ t, exec (.i2o 15 .low) (at' .t3 0x6F00 0x7F 15 (inPin .bank1 7) (ok 0)) = .next t) :=
  ⟨⟨_, rfl⟩, ⟨_, rfl⟩, ⟨_, rfl⟩, ⟨_, rfl⟩, ⟨_, rfl⟩⟩

theorem witness_StepKeepsLegal :
    let s := (at' .t3 0x7FC7 0xFF 15 Handle.empty (ok 0));
    Legal s ∧ ∃ t, step s = .next t :=
  ⟨by decide, _, rfl⟩

theorem witness_PowerUpIsLegal :
    Params.default.regs.wf :=
  by decide

theorem witness_LegalStateNeverStops :
    Legal (at' .t3 0x7FC7 0xFF 15 Handle.empty []) ∧ Legal State.reset :=
  by decide

theorem witness_DeviceChangesOnlyByThePlannedWrite :
    let s := (at' .t3 0x7FC7 0xFF 15 Handle.empty (ok 0));
    Undisturbed s ∧ ∃ t, step s = .next t ∧ t.devByte 7 ≠ s.devByte 7 :=
  ⟨by decide, _, rfl, by decide⟩

theorem witness_StepKeepsTmpFresh :
    let s := at' .t2 0x7FC7 0x00 15 Handle.empty (ok 0);
    Legal s ∧ freshOk s = true ∧ Undisturbed s ∧ ∃ t, step s = .next t :=
  ⟨by decide, by decide, by decide, _, rfl⟩

theorem witness_OnlyThePinsBitChanges :
    let s := (at' .t3 0x7FC7 0xFF 15 Handle.empty (ok 0));
    Legal s ∧ freshOk s = true ∧ Undisturbed s ∧ ∃ t, step s = .next t ∧ bit (t.devReg .bank1 .cfg) 7 ≠ bit (s.devReg .bank1 .cfg) 7 :=
  ⟨by decide, by decide, by decide, _, rfl, by decide⟩

theorem witness_StepKeepsTheLevelSeeded :
    let s := at' .t1 0x7F87 0xFF 15 Handle.empty (ok 0);
    Legal s ∧ seededOk s = true ∧ Undisturbed s ∧ ∃ t, step s = .next t :=
  ⟨by decide, by decide, by decide, _, rfl⟩

theorem witness_OutputLevelIsProgrammedBeforeDirection :
    let s := (at' .t3 0x7FC7 0xFF 15 Handle.empty (ok 0));
    Legal s ∧ freshOk s = true ∧ seededOk s = true ∧ Undisturbed s ∧ hwRole s .bank1 7 = .input ∧ ∃ t, step s = .next t ∧ hwRole t .bank1 7 = .output :=
  ⟨by decide, by decide, by decide, by decide, by decide, _, rfl, by decide⟩

theorem witness_PolarityChangesOnlyBySpol :
    let s := at' .t1 0x4F40 0x00 15 (inPin .bank1 7) (ok 0);
    s.params.regs.wf ∧ ∃ t, step s = .next t ∧ Undisturbed s ∧ t.devReg .bank1 .pol ≠ s.devReg .bank1 .pol :=
  ⟨by decide, _, rfl, by decide, by decide⟩

theorem witness_HandleChangesOnlyWhenItsCommandEnds :
    let s := (at' .t3 0x7FC7 0xFF 15 Handle.empty (ok 0));
    ∃ t, step s = .next t ∧ t.getX 15 ≠ s.getX 15 :=
  ⟨_, rfl, by decide⟩

theorem witness_BankAndIndexOfAPinNeverChange :
    (let s := at' .t3 0x6F40 0xFF 15 (inPin .bank1 7) (ok 0);
      ∃ t, step s = .next t ∧ (s.getX 15).valid = true ∧ (t.getX 15).valid = true) ∧
    let s := at' .t1 0x1000 0xFF 0 (outPin .bank1 7) (ok 0);
    ∃ t, step s = .next t ∧ (s.getX 0).valid = true ∧ (t.getX 0).valid = true :=
  ⟨⟨_, rfl, by decide, by decide⟩, ⟨_, rfl, by decide, by decide⟩⟩

theorem witness_PinObjectsComeOnlyFromConstructors :
    let s := (at' .t3 0x7FC7 0xFF 15 Handle.empty (ok 0));
    Legal s ∧ ∃ t, step s = .next t ∧ (s.getX 15).valid = false ∧ (t.getX 15).valid = true :=
  ⟨by decide, _, rfl, by decide, by decide⟩

theorem witness_HandleAgreesAfterTheRoleIsWritten :
    (let s := at' .t1 0x1F87 0x7F 15 Handle.empty (ok 0);
      s.params.regs.wf ∧ s.pc ≠ .idle ∧ ∃ t, exec (.newi 15 .bank1 7) s = .next t ∧ t.rspValid = true ∧
        rspSt t.rsp = Status.ok.code) ∧
    (let s := at' .t3 0x7FC7 0xFF 15 Handle.empty (ok 0);
      s.params.regs.wf ∧ s.pc ≠ .idle ∧ ∃ t, exec (.newo 15 .bank1 7 .high) s = .next t ∧ t.rspValid = true ∧
        rspSt t.rsp = Status.ok.code) ∧
    (let s := at' .t3 0x6000 0xFF 0 (inPin .bank0 0) (ok 0);
      s.params.regs.wf ∧ s.pc ≠ .idle ∧ ∃ t, exec (.i2o 0 .low) s = .next t ∧ t.rspValid = true ∧
        rspSt t.rsp = Status.ok.code) ∧
    (let s := at' .t1 0xA000 0xFE 0 (outPin .bank0 0) (ok 0);
      s.params.regs.wf ∧ s.pc ≠ .idle ∧ ∃ t, exec (.o2i 0) s = .next t ∧ t.rspValid = true ∧
        rspSt t.rsp = Status.ok.code) :=
  ⟨⟨by decide, by decide, _, rfl, by decide, by decide⟩, ⟨by decide, by decide, _, rfl, by decide, by decide⟩, ⟨by decide, by decide, _, rfl, by decide, by decide⟩, ⟨by decide, by decide, _, rfl, by decide, by decide⟩⟩

theorem witness_DeviceContentNeverSteersTheController :
    (∃ t, exec (.ishi 15) (at' .t0 0x2F00 0x7F 15 (inPin .bank1 7) (ok 0)) = .next t) ∧
    (∃ t, exec (.seth 15) (at' .t1 0x8F00 0x7F 15 (outPin .bank1 7) (ok 0)) = .next t) :=
  ⟨⟨_, rfl⟩, ⟨_, rfl⟩⟩

theorem witness_LatchesChangeOnlyAsTheRulesSay :
    (let s := at' .idle 0 0 0 Handle.empty [.command 0x1000];
      ∃ t, step s = .next t ∧ t.cmdr ≠ s.cmdr ∧ t.pc ≠ s.pc) ∧
    (let s := at' .t0 0x2F00 0 15 (inPin .bank1 7) (ok 0x80);
      ∃ t, step s = .next t ∧ t.tmp ≠ s.tmp ∧ t.rsp ≠ s.rsp ∧ t.pc ≠ s.pc) ∧
    (let s := at' .t2 0x7FC7 0 15 Handle.empty (ok 0);
      ∃ t, step s = .next t ∧ t.tmp ≠ s.tmp ∧ t.pc ≠ s.pc) ∧
    (let s := at' .t3 0x7FC7 0 15 Handle.empty (err 0x34 false);
      ∃ t, step s = .next t ∧ t.rsp ≠ s.rsp ∧ t.pc ≠ s.pc) ∧
    let s := at' .t1 0x8F00 0x7F 15 (outPin .bank1 7) [.reset false];
    ∃ t, step s = .next t ∧ t.cmdr ≠ s.cmdr ∧ t.tmp ≠ s.tmp ∧ t.pc ≠ s.pc :=
  ⟨⟨_, rfl, by decide, by decide⟩, ⟨_, rfl, by decide, by decide, by decide⟩, ⟨_, rfl, by decide, by decide⟩,
    ⟨_, rfl, by decide, by decide⟩, ⟨_, rfl, by decide, by decide, by decide⟩⟩

theorem witness_HaltIsSetOnlyByAContractViolation :
    let s := at' .idle 0 0 0 Handle.empty [.command 0x1008];
    s.halt = false ∧ ∃ t, step s = .next t ∧ t.halt = true :=
  ⟨by decide, _, rfl, by decide⟩

theorem witness_HaltIsLeftOnlyByReset :
    let s := { State.reset with halt := true, moves := [.command 0xC300] };
    HaltedIdle s ∧ s.halt = true ∧ resetsNext s = false ∧ ∃ t, step s = .next t :=
  ⟨by decide, by decide, by decide, _, rfl⟩

theorem witness_CommandInProgressEnds :
    (let s := at' .t0 0x7FC7 0xFF 15 Handle.empty [];
      Legal s ∧ OnlyAnswers s ∧ s.pc ≠ .idle) ∧
    let s := at' .t3 0x7FC7 0xFF 15 Handle.empty (ok 0);
    Legal s ∧ OnlyAnswers s ∧ s.pc ≠ .idle :=
  by decide

theorem witness_NewiConstructsAnInputPin :
    let s := at' .idle 0 0 15 Handle.empty [.command 0x1F87, .answer (.ok 0), .answer (.ok 0)];
    Legal s ∧ s.cmdReady = true ∧
      s.moves = .command (encode (.newi 15 .bank1 (7 : PinIdx).val)) :: .answer (.ok 0) :: .answer (.ok 0) :: [] :=
  by decide

theorem witness_NewoConstructsAnOutputPin :
    let s := at' .idle 0 0 15 Handle.empty (script [(0x7FC7, [.ok 0, .ok 0, .ok 0, .ok 0])]);
    Legal s ∧ s.cmdReady = true ∧ s.moves = .command (encode (.newo 15 .bank1 (7 : PinIdx).val .high)) ::
      .answer (.ok 0) :: .answer (.ok 0) :: .answer (.ok 0) :: .answer (.ok 0) :: [] :=
  by decide

theorem witness_IshiAndIsloAnswerTheirOwnReads :
    let s := at' .idle 0 0 15 (inPin .bank1 7) (script [(0x2F00, [.ok 0x80]), (0x3F00, [.ok 0x80])]);
    Legal s ∧ s.cmdReady = true ∧ (s.getX 15).valid = true ∧ (s.getX 15).role = .input ∧
      s.moves = .command (encode (.ishi 15)) :: .answer (.ok 0x80) :: .command (encode (.islo 15)) ::
        .answer (.ok 0x80) :: [] :=
  by decide

theorem witness_InverseThenNormalRestoresPolarity :
    let ms := script [(encode (.spol 15 .inverse), [.ok 0, .ok 0]), (encode (.spol 15 .normal), [.ok 0, .ok 0])];
    let s := at' .idle 0 0 15 (inPin .bank1 7) ms;
    Legal s ∧ s.cmdReady = true ∧ (s.getX 15).valid = true ∧ (s.getX 15).role = .input ∧ s.moves = ms ++ [] ∧
      bit (s.devReg (s.getX 15).bank .pol) (s.getX 15).idx = false :=
  by decide

theorem witness_InputOutputInputRoundTrip :
    let ms := script [(encode (.newi 15 .bank1 (7 : PinIdx).val), [.ok 0, .ok 0]),
      (encode (.i2o 15 .high), [.ok 0, .ok 0, .ok 0, .ok 0]), (encode (.o2i 15), [.ok 0, .ok 0])];
    let s := at' .idle 0 0 15 Handle.empty ms;
    Legal s ∧ s.cmdReady = true ∧ s.moves = ms ++ [] :=
  by decide

theorem witness_FailedTransitionLosesThePin :
    (let ms := script [(encode (.i2o 15 .high), ([0, 0, 0] : List Byte).map .ok ++ [.err 0x5A true]),
        (encode (.seth 15), [])];
      let s := at' .idle 0 0 15 (inPin .bank1 7) ms;
      Legal s ∧ s.cmdReady = true ∧ (s.getX 15).valid = true ∧ (s.getX 15).role = .input ∧
        3 < (commandOf (.i2o 15 .high)).plan.length ∧ s.moves = ms ++ []) ∧
    (let ms := script [(encode (.o2i 0), ([] : List Byte).map .ok ++ [.err 0x61 false]), (encode (.ishi 0), [])];
      let s := at' .idle 0 0 0 (outPin .bank0 0) ms;
      Legal s ∧ s.cmdReady = true ∧ (s.getX 0).valid = true ∧ (s.getX 0).role = .output ∧
        0 < (commandOf (.o2i 0)).plan.length ∧ s.moves = ms ++ []) ∧
    let ms := script [(encode (.o2o 0 .low), ([0] : List Byte).map .ok ++ [.err 0x62 false]), (encode (.o2o 0 .low), [])];
    let s := at' .idle 0 0 0 (outPin .bank0 0) ms;
    Legal s ∧ s.cmdReady = true ∧ (s.getX 0).valid = true ∧ (s.getX 0).role = .output ∧
      1 < (commandOf (.o2o 0 .low)).plan.length ∧ s.moves = ms ++ [] :=
  ⟨⟨by decide, by decide, by decide, by decide, by decide, by decide⟩, ⟨by decide, by decide, by decide, by decide, by decide, by decide⟩,
    ⟨by decide, by decide, by decide, by decide, by decide, by decide⟩⟩

end Sys2Proof.Tests
end

section
/-! PROOFS. Legal states: where they come from (power-up), that every step keeps them, and that the machine never stops
in one (O37, O38, O39).

A legal state is cut in two. `StorageLegal` holds the device registers and the handle registers, which are lawful wherever
the sequencer stands. The rest depends on the position: in `IDLE` only `RSP` is left to ask about, in `Tn` the command in
progress is described by `InProgress`. `legal_iff` says that this is all of `Legal`; each micro-step is then shown to lead
from the one form to the other. -/

namespace Sys2Proof.Machine

/-! ## The two parts of a legal state -/

/-- The registers of a legal state that are lawful wherever the sequencer stands: those of the device and the pin
handles. -/
def StorageLegal (s : State) : Prop := DeviceLegal s ∧ HandlesWf s

/-- The controller at transaction `n` of the instruction `i`: it is running, the word in `CMDR` is that of `i`, whose
checks passed and whose plan has the transaction (R24, R101). -/
structure InProgress (i : Instr) (n : Nat) (s : State) : Prop where
  running : s.halt = false
  position : s.pc.txn = some n
  word : decode s.cmdr = .ok i
  planned : n < (commandOf i).plan.length
  indexOk : (commandOf i).breaksContract = false
  handleOk : (commandOf i).handleOk s = true

theorem StorageLegal.congr {s t : State} (h : StorageLegal s) (hx : t.x = s.x) (hm : t.mem = s.mem)
    (hp : t.params = s.params) : StorageLegal t := by
  simpa only [StorageLegal, DeviceLegal, NoInputCell, HandlesWf, State.getX, hx, hm, hp] using h

theorem InProgress.congr {i : Instr} {n : Nat} {s t : State} (h : InProgress i n s) (hh : t.halt = s.halt)
    (hpc : t.pc = s.pc) (hw : t.cmdr = s.cmdr) (hx : t.x = s.x) : InProgress i n t where
  running := hh ▸ h.running
  position := hpc ▸ h.position
  word := hw ▸ h.word
  planned := h.planned
  indexOk := h.indexOk
  handleOk := by
    rw [Command.handleOk_congr _ (show t.getX _ = s.getX _ by simp only [State.getX, hx])]
    exact h.handleOk

theorem InProgress.pc_ne_idle {i : Instr} {n : Nat} {s : State} (h : InProgress i n s) : s.pc ≠ .idle := by
  intro hpc
  simpa [hpc, SeqPos.txn] using h.position

/-- With a command in progress, `inProgressOk` asks for what `InProgress` says of it. -/
theorem inProgressOk_iff {s : State} {n : Nat} (hpc : s.pc.txn = some n) :
    inProgressOk s = true ↔ ∃ i, decode s.cmdr = .ok i ∧ n < (commandOf i).plan.length ∧
      (commandOf i).breaksContract = false ∧ (commandOf i).handleOk s = true := by
  cases hd : decode s.cmdr <;> simp [inProgressOk, hpc, hd, and_assoc]

theorem inProgressOk_idle {s : State} (hpc : s.pc = .idle) : inProgressOk s = true := by
  simp [inProgressOk, hpc, SeqPos.txn]

/-- A legal state has lawful registers and response, and is idle or at a transaction of its command. -/
theorem legal_iff (s : State) :
    Legal s ↔ StorageLegal s ∧ ResponseLegal s.rsp ∧ (s.pc = .idle ∨ ∃ i n, InProgress i n s) := by
  constructor
  · rintro ⟨hp, hm, hn, hx, hhalt, hprog, hrsp⟩
    refine ⟨⟨⟨hp, hm, hn⟩, hx⟩, hrsp, ?_⟩
    by_cases hpc : s.pc = .idle
    · exact .inl hpc
    · obtain ⟨n, htxn⟩ := SeqPos.txn_of_ne_idle hpc
      obtain ⟨i, hword, hplan, hindex, hhandle⟩ := (inProgressOk_iff htxn).mp hprog
      have hrun : s.halt = false := Bool.eq_false_iff.mpr fun h => hpc (hhalt h)
      exact .inr ⟨i, n, hrun, htxn, hword, hplan, hindex, hhandle⟩
  · rintro ⟨⟨⟨hp, hm, hn⟩, hx⟩, hrsp, hpc | ⟨i, n, h⟩⟩
    · exact ⟨hp, hm, hn, hx, fun _ => hpc, inProgressOk_idle hpc, hrsp⟩
    · have hprog := (inProgressOk_iff h.position).mpr ⟨i, h.word, h.planned, h.indexOk, h.handleOk⟩
      exact ⟨hp, hm, hn, hx, fun hh => absurd hh (by simp [h.running]), hprog, hrsp⟩

theorem Legal.storage {s : State} (h : Legal s) : StorageLegal s := ((legal_iff s).mp h).1

theorem Legal.response {s : State} (h : Legal s) : ResponseLegal s.rsp := ((legal_iff s).mp h).2.1

theorem Legal.inProgress {s : State} (h : Legal s) (hpc : s.pc ≠ .idle) : ∃ i n, InProgress i n s :=
  ((legal_iff s).mp h).2.2.resolve_left hpc

theorem legal_of_idle {s : State} (h : StorageLegal s) (hrsp : ResponseLegal s.rsp) (hpc : s.pc = .idle) : Legal s :=
  (legal_iff s).mpr ⟨h, hrsp, .inl hpc⟩

theorem InProgress.legal {i : Instr} {n : Nat} {s : State} (h : InProgress i n s) (hs : StorageLegal s)
    (hrsp : ResponseLegal s.rsp) : Legal s :=
  (legal_iff s).mpr ⟨hs, hrsp, .inr ⟨i, n, h⟩⟩

/-- Legality does not look at what is driven on the ports, nor at the moves to come. -/
theorem Legal.quiet_withMoves {s : State} (h : Legal s) (ms : List Move) : Legal (s.withMoves ms).quiet := h

/-- A word is taken in `IDLE` by a controller that is not halted (R29, R100). -/
theorem cmdReady_iff (s : State) : s.cmdReady = true ↔ s.pc = .idle ∧ s.halt = false := by
  simp [State.cmdReady]

/-! ## What keeps the registers lawful -/

theorem StorageLegal.setDev {s : State} (h : StorageLegal s) (r : RegisterId) (v : Byte)
    (hr : isInputReg s.params r = false) : StorageLegal (s.setDev r v) :=
  ⟨h.1.setDev r v hr, h.2⟩

/-- The byte a plan writes goes to a storage register (R57, R102). -/
theorem StorageLegal.setDev_planned {i : Instr} {n : Nat} {f : Fn} {m : BitMod} {s : State} (h : StorageLegal s)
    (hf : (commandOf i).plan[n]? = some (.write f m)) (b : Bank) (v : Byte) :
    StorageLegal (s.setDev (regSel s.params b f) v) := by
  have hregs : s.params.regs.wf := h.1.1
  exact h.setDev _ v (isInputReg_eq_false hregs b (write_ne_inp hf))

theorem StorageLegal.apply {s : State} (h : StorageLegal s) (e : HandleEffect) (c : Command) :
    StorageLegal (e.apply c s) := by
  refine ⟨?_, h.2.apply e c⟩
  simpa only [DeviceLegal, NoInputCell, HandleEffect.apply_params, HandleEffect.apply_mem] using h.1

/-- A device list without entries is lawful for every injective register map (R36). -/
theorem deviceLegal_of_mem_nil {s : State} (hp : s.params.regs.wf) (hm : s.mem = []) : DeviceLegal s := by
  refine ⟨hp, ?_, ?_⟩
  · rw [hm]; exact Memory.wf_nil _
  · simp [NoInputCell, hm]

/-- Sixteen empty handle registers are well-formed (R21, R35). -/
theorem handlesWf_of_all_empty {s : State} (hx : s.x = Vector.replicate 16 Handle.empty) : HandlesWf s := by
  intro k
  have hk : s.getX k = Handle.empty := by simp [State.getX, hx]
  rw [hk]; rfl

/-- The response register's reset value is the word of an `OK` with result 0 (R35, R90). -/
theorem responseLegal_zero : ResponseLegal 0 :=
  responseLegal_rspWord .ok false 0 0 (fun _ => ⟨rfl, rfl⟩) (fun _ => rfl)

/-! ## The end of a command -/

/-- A response ends a command in a legal state when the fields its status does not use are 0 (R90). -/
theorem StorageLegal.respond_legal {s : State} (h : StorageLegal s) (st : Status) (val : Bool) (n : Nat) (e : DevErr)
    (herr : st ≠ .devErr → e = 0 ∧ BitVec.ofNat 2 n = 0) (hval : st ≠ .ok → val = false) :
    Legal (respond st val n e s) :=
  legal_of_idle (h.congr rfl rfl rfl) (responseLegal_rspWord st val _ e herr hval) rfl

theorem StorageLegal.raise_legal {s : State} (h : StorageLegal s) (c : Cause) : Legal (raise c s) := by
  cases c with
  | illegal => exact h.respond_legal .illegal false 0 0 (fun _ => ⟨rfl, rfl⟩) (fun _ => rfl)
  | badHandle => exact h.respond_legal .badHandle false 0 0 (fun _ => ⟨rfl, rfl⟩) (fun _ => rfl)
  | contract =>
    have hhalt : StorageLegal { s with halt := true } := h.congr rfl rfl rfl
    exact hhalt.respond_legal .contract false 0 0 (fun _ => ⟨rfl, rfl⟩) (fun _ => rfl)
  | devFail n e => exact h.respond_legal .devErr false n e (fun hne => absurd rfl hne) (fun _ => rfl)

theorem StorageLegal.complete_legal {s : State} (h : StorageLegal s) (c : Command) : Legal (complete c s) :=
  (h.apply c.onOk c).respond_legal .ok _ 0 0 (fun _ => ⟨rfl, rfl⟩) (fun hne => absurd rfl hne)

theorem StorageLegal.abort_legal {s : State} (h : StorageLegal s) (c : Command) (n : Nat) (e : DevErr) :
    Legal (abort c n e s) :=
  (h.apply c.onErr c).raise_legal (.devFail n e)

/-! ## The micro-steps of a command -/

/-- A transaction of the plan that is not the last leaves the command in progress at the next one (R24, R112). -/
theorem InProgress.setPc_succ {i : Instr} {n : Nat} {s : State} (h : InProgress i n s)
    (hn : n + 1 ≠ (commandOf i).plan.length) : InProgress i (n + 1) (s.setPc s.pc.succ) := by
  have hlt : n + 1 < (commandOf i).plan.length := by have := h.planned; omega
  have hle := plan_length_le i
  exact ⟨h.running, SeqPos.txn_succ h.position (by omega), h.word, hlt, h.indexOk, h.handleOk⟩

/-- After a transaction that answered `Ok` (R103, R104). -/
theorem InProgress.advance_legal {i : Instr} {n : Nat} {s : State} (h : InProgress i n s) (hs : StorageLegal s)
    (hrsp : ResponseLegal s.rsp) : Legal (advance (commandOf i) n s) := by
  rcases advance_cases (commandOf i) n s with ⟨_, ht⟩ | ⟨hn, ht⟩ <;> rw [ht]
  · exact hs.complete_legal _
  · exact (h.setPc_succ hn).legal (hs.congr rfl rfl rfl) hrsp

/-- The acceptance of a word that decodes (R101). -/
theorem accept_legal {i : Instr} {s : State} (hs : StorageLegal s) (hrsp : ResponseLegal s.rsp)
    (hrun : s.halt = false) (hword : decode s.cmdr = .ok i) : Legal (accept (commandOf i) s) := by
  rcases accept_cases (commandOf i) s with ⟨_, ht⟩ | ⟨_, _, ht⟩ | ⟨_, _, _, ht⟩ | ⟨hindex, hhandle, hplan, ht⟩ <;> rw [ht]
  · exact hs.raise_legal _
  · exact hs.raise_legal _
  · exact hs.complete_legal _
  · have hprog : InProgress i 0 (s.setPc .t0) :=
      ⟨hrun, rfl, hword, List.length_pos_iff.mpr hplan, hindex, hhandle⟩
    exact hprog.legal (hs.congr rfl rfl rfl) hrsp

/-- The read micro-step (R103). -/
theorem InProgress.readStep_legal {i : Instr} {n : Nat} {s : State} (h : InProgress i n s) (hs : StorageLegal s)
    (hrsp : ResponseLegal s.rsp) (f : Fn) : Legal (readStep (commandOf i) n f s) := by
  rcases readStep_cases (commandOf i) n f s with ⟨_, _, ht⟩ | ⟨e, _, _, ht⟩ <;> rw [ht]
  · refine InProgress.advance_legal ?_ ?_ hrsp
    · exact h.congr rfl rfl rfl rfl
    · exact hs.congr rfl rfl rfl
  · refine StorageLegal.abort_legal ?_ _ _ _
    exact hs.congr rfl rfl rfl

/-- The write micro-step, whatever the device made of a failed write (R55, R104). -/
theorem InProgress.writeStep_legal {i : Instr} {n : Nat} {s : State} (h : InProgress i n s) (hs : StorageLegal s)
    (hrsp : ResponseLegal s.rsp) {f : Fn} {m : BitMod} (hf : (commandOf i).plan[n]? = some (.write f m)) :
    Legal (writeStep (commandOf i) n f m s) := by
  have hpresent : ∀ txn, StorageLegal (s.afterAnswer.present txn) := fun _ => hs.congr rfl rfl rfl
  rcases writeStep_cases (commandOf i) n f m s with ⟨_, _, ht⟩ | ⟨e, _, ht⟩ | ⟨e, _, ht⟩ <;> rw [ht]
  · refine InProgress.advance_legal ?_ ((hpresent _).setDev_planned hf _ _) hrsp
    exact h.congr rfl rfl rfl rfl
  · exact ((hpresent _).setDev_planned hf _ _).abort_legal _ _ _
  · exact (hpresent _).abort_legal _ _ _

/-- A word that decodes is accepted into a legal state. -/
theorem exec_latch_legal {i : Instr} {w : Word} {ms : List Move} {s t : State} (h : Legal s)
    (hready : s.cmdReady = true) (hword : decode w = .ok i)
    (ht : exec i ((s.withMoves ms).latch w) = .next t) : Legal t := by
  obtain ⟨hpc, hrun⟩ := (cmdReady_iff s).mp hready
  rw [exec_idle (show ((s.withMoves ms).latch w).pc = .idle from hpc)] at ht
  injection ht with ht
  exact ht ▸ accept_legal (h.storage.congr rfl rfl rfl) h.response hrun hword

/-- A transaction of the command in progress leads to a legal state. -/
theorem InProgress.exec_legal {i : Instr} {n : Nat} {s t : State} (h : InProgress i n s) (hs : StorageLegal s)
    (hrsp : ResponseLegal s.rsp) (ht : exec i s = .next t) : Legal t := by
  have hq : InProgress i n s.quiet := h.congr rfl rfl rfl rfl
  have hsq : StorageLegal s.quiet := hs.congr rfl rfl rfl
  have same : ∀ k, s.pc.txn = some k → k = n := fun k hk => Option.some.inj (hk.symm.trans h.position)
  rw [exec_eq] at ht
  rcases runCommand_next ht with ⟨hpc, _⟩ | ⟨k, f, hk, _, rfl⟩ | ⟨k, f, m, hk, hf, rfl⟩
  · exact absurd hpc h.pc_ne_idle
  · obtain rfl := same k hk
    exact hq.readStep_legal hsq hrsp f
  · obtain rfl := same k hk
    exact hq.writeStep_legal hsq hrsp hf

/-! ## The moves of the outside agents -/

/-- A write in flight is one that the plan of the command in progress has (R191). -/
theorem inFlightWrite_planned {s : State} {r : RegisterId} {v : Byte} (h : inFlightWrite s = some (r, v)) :
    ∃ (i : Instr) (n : Nat) (b : Bank) (f : Fn) (m : BitMod),
      (commandOf i).plan[n]? = some (.write f m) ∧ r = regSel s.params b f := by
  unfold inFlightWrite at h
  split at h
  · next n i _ _ =>
    split at h
    · next f m hf =>
      simp only [Option.some.injEq, Prod.mk.injEq] at h
      exact ⟨i, n, _, f, m, hf, h.1.symm⟩
    · cases h
  · cases h

theorem settleInFlight_cases (landed : Bool) (s : State) :
    settleInFlight landed s = s ∨
    ∃ r v, inFlightWrite s = some (r, v) ∧ settleInFlight landed s = s.setDev r v := by
  unfold settleInFlight
  split
  · next r v hw => exact .inr ⟨r, v, hw, rfl⟩
  · exact .inl rfl

theorem StorageLegal.settle {s : State} (h : StorageLegal s) (landed : Bool) :
    StorageLegal (settleInFlight landed s) := by
  rcases settleInFlight_cases landed s with hs | ⟨r, v, hw, hs⟩ <;> rw [hs]
  · exact h
  · obtain ⟨i, n, b, f, m, hf, rfl⟩ := inFlightWrite_planned hw
    exact h.setDev_planned hf b v

theorem StorageLegal.controllerReset_legal {s : State} (h : StorageLegal s) (landed : Bool) :
    Legal (controllerReset landed s) := by
  have hdev : DeviceLegal (controllerReset landed s) := (h.settle landed).1
  exact legal_of_idle ⟨hdev, handlesWf_of_all_empty rfl⟩ responseLegal_zero rfl

/-- What happens to the device alone keeps a legal state legal, as long as the device's part stays lawful. -/
theorem Legal.of_deviceLegal {s t : State} (h : Legal s) (ht : DeviceLegal t) (hx : t.x = s.x) (hpc : t.pc = s.pc)
    (hw : t.cmdr = s.cmdr) (hrsp : t.rsp = s.rsp) (hh : t.halt = s.halt) : Legal t := by
  obtain ⟨⟨_, hhandles⟩, hresp, hseq⟩ := (legal_iff s).mp h
  have hhandles' : HandlesWf t := by simpa only [HandlesWf, State.getX, hx] using hhandles
  refine (legal_iff t).mpr ⟨⟨ht, hhandles'⟩, hrsp ▸ hresp, ?_⟩
  rcases hseq with hidle | ⟨i, n, hprog⟩
  · exact .inl (hpc.trans hidle)
  · exact .inr ⟨i, n, hprog.congr hh hpc hw hx⟩

theorem Legal.deviceReset_legal {s : State} (h : Legal s) : Legal (deviceReset s) := by
  have hregs : s.params.regs.wf := h.1
  exact h.of_deviceLegal (deviceLegal_of_mem_nil hregs rfl) rfl rfl rfl rfl rfl

theorem Legal.otherMasterWrite_legal {s : State} (h : Legal s) (r : RegisterId) (v : Byte) :
    Legal (otherMasterWrite r v s) := by
  unfold otherMasterWrite
  split
  · exact h
  · next hr =>
    have hdev : DeviceLegal s.quiet := h.storage.1
    exact h.of_deviceLegal (hdev.setDev r v (Bool.eq_false_iff.mpr hr)) rfl rfl rfl rfl rfl

/-! ## O37: every step keeps a legal state legal -/

/-- Settles O37, by the cases of a step. -/
theorem stepKeepsLegal : Obligations.StepKeepsLegal := by
  intro s t h hstep
  have hmoved : ∀ ms, Legal (s.withMoves ms) := fun _ => h
  rcases step_cases hstep with ⟨w, ms, i, _, hready, hword, ht⟩ | ⟨w, ms, e, _, _, _, rfl⟩ | ⟨w, ms, _, _, rfl⟩ |
    ⟨landed, ms, _, rfl⟩ | ⟨ms, _, rfl⟩ | ⟨r, v, ms, _, rfl⟩ | ⟨a, ms, _, _, rfl⟩ | ⟨_, _, rfl⟩ | ⟨i, _, hpc, hword, ht⟩
  · exact exec_latch_legal h hready hword ht
  · exact StorageLegal.raise_legal (h.storage.congr rfl rfl rfl) .illegal
  · exact h.quiet_withMoves ms
  · exact (hmoved ms).storage.controllerReset_legal landed
  · exact (hmoved ms).deviceReset_legal
  · exact (hmoved ms).otherMasterWrite_legal r v
  · exact h.quiet_withMoves ms
  · exact h
  · obtain ⟨j, n, hprog⟩ := h.inProgress hpc
    obtain rfl : i = j := Except.ok.inj (hword.symm.trans hprog.word)
    exact hprog.exec_legal h.storage h.response ht

/-! ## O39: no step from a legal state faults or refuses -/

/-- A word on the command port is answered by a next state, whatever the word and the state (R86, R100, R101). -/
theorem presentWord_next (w : Word) (s : State) : ∃ t, presentWord w s = .next t := by
  unfold presentWord
  split
  · next hready =>
    have hpc : (s.latch w).pc = .idle := ((cmdReady_iff s).mp hready).1
    unfold acceptWord
    split
    · exact ⟨_, exec_idle hpc⟩
    · exact ⟨_, rfl⟩
  · exact ⟨_, rfl⟩

/-- The transaction that the sequencer stands at is one of the plan, so it runs (R102). -/
theorem InProgress.exec_next {i : Instr} {n : Nat} {s : State} (h : InProgress i n s) : ∃ t, exec i s = .next t := by
  have hplan := List.getElem?_eq_getElem h.planned
  cases hp : (commandOf i).plan[n]'h.planned with
  | read f => exact ⟨_, exec_read h.position (hplan.trans (congrArg some hp))⟩
  | write f m => exact ⟨_, exec_write h.position (hplan.trans (congrArg some hp))⟩

/-- The device's turn in a legal state. -/
theorem Legal.continueCommand_next {s : State} (h : Legal s) (hpc : s.pc ≠ .idle) :
    ∃ t, continueCommand s = .next t := by
  obtain ⟨i, n, hprog⟩ := h.inProgress hpc
  simpa only [continueCommand, hprog.word] using hprog.exec_next

/-- Settles O39, by the kinds of move: a word is answered in every state, a command in progress by its plan. -/
theorem legalStateNeverStops : Obligations.LegalStateNeverStops := by
  intro s h
  unfold step
  split
  · exact presentWord_next _ _
  · exact ⟨_, rfl⟩
  · exact ⟨_, rfl⟩
  · exact ⟨_, rfl⟩
  · split
    · exact ⟨_, rfl⟩
    · next hpc => exact h.continueCommand_next hpc
  · split
    · exact ⟨_, rfl⟩
    · next hpc => exact h.continueCommand_next hpc

/-! ## O38: power-up is legal -/

/-- Settles O38: the controller idles with empty handles, and the device list is empty. -/
theorem powerUpIsLegal : Obligations.PowerUpIsLegal := by
  intro p hp
  have hdev : DeviceLegal (State.powerUp p) := deviceLegal_of_mem_nil hp rfl
  exact legal_of_idle ⟨hdev, handlesWf_of_all_empty rfl⟩ responseLegal_zero rfl

end Sys2Proof.Machine
end

section
/-! PROOFS. What one step can do, in the form the statements of 10_state.md need it (O29, O32, O40, O41, O46, O47, O49 to
O54).

A step does one of five things, `StepOutcome`: it accepts a word, refuses one that is no instruction, resets the
controller, lets the controller wait (`Waits`: no register of the controller changes and nothing is driven), or makes a
transaction of the command in progress (`Transacts`). The micro-step of a command then ends in one way, whether it is the
acceptance or a transaction: `Follows` lists these ends and has the facts about them. -/

namespace Sys2Proof.Machine

/-! ## How a micro-step ends -/

@[simp] theorem raise_x (k : Cause) (s : State) : (raise k s).x = s.x := by cases k <;> rfl
@[simp] theorem raise_pc (k : Cause) (s : State) : (raise k s).pc = .idle := by cases k <;> rfl
@[simp] theorem raise_cmdr (k : Cause) (s : State) : (raise k s).cmdr = s.cmdr := by cases k <;> rfl
@[simp] theorem raise_tmp (k : Cause) (s : State) : (raise k s).tmp = s.tmp := by cases k <;> rfl
@[simp] theorem raise_mem (k : Cause) (s : State) : (raise k s).mem = s.mem := by cases k <;> rfl
@[simp] theorem raise_rspValid (k : Cause) (s : State) : (raise k s).rspValid = true := by cases k <;> rfl
@[simp] theorem raise_port (k : Cause) (s : State) : (raise k s).port = s.port := by cases k <;> rfl
@[simp] theorem raise_moves (k : Cause) (s : State) : (raise k s).moves = s.moves := by cases k <;> rfl
@[simp] theorem raise_params (k : Cause) (s : State) : (raise k s).params = s.params := by cases k <;> rfl
@[simp] theorem raise_getX (k : Cause) (s : State) (j : HReg) : (raise k s).getX j = s.getX j := by cases k <;> rfl

/-- Only the contract violation sets `HALT` (R166). -/
theorem raise_halt {k : Cause} (hk : k ≠ .contract) (s : State) : (raise k s).halt = s.halt := by
  cases k with
  | contract => exact absurd rfl hk
  | illegal => rfl
  | badHandle => rfl
  | devFail n e => rfl

section
variable (c : Command) (s : State)

@[simp] theorem complete_pc : (complete c s).pc = .idle := rfl
@[simp] theorem complete_cmdr : (complete c s).cmdr = s.cmdr := by simp [complete]
@[simp] theorem complete_tmp : (complete c s).tmp = s.tmp := by simp [complete]
@[simp] theorem complete_halt : (complete c s).halt = s.halt := by simp [complete]
@[simp] theorem complete_mem : (complete c s).mem = s.mem := by simp [complete]
@[simp] theorem complete_rspValid : (complete c s).rspValid = true := rfl
@[simp] theorem complete_port : (complete c s).port = s.port := by simp [complete]
@[simp] theorem complete_moves : (complete c s).moves = s.moves := by simp [complete]
@[simp] theorem complete_params : (complete c s).params = s.params := by simp [complete]
@[simp] theorem complete_getX (k : HReg) : (complete c s).getX k = (c.onOk.apply c s).getX k := rfl
@[simp] theorem complete_devReg (b : Bank) (f : Fn) : (complete c s).devReg b f = s.devReg b f := by simp [complete]

variable (n : Nat) (e : DevErr)

@[simp] theorem abort_pc : (abort c n e s).pc = .idle := rfl
@[simp] theorem abort_cmdr : (abort c n e s).cmdr = s.cmdr := by simp [abort]
@[simp] theorem abort_tmp : (abort c n e s).tmp = s.tmp := by simp [abort]
@[simp] theorem abort_rsp : (abort c n e s).rsp = rspWord .devErr false (BitVec.ofNat 2 n) e := rfl
@[simp] theorem abort_halt : (abort c n e s).halt = s.halt := by simp [abort, raise]
@[simp] theorem abort_mem : (abort c n e s).mem = s.mem := by simp [abort]
@[simp] theorem abort_rspValid : (abort c n e s).rspValid = true := rfl
@[simp] theorem abort_port : (abort c n e s).port = s.port := by simp [abort]
@[simp] theorem abort_moves : (abort c n e s).moves = s.moves := by simp [abort]
@[simp] theorem abort_params : (abort c n e s).params = s.params := by simp [abort]
@[simp] theorem abort_getX (k : HReg) : (abort c n e s).getX k = (c.onErr.apply c s).getX k := rfl

end

/-- From `IDLE`, acceptance moves `pc` only to `T0` of a plan that has a transaction (R101). -/
theorem accept_pc_changed {c : Command} {s : State} (hpc : s.pc = .idle) (hne : (accept c s).pc ≠ s.pc) :
    (accept c s).pc = .t0 ∧ c.plan ≠ [] := by
  rcases accept_cases c s with ⟨_, h⟩ | ⟨_, _, h⟩ | ⟨_, _, _, h⟩ | ⟨_, _, hplan, h⟩ <;> rw [h] at hne ⊢
  · exact absurd (by simp [hpc]) hne
  · exact absurd (by simp [hpc]) hne
  · exact absurd (by simp [hpc]) hne
  · exact ⟨rfl, hplan⟩

theorem accept_of_breaksContract {c : Command} (hc : c.breaksContract = true) (s : State) :
    accept c s = raise .contract s :=
  if_pos hc

theorem accept_halt {c : Command} (hc : c.breaksContract = false) (s : State) : (accept c s).halt = s.halt := by
  rcases accept_cases c s with ⟨hbreaks, _⟩ | ⟨_, _, h⟩ | ⟨_, _, _, h⟩ | ⟨_, _, _, h⟩
  · rw [hc] at hbreaks; cases hbreaks
  · rw [h, raise_halt (by decide)]
  · rw [h, complete_halt]
  · rw [h, State.setPc_halt]

/-- The ends of a micro-step of the command `c`, from the state `u` in which its word is latched or its transaction
answered: refused, complete, aborted, or on its way to the position `p` (R101, R103 to R106). -/
inductive Follows (c : Command) (u : State) : State → Prop where
  | refused (k : Cause) : Follows c u (raise k u)
  | completed : Follows c u (complete c u)
  | aborted (n : Nat) (e : DevErr) : Follows c u (abort c n e u)
  | goesOn (p : SeqPos) : Follows c u (u.setPc p)

theorem accept_follows (c : Command) (s : State) : Follows c s (accept c s) := by
  rcases accept_cases c s with ⟨_, h⟩ | ⟨_, _, h⟩ | ⟨_, _, _, h⟩ | ⟨_, _, _, h⟩ <;> rw [h]
  · exact .refused .contract
  · exact .refused .badHandle
  · exact .completed
  · exact .goesOn .t0

theorem advance_follows (c : Command) (n : Nat) (s : State) : Follows c s (advance c n s) := by
  rcases advance_cases c n s with ⟨_, h⟩ | ⟨_, h⟩ <;> rw [h]
  · exact .completed
  · exact .goesOn _

namespace Follows

variable {c : Command} {u t : State}

theorem cmdr (h : Follows c u t) : t.cmdr = u.cmdr := by cases h <;> simp
theorem tmp (h : Follows c u t) : t.tmp = u.tmp := by cases h <;> simp
theorem mem (h : Follows c u t) : t.mem = u.mem := by cases h <;> simp
theorem port (h : Follows c u t) : t.port = u.port := by cases h <;> simp
theorem moves (h : Follows c u t) : t.moves = u.moves := by cases h <;> simp
theorem params (h : Follows c u t) : t.params = u.params := by cases h <;> simp

theorem devByte (h : Follows c u t) (r : RegisterId) : t.devByte r = u.devByte r := by
  simp only [State.devByte, h.params, h.mem]

/-- Every end but going on presents a response in `IDLE`. -/
theorem ended_or_goesOn (h : Follows c u t) : (t.pc = .idle ∧ t.rspValid = true) ∨ ∃ p, t = u.setPc p := by
  cases h with
  | refused k => exact .inl ⟨raise_pc k u, raise_rspValid k u⟩
  | completed => exact .inl ⟨rfl, rfl⟩
  | aborted n e => exact .inl ⟨rfl, rfl⟩
  | goesOn p => exact .inr ⟨p, rfl⟩

/-- `RSP` is written together with the pulse `rsp_valid` (R27, R29). -/
theorem rsp_changed (h : Follows c u t) (hne : t.rsp ≠ u.rsp) : t.rspValid = true := by
  rcases h.ended_or_goesOn with ⟨_, hv⟩ | ⟨p, rfl⟩
  · exact hv
  · exact absurd rfl hne

/-- The handle register after the micro-step is the old one, or what one of the command's two effects made of it. -/
theorem getX_cases (h : Follows c u t) (k : HReg) :
    t.getX k = u.getX k ∨ ∃ e : HandleEffect, t.getX k = (e.apply c u).getX k := by
  cases h with
  | refused k => exact .inl (by simp)
  | completed => exact .inr ⟨c.onOk, rfl⟩
  | aborted n e => exact .inr ⟨c.onErr, rfl⟩
  | goesOn p => exact .inl rfl

/-- Only the command's own handle register changes, and only when the command ends (R22, R106). -/
theorem getX_changed (h : Follows c u t) {k : HReg} (hne : t.getX k ≠ u.getX k) :
    t.rspValid = true ∧ t.pc = .idle ∧ c.h = k := by
  have hk : c.h = k := by
    by_contra hk
    rcases h.getX_cases k with hx | ⟨e, hx⟩
    · exact hne hx
    · exact hne (hx.trans (e.apply_getX_ne c u k (Ne.symm hk)))
  rcases h.ended_or_goesOn with ⟨hpc, hv⟩ | ⟨p, rfl⟩
  · exact ⟨hv, hpc, hk⟩
  · exact absurd rfl hne

end Follows

/-- A command that takes its pin from the handle register puts that pin back (R22, R145). -/
theorem HandleEffect.apply_pin (e : HandleEffect) {c : Command} {s : State} (hc : c.pin = none) (k : HReg)
    (hv : ((e.apply c s).getX k).valid = true) :
    ((e.apply c s).getX k).bank = (s.getX k).bank ∧ ((e.apply c s).getX k).idx = (s.getX k).idx := by
  by_cases hk : k = c.h
  · subst hk
    cases e with
    | keep => exact ⟨rfl, rfl⟩
    | put r => simp [HandleEffect.apply, Command.bankOf, Command.idxOf, hc]
    | clear => simp [HandleEffect.apply, Handle.empty] at hv
  · rw [e.apply_getX_ne c s k hk]
    exact ⟨rfl, rfl⟩

/-- The constructors are the commands that bring their own pin (R102). -/
theorem isConstructor_eq (i : Instr) : isConstructor i = (commandOf i).pin.isSome := by cases i <;> rfl

theorem Follows.pin {i : Instr} {u t : State} (h : Follows (commandOf i) u t) (k : HReg)
    (hv : (t.getX k).valid = true) :
    ((t.getX k).bank = (u.getX k).bank ∧ (t.getX k).idx = (u.getX k).idx) ∨ isConstructor i = true := by
  cases hpin : (commandOf i).pin with
  | some p => exact .inr (by simp [isConstructor_eq, hpin])
  | none =>
    left
    rcases h.getX_cases k with hx | ⟨e, hx⟩
    · rw [hx]; exact ⟨rfl, rfl⟩
    · rw [hx] at hv ⊢
      exact e.apply_pin hpin k hv

/-! ## One transaction of a command -/

/-- The register a planned transaction names: that of the pin's bank and the plan's function (R102, R111). -/
abbrev plannedReg (i : Instr) (s : State) (f : Fn) : RegisterId := regSel s.params ((commandOf i).bankOf s) f

/-- The byte a planned write issues, made from `TMP` (R104, R108). -/
abbrev plannedByte (i : Instr) (s : State) (m : BitMod) : Byte := m.apply s.tmp ((commandOf i).idxOf s)

/-- The transaction `txn` is on the port and its answer is taken. -/
abbrev State.issue (s : State) (txn : Txn) : State := s.quiet.afterAnswer.present txn

/-- Transaction `n` of the plan of `i` with each answer the device can give, up to the point where the command ends or goes
on (R52, R53, R55, R103, R104). -/
inductive Transacts (i : Instr) (n : Nat) (s : State) : Answer → State → Prop where
  | readOk {f : Fn} (v : Byte) (hf : (commandOf i).plan[n]? = some (.read f)) :
    Transacts i n s (.ok v) ((s.issue (.read (plannedReg i s f))).setTmp
      (if isInputReg s.params (plannedReg i s f) then v else s.devReg ((commandOf i).bankOf s) f))
  | readErr {f : Fn} (e : DevErr) (landed : Bool) (hf : (commandOf i).plan[n]? = some (.read f)) :
    Transacts i n s (.err e landed) (s.issue (.read (plannedReg i s f)))
  | writeOk {f : Fn} {m : BitMod} (v : Byte) (hf : (commandOf i).plan[n]? = some (.write f m)) :
    Transacts i n s (.ok v)
      ((s.issue (.write (plannedReg i s f) (plannedByte i s m))).setDev (plannedReg i s f) (plannedByte i s m))
  | writeLanded {f : Fn} {m : BitMod} (e : DevErr) (hf : (commandOf i).plan[n]? = some (.write f m)) :
    Transacts i n s (.err e true)
      ((s.issue (.write (plannedReg i s f) (plannedByte i s m))).setDev (plannedReg i s f) (plannedByte i s m))
  | writeLost {f : Fn} {m : BitMod} (e : DevErr) (hf : (commandOf i).plan[n]? = some (.write f m)) :
    Transacts i n s (.err e false) (s.issue (.write (plannedReg i s f) (plannedByte i s m)))

/-- What follows the answer to transaction `n`: the next position or completion, or the abort (R103, R104). -/
def conclude (c : Command) (n : Nat) : Answer → State → State
  | .ok _, u => advance c n u
  | .err e _, u => abort c n e u

/-- The micro-step of a command in progress is its transaction and what follows from the answer. -/
theorem exec_transacts {i : Instr} {s t : State} (hpc : s.pc ≠ .idle) (h : exec i s = .next t) :
    ∃ n u, s.pc.txn = some n ∧ Transacts i n s s.answer u ∧ t = conclude (commandOf i) n s.answer u := by
  rw [exec_eq] at h
  rcases runCommand_next h with ⟨hidle, _⟩ | ⟨n, f, hn, hf, rfl⟩ | ⟨n, f, m, hn, hf, rfl⟩
  · exact absurd hidle hpc
  · rcases readStep_cases (commandOf i) n f s.quiet with ⟨v, ha, ht⟩ | ⟨e, landed, ha, ht⟩ <;>
      rw [State.quiet_answer] at ha <;> rw [ha, ht]
    · exact ⟨n, _, hn, .readOk v hf, rfl⟩
    · exact ⟨n, _, hn, .readErr e landed hf, rfl⟩
  · rcases writeStep_cases (commandOf i) n f m s.quiet with ⟨v, ha, ht⟩ | ⟨e, ha, ht⟩ | ⟨e, ha, ht⟩ <;>
      rw [State.quiet_answer] at ha <;> rw [ha, ht]
    · exact ⟨n, _, hn, .writeOk v hf, rfl⟩
    · exact ⟨n, _, hn, .writeLanded e hf, rfl⟩
    · exact ⟨n, _, hn, .writeLost e hf, rfl⟩

/-- `Ok` to the last transaction completes the command, `Ok` to an earlier one moves on, `Err` aborts. -/
theorem conclude_cases (c : Command) (n : Nat) (a : Answer) (u : State) :
    (n + 1 = c.plan.length ∧ (∃ v, a = .ok v) ∧ conclude c n a u = complete c u) ∨
    (n + 1 ≠ c.plan.length ∧ (∃ v, a = .ok v) ∧ conclude c n a u = u.setPc u.pc.succ) ∨
    (∃ e landed, a = .err e landed ∧ conclude c n a u = abort c n e u) := by
  cases a with
  | err e landed => exact .inr (.inr ⟨e, landed, rfl, rfl⟩)
  | ok v =>
    rcases advance_cases c n u with ⟨hn, h⟩ | ⟨hn, h⟩
    · exact .inl ⟨hn, ⟨v, rfl⟩, h⟩
    · exact .inr (.inl ⟨hn, ⟨v, rfl⟩, h⟩)

theorem conclude_follows (c : Command) (n : Nat) (a : Answer) (u : State) : Follows c u (conclude c n a u) := by
  cases a with
  | ok v => exact advance_follows c n u
  | err e landed => exact .aborted n e

@[simp] theorem conclude_halt (c : Command) (n : Nat) (a : Answer) (u : State) : (conclude c n a u).halt = u.halt := by
  rcases conclude_cases c n a u with ⟨_, _, h⟩ | ⟨_, _, h⟩ | ⟨e, _, _, h⟩ <;> simp [h]

namespace Transacts

variable {i : Instr} {n : Nat} {s u : State} {a : Answer}

theorem x (h : Transacts i n s a u) : u.x = s.x := by cases h <;> rfl
theorem pc (h : Transacts i n s a u) : u.pc = s.pc := by cases h <;> rfl
theorem cmdr (h : Transacts i n s a u) : u.cmdr = s.cmdr := by cases h <;> rfl
theorem rsp (h : Transacts i n s a u) : u.rsp = s.rsp := by cases h <;> rfl
theorem halt (h : Transacts i n s a u) : u.halt = s.halt := by cases h <;> rfl
theorem rspValid (h : Transacts i n s a u) : u.rspValid = false := by cases h <;> rfl
theorem params (h : Transacts i n s a u) : u.params = s.params := by cases h <;> rfl
theorem moves (h : Transacts i n s a u) : u.moves = movesAfterAnswer s.moves := by cases h <;> rfl
theorem draws (h : Transacts i n s a u) : u.draws = drawsAfterAnswer s.moves s.draws := by cases h <;> rfl
theorem getX (h : Transacts i n s a u) (k : HReg) : u.getX k = s.getX k := by simp only [State.getX, h.x]

/-- A transaction that was made is one of the plan. -/
theorem planned (h : Transacts i n s a u) : n < (commandOf i).plan.length := by
  cases h with
  | readOk _ hf | readErr _ _ hf | writeOk _ hf | writeLanded _ hf | writeLost _ hf =>
    exact (List.getElem?_eq_some_iff.mp hf).1

/-- After a transaction that is not the last there is a next one, and the position after is its (R24, R112). -/
theorem next_planned (h : Transacts i n s a u) (hn : n + 1 ≠ (commandOf i).plan.length) :
    n + 1 < (commandOf i).plan.length :=
  Nat.lt_of_le_of_ne h.planned hn

theorem txn_succ (h : Transacts i n s a u) (hpc : s.pc.txn = some n) (hn : n + 1 ≠ (commandOf i).plan.length) :
    u.pc.succ.txn = some (n + 1) := by
  have hlt := h.next_planned hn
  have hle := plan_length_le i
  exact SeqPos.txn_succ (h.pc ▸ hpc) (by omega)

/-- `TMP` is loaded by a read that answered `Ok`, and by nothing else (R26). -/
theorem tmp_changed (h : Transacts i n s a u) (hne : u.tmp ≠ s.tmp) :
    ∃ r v, u.port = some (.read r) ∧ a = .ok v := by
  cases h with
  | readOk v hf => exact ⟨_, v, rfl, rfl⟩
  | _ => exact absurd rfl hne

end Transacts

/-- A byte that a store changed is the stored one (R53). -/
theorem State.devByte_setDev_changed {s : State} {r r' : RegisterId} {v : Byte}
    (h : (s.setDev r v).devByte r' ≠ s.devByte r') : r' = r ∧ (s.setDev r v).devByte r' = v := by
  have hr : r' = r := by
    by_contra hr
    exact h (s.devByte_setDev_ne r r' v hr)
  subst hr
  exact ⟨rfl, s.devByte_setDev_self r' v⟩

/-- A device byte changes only by the write of the plan, to the byte made from `TMP` (R53, R55, R104). -/
theorem Transacts.devByte_changed {i : Instr} {n : Nat} {s u : State} {a : Answer} (h : Transacts i n s a u)
    {r : RegisterId} (hne : u.devByte r ≠ s.devByte r) :
    ∃ f m, (commandOf i).plan[n]? = some (.write f m) ∧ r = plannedReg i s f ∧ u.devByte r = plannedByte i s m := by
  cases h with
  | readOk | readErr | writeLost => exact absurd rfl hne
  | writeOk _ hf | writeLanded _ hf =>
    obtain ⟨hr, hv⟩ := State.devByte_setDev_changed (s := s.issue _) hne
    exact ⟨_, _, hf, hr, hv⟩

/-! ## One step of the system -/

/-- The controller waits: none of its registers changes and it drives nothing. The device may be disturbed by another agent
(R37, R64, R100, R193). -/
structure Waits (s t : State) : Prop where
  x : t.x = s.x
  pc : t.pc = s.pc
  cmdr : t.cmdr = s.cmdr
  tmp : t.tmp = s.tmp
  rsp : t.rsp = s.rsp
  halt : t.halt = s.halt
  params : t.params = s.params
  rspValid : t.rspValid = false
  port : t.port = none
  mem : Undisturbed s → t.mem = s.mem

theorem Waits.getX {s t : State} (h : Waits s t) (k : HReg) : t.getX k = s.getX k := by simp only [State.getX, h.x]

theorem Waits.devByte {s t : State} (h : Waits s t) (hu : Undisturbed s) (r : RegisterId) :
    t.devByte r = s.devByte r := by simp only [State.devByte, h.params, h.mem hu]

theorem waits_quiet (s : State) (ms : List Move) : Waits s (s.withMoves ms).quiet :=
  ⟨rfl, rfl, rfl, rfl, rfl, rfl, rfl, rfl, rfl, fun _ => rfl⟩

theorem waits_deviceReset {s : State} {ms : List Move} (hm : s.moves = .deviceReset :: ms) :
    Waits s (deviceReset (s.withMoves ms)) where
  x := rfl
  pc := rfl
  cmdr := rfl
  tmp := rfl
  rsp := rfl
  halt := rfl
  params := rfl
  rspValid := rfl
  port := rfl
  mem := fun hu => by simp [Undisturbed, hm, Move.disturbs] at hu

theorem waits_otherMasterWrite {s : State} {r : RegisterId} {v : Byte} {ms : List Move}
    (hm : s.moves = .otherMaster r v :: ms) : Waits s (otherMasterWrite r v (s.withMoves ms)) := by
  have hdisturbed : ¬ Undisturbed s := by simp [Undisturbed, hm, Move.disturbs]
  unfold otherMasterWrite
  split
  · exact waits_quiet s ms
  · exact ⟨rfl, rfl, rfl, rfl, rfl, rfl, rfl, rfl, rfl, fun hu => absurd hu hdisturbed⟩

/-- The five things one step can do. -/
inductive StepOutcome (s : State) : State → Prop where
  | accepted {w : Word} {ms : List Move} {i : Instr} (hm : s.moves = .command w :: ms) (hready : s.cmdReady = true)
      (hword : decode w = .ok i) :
    StepOutcome s (accept (commandOf i) ((s.withMoves ms).latch w).quiet)
  | illegal {w : Word} {ms : List Move} (hm : s.moves = .command w :: ms) (hready : s.cmdReady = true) :
    StepOutcome s (raise .illegal ((s.withMoves ms).latch w).quiet)
  | reset (landed : Bool) {ms : List Move} (hr : resetsNext s = true) :
    StepOutcome s (controllerReset landed (s.withMoves ms))
  | waits {t : State} (hw : Waits s t) : StepOutcome s t
  | transaction {i : Instr} {n : Nat} {u : State} (hm : s.moves = [] ∨ ∃ a ms, s.moves = .answer a :: ms)
      (hpc : s.pc.txn = some n) (hword : decode s.cmdr = .ok i) (hu : Transacts i n s s.answer u) :
    StepOutcome s (conclude (commandOf i) n s.answer u)

theorem resetsNext_of_moves {s : State} {landed : Bool} {ms : List Move} (hm : s.moves = .reset landed :: ms) :
    resetsNext s = true := by
  simp [resetsNext, hm]

theorem step_outcome {s t : State} (h : step s = .next t) : StepOutcome s t := by
  rcases step_cases h with ⟨w, ms, i, hm, hready, hword, ht⟩ | ⟨w, ms, e, hm, hready, _, rfl⟩ | ⟨w, ms, _, _, rfl⟩ |
    ⟨landed, ms, hm, rfl⟩ | ⟨ms, hm, rfl⟩ | ⟨r, v, ms, hm, rfl⟩ | ⟨a, ms, _, _, rfl⟩ | ⟨hm, _, rfl⟩ | ⟨i, hm, hpc, hword, ht⟩
  · have hpc : ((s.withMoves ms).latch w).pc = .idle := ((cmdReady_iff s).mp hready).1
    rw [exec_idle hpc] at ht
    injection ht with ht
    exact ht ▸ .accepted hm hready hword
  · exact .illegal hm hready
  · exact .waits (waits_quiet s ms)
  · exact .reset landed (resetsNext_of_moves hm)
  · exact .waits (waits_deviceReset hm)
  · exact .waits (waits_otherMasterWrite hm)
  · exact .waits (waits_quiet s ms)
  · exact .waits (waits_quiet s s.moves)
  · obtain ⟨n, u, hn, hu, rfl⟩ := exec_transacts hpc ht
    exact .transaction hm hn hword hu

/-! ## The registers under a controller reset -/

@[simp] theorem controllerReset_params (landed : Bool) (s : State) : (controllerReset landed s).params = s.params := by
  rcases settleInFlight_cases landed s with hs | ⟨r, v, _, hs⟩ <;> simp [controllerReset, hs]

@[simp] theorem controllerReset_moves (landed : Bool) (s : State) : (controllerReset landed s).moves = s.moves := by
  rcases settleInFlight_cases landed s with hs | ⟨r, v, _, hs⟩ <;> simp [controllerReset, hs]

@[simp] theorem controllerReset_getX (landed : Bool) (s : State) (k : HReg) :
    (controllerReset landed s).getX k = Handle.empty := by
  simp [State.getX, controllerReset]

/-- A handle register that a step changed was emptied by a controller reset, or written by the command that just ended on it
(R22, R35, R106). -/
theorem step_getX_changed {s t : State} {k : HReg} (h : step s = .next t) (hne : t.getX k ≠ s.getX k) :
    (resetsNext s = true ∧ t.getX k = Handle.empty) ∨
    ∃ i u, decode t.cmdr = .ok i ∧ i.hreg = k ∧ u.getX k = s.getX k ∧ Follows (commandOf i) u t ∧
      t.rspValid = true ∧ t.pc = .idle := by
  cases step_outcome h with
  | illegal => exact absurd rfl hne
  | reset landed hr => exact .inl ⟨hr, controllerReset_getX landed _ k⟩
  | waits hw => exact absurd (hw.getX k) hne
  | @accepted w ms i _ _ hword =>
    have hend := accept_follows (commandOf i) ((s.withMoves ms).latch w).quiet
    obtain ⟨hv, hpc, hk⟩ := hend.getX_changed hne
    exact .inr ⟨i, ((s.withMoves ms).latch w).quiet, hend.cmdr ▸ hword, commandOf_h i ▸ hk, rfl, hend, hv, hpc⟩
  | @transaction i n u _ _ hword hu =>
    have hend := conclude_follows (commandOf i) n s.answer u
    obtain ⟨hv, hpc, hk⟩ := hend.getX_changed (hu.getX k ▸ hne)
    exact .inr ⟨i, u, (hend.cmdr.trans hu.cmdr) ▸ hword, commandOf_h i ▸ hk, hu.getX k, hend, hv, hpc⟩

/-- The write in flight is the one the plan of the command in progress has next (R191). -/
theorem inFlightWrite_eq_some {s : State} {r : RegisterId} {v : Byte} (h : inFlightWrite s = some (r, v)) :
    ∃ i n f m, decode s.cmdr = .ok i ∧ s.pc.txn = some n ∧ (commandOf i).plan[n]? = some (.write f m) ∧
      r = plannedReg i s f ∧ v = plannedByte i s m := by
  unfold inFlightWrite at h
  split at h
  · next n i hn hi =>
    split at h
    · next f m hf =>
      simp only [Option.some.injEq, Prod.mk.injEq] at h
      exact ⟨i, n, f, m, hi, hn, hf, h.1.symm, h.2.symm⟩
    · cases h
  · cases h

end Sys2Proof.Machine
end

section
/-! PROOFS. The state of the system: what each register and the device change by, in one step and to the end of a command
(O29, O32, O40, O41, O46, O47, O49 to O54). -/

namespace Sys2Proof.Machine

/-! ## O29, O32: reset and power-up -/

/-- Settles O29: the reset writes every controller register, and the handles of a cleared file are empty. -/
theorem controllerResetValues : Obligations.ControllerResetValues := by
  intro s landed ms hm
  have hstep : step s = .next (controllerReset landed (s.withMoves ms)) := by simp only [step, hm]
  exact ⟨_, hstep, fun k => controllerReset_getX landed _ k, rfl, rfl, rfl, rfl, rfl, rfl, rfl,
    controllerReset_moves landed _, controllerReset_params landed _⟩

/-- The addresses of two registers are equal when bank and function are (R8 (b)). -/
theorem regSel_toNat_eq_iff {p : Params} (hp : p.regs.wf) (b b' : Bank) (f f' : Fn) :
    (regSel p b f).toNat = (regSel p b' f').toNat ↔ b = b' ∧ f = f' := by
  constructor
  · exact fun h => regSel_inj hp (BitVec.eq_of_toNat_eq h)
  · rintro ⟨rfl, rfl⟩; rfl

/-- The storage registers after a device reset, for an injective register map (R36). -/
theorem resetByte_regSel {p : Params} (hp : p.regs.wf) (b : Bank) :
    resetByte p (regSel p b .pol).toNat = 0x00 ∧ resetByte p (regSel p b .cfg).toNat = p.cfgReset b ∧
      resetByte p (regSel p b .out).toNat = p.outReset b := by
  simp only [resetByte, regSel_toNat_eq_iff hp]
  cases b <;> simp

/-- Settles O32: the device list is empty, so every register reads as its reset byte. -/
theorem powerUpValues : Obligations.PowerUpValues := by
  intro p hp
  have hx : ∀ k, (State.powerUp p).getX k = Handle.empty := fun k => by simp [State.getX, State.powerUp]
  exact ⟨hx, rfl, rfl, rfl, rfl, rfl, rfl, rfl, rfl, fun b => resetByte_regSel hp b⟩

/-! ## O40: the device -/

/-- A device byte that a controller reset changed was written by the write in flight (R191, R192). -/
theorem controllerReset_devByte_changed {landed : Bool} {s : State} {r : RegisterId}
    (hne : (controllerReset landed s).devByte r ≠ s.devByte r) :
    ∃ v, inFlightWrite s = some (r, v) ∧ (controllerReset landed s).devByte r = v := by
  have heq : (controllerReset landed s).devByte r = (settleInFlight landed s).devByte r := rfl
  rw [heq] at hne ⊢
  rcases settleInFlight_cases landed s with hs | ⟨r', v, hw, hs⟩ <;> rw [hs] at hne ⊢
  · exact absurd rfl hne
  · obtain ⟨rfl, hv⟩ := State.devByte_setDev_changed hne
    exact ⟨v, hw, hv⟩

/-- Settles O40: of the five outcomes of a step, only a transaction and a reset with a write in flight store a byte. -/
theorem deviceChangesOnlyByThePlannedWrite : Obligations.DeviceChangesOnlyByThePlannedWrite := by
  intro s t r hstep hu hne
  cases step_outcome hstep with
  | accepted => exact absurd ((accept_follows _ _).devByte r) hne
  | illegal => exact absurd rfl hne
  | waits hw => exact absurd (hw.devByte hu r) hne
  | reset landed =>
    obtain ⟨v, hw, hv⟩ := controllerReset_devByte_changed hne
    obtain ⟨i, n, f, m, hword, hn, hf, hr, rfl⟩ := inFlightWrite_eq_some hw
    exact ⟨i, n, f, m, hword, hn, hf, hr, hv⟩
  | transaction _ hn hword hu =>
    rw [(conclude_follows _ _ _ _).devByte r] at hne ⊢
    obtain ⟨f, m, hf, hr, hv⟩ := hu.devByte_changed hne
    exact ⟨_, _, f, m, hword, hn, hf, hr, hv⟩

/-! ## O41: `TMP` before a write -/

/-- `freshOk` asks for something only at a write of the plan (R26, R65). -/
theorem freshOk_iff (s : State) :
    freshOk s = true ↔ ∀ i n f m, decode s.cmdr = .ok i → s.pc.txn = some n →
      (commandOf i).plan[n]? = some (.write f m) → s.tmp = s.devReg ((commandOf i).bankOf s) f := by
  cases hn : s.pc.txn with
  | none => simp [freshOk, nextPlanStep, hn]
  | some n =>
    cases hd : decode s.cmdr with
    | error e => simp [freshOk, nextPlanStep, hn, hd]
    | ok i =>
      have hplan : freshOk s = true ↔ ∀ f m, (commandOf i).plan[n]? = some (.write f m) →
          s.tmp = s.devReg ((commandOf i).bankOf s) f := by
        rcases hp : (commandOf i).plan[n]? with _ | f | ⟨f, m⟩ <;> simp [freshOk, nextPlanStep, hn, hd, hp]
      rw [hplan]
      constructor
      · rintro h j k f m ⟨⟩ ⟨⟩
        exact h f m
      · exact fun h f m => h i n f m rfl rfl

theorem freshOk_of_idle {s : State} (hpc : s.pc = .idle) : freshOk s = true := by
  simp [freshOk, nextPlanStep, hpc, SeqPos.txn]

/-- A plan is empty, one read, or one or two pairs of a read and a write of the same register (R102). -/
theorem plan_shape (i : Instr) :
    (commandOf i).plan = [] ∨ (∃ f, (commandOf i).plan = [.read f]) ∨
    (∃ f m, (commandOf i).plan = [.read f, .write f m]) ∨
    ∃ f m f' m', (commandOf i).plan = [.read f, .write f m, .read f', .write f' m'] := by
  cases i with
  | i2i | drop => exact .inl rfl
  | ishi | islo => exact .inr (.inl ⟨_, rfl⟩)
  | newi | spol | seth | setl | o2i | o2o => exact .inr (.inr (.inl ⟨_, _, rfl⟩))
  | newo | i2o => exact .inr (.inr (.inr ⟨_, _, _, _, rfl⟩))

/-- A write of a plan goes to the register read just before it (R102). -/
theorem read_before_write {i : Instr} {n : Nat} {f : Fn} {m : BitMod}
    (h : (commandOf i).plan[n]? = some (.write f m)) :
    ∃ k, n = k + 1 ∧ (commandOf i).plan[k]? = some (.read f) := by
  rcases plan_shape i with hp | ⟨g, hp⟩ | ⟨g, l, hp⟩ | ⟨g, l, g', l', hp⟩ <;> rw [hp] at h ⊢
  · cases h
  · match n, h with
    | 0, h => cases h
    | n + 1, h => cases h
  · match n, h with
    | 0, h => cases h
    | 1, h => cases h; exact ⟨0, rfl, rfl⟩
    | n + 2, h => cases h
  · match n, h with
    | 0, h => cases h
    | 1, h => cases h; exact ⟨0, rfl, rfl⟩
    | 2, h => cases h
    | 3, h => cases h; exact ⟨2, rfl, rfl⟩
    | n + 4, h => cases h

/-- The first transaction of a plan is no write. -/
theorem freshOk_of_t0 {s : State} (hpc : s.pc = .t0) : freshOk s = true := by
  rw [freshOk_iff, hpc]
  intro i n f m _ hn hf
  obtain ⟨k, rfl, _⟩ := read_before_write hf
  cases hn

/-- A read of a storage register that answered `Ok` leaves its byte in `TMP` (R52, R103). -/
theorem Transacts.read_storage {i : Instr} {n : Nat} {s u : State} {v : Byte} {f : Fn}
    (h : Transacts i n s (.ok v) u) (hf : (commandOf i).plan[n]? = some (.read f)) (hp : s.params.regs.wf)
    (hinp : f ≠ .inp) : u.tmp = u.devReg ((commandOf i).bankOf u) f := by
  cases h with
  | readOk _ hf' =>
    obtain rfl : f = _ := by simpa using hf.symm.trans hf'
    simp only [plannedReg, isInputReg_eq_false hp _ hinp]
    rfl
  | writeOk _ hf' => simp [hf] at hf'

/-- Waiting keeps `TMP` fresh, as long as no other agent writes the device. -/
theorem Waits.freshOk {s t : State} (h : Waits s t) (hu : Undisturbed s) (hs : freshOk s = true) :
    Machine.freshOk t = true := by
  rw [freshOk_iff] at hs ⊢
  rw [h.cmdr, h.pc, h.tmp]
  intro i n f m hword hn hf
  rw [hs i n f m hword hn hf, Command.bankOf_congr _ (h.getX _)]
  simp only [State.devReg, h.devByte hu, h.params]

/-- Going on to a write, the transaction just made was the read of its register. -/
theorem Transacts.freshOk_setPc {i : Instr} {n : Nat} {s u : State} {v : Byte} (h : Transacts i n s (.ok v) u)
    (hp : s.params.regs.wf) (hword : decode s.cmdr = .ok i) (hpc : s.pc.txn = some n)
    (hn : n + 1 ≠ (commandOf i).plan.length) : freshOk (u.setPc u.pc.succ) = true := by
  rw [freshOk_iff]
  intro j k f m hj hk hf
  obtain rfl : i = j := by
    rw [State.setPc_cmdr, h.cmdr, hword] at hj
    exact Except.ok.inj hj
  obtain rfl : n + 1 = k := Option.some.inj ((h.txn_succ hpc hn).symm.trans hk)
  obtain ⟨k, hk, hread⟩ := read_before_write hf
  obtain rfl : n = k := Nat.succ.inj hk
  exact h.read_storage hread hp (write_ne_inp hf)

/-- Settles O41. A step can lead to a write only from the read before it, which has just loaded `TMP`. -/
theorem stepKeepsTmpFresh : Obligations.StepKeepsTmpFresh := by
  intro s t hlegal hfresh hu hstep
  cases step_outcome hstep with
  | illegal => exact freshOk_of_idle rfl
  | reset => exact freshOk_of_idle rfl
  | waits hw => exact hw.freshOk hu hfresh
  | @accepted w ms i _ hready =>
    have hpc : ((s.withMoves ms).latch w).quiet.pc = .idle := ((cmdReady_iff s).mp hready).1
    by_cases hidle : (accept (commandOf i) ((s.withMoves ms).latch w).quiet).pc = .idle
    · exact freshOk_of_idle hidle
    · exact freshOk_of_t0 (accept_pc_changed hpc (hpc ▸ hidle)).1
  | @transaction i n u _ hn hword hu =>
    rcases conclude_cases (commandOf i) n s.answer u with ⟨_, _, ht⟩ | ⟨hlast, ⟨v, ha⟩, ht⟩ | ⟨_, _, _, ht⟩ <;> rw [ht]
    · exact freshOk_of_idle rfl
    · exact (ha ▸ hu).freshOk_setPc hlegal.1 hword hn hlast
    · exact freshOk_of_idle rfl

/-! ## O46, O47: the handle registers -/

/-- Settles O46: only a controller reset and the end of a command write a handle register. -/
theorem handleChangesOnlyWhenItsCommandEnds : Obligations.HandleChangesOnlyWhenItsCommandEnds := by
  intro s t k hstep hne
  rcases step_getX_changed hstep hne with ⟨hr, _⟩ | ⟨i, _, hword, hk, _, _, hv, hpc⟩
  · exact .inl hr
  · exact .inr ⟨hv, hpc, i, hword, hk⟩

/-- Settles O47: a command that is no constructor puts the pin of the handle register back, or nothing. -/
theorem bankAndIndexOfAPinNeverChange : Obligations.BankAndIndexOfAPinNeverChange := by
  intro s t k hstep _ hvt
  by_cases hne : t.getX k = s.getX k
  · rw [hne]; exact .inl ⟨rfl, rfl⟩
  rcases step_getX_changed hstep hne with ⟨_, hempty⟩ | ⟨i, u, hword, hk, hu, hend, _, _⟩
  · rw [hempty] at hvt; cases hvt
  · rw [← hu]
    exact (hend.pin k hvt).imp id fun hc => ⟨i, hword, hc, hk⟩

/-! ## O49: the handle and the hardware role -/

/-- What the last write of a command puts in the pin's configuration bit to give the pin a role (R32). -/
def Role.cfgMod : Role → BitMod
  | .input => .set
  | .output => .clear

/-- The bit written is the one `HwRole` reads as that role (R32). -/
theorem bit_cfgMod (r : Role) (v : Byte) (j : PinIdx) :
    (if bit ((Role.cfgMod r).apply v j) j then Role.input else Role.output) = r := by
  cases r
  · simp [Role.cfgMod, BitMod.apply, bit_setbit]
  · simp [Role.cfgMod, BitMod.apply, bit_clrbit]

/-- The constructors, I2O and O2I write the hardware role last and put the same role in the handle (R23, R102). -/
theorem last_write_is_role {i : Instr} (hi : isConstructor i = true ∨ (∃ h l, i = .i2o h l) ∨ ∃ h, i = .o2i h) :
    ∃ r, (commandOf i).onOk = .put r ∧ (commandOf i).plan.getLast? = some (.write .cfg (Role.cfgMod r)) := by
  rcases hi with hc | ⟨h, l, rfl⟩ | ⟨h, rfl⟩
  · cases i with
    | newi h b k => exact ⟨.input, rfl, rfl⟩
    | newo h b k l => exact ⟨.output, rfl, rfl⟩
    | _ => cases hc
  · exact ⟨.output, rfl, rfl⟩
  · exact ⟨.input, rfl, rfl⟩

/-- A write that answered `Ok` leaves the planned byte in its register (R53, R104). -/
theorem Transacts.write_stored {i : Instr} {n : Nat} {s u : State} {v : Byte} {f : Fn} {m : BitMod}
    (h : Transacts i n s (.ok v) u) (hf : (commandOf i).plan[n]? = some (.write f m)) :
    u.devReg ((commandOf i).bankOf u) f = m.apply s.tmp ((commandOf i).idxOf u) := by
  cases h with
  | readOk _ hf' => simp [hf] at hf'
  | @writeOk f' m' _ hf' =>
    obtain ⟨rfl, rfl⟩ : f = f' ∧ m = m' := by simpa using hf.symm.trans hf'
    exact State.devReg_setDev_self (s.issue _) _ _ _

/-- A command whose last write gave its pin the role `r` and that puts `r` in the handle leaves the two in agreement. -/
theorem handleAgrees_complete {c : Command} {u : State} {r : Role} {v : Byte} (hok : c.onOk = .put r)
    (hcfg : u.devReg (c.bankOf u) .cfg = (Role.cfgMod r).apply v (c.idxOf u)) :
    ((complete c u).getX c.h).valid = true ∧ HandleAgrees (complete c u) c.h := by
  have hx : (complete c u).getX c.h = ⟨true, r, c.bankOf u, c.idxOf u⟩ := by simp [hok, HandleEffect.apply]
  rw [HandleAgrees, hx]
  refine ⟨rfl, fun _ => ?_⟩
  simp only [hwRole, complete_devReg, hcfg, bit_cfgMod]

/-- Settles O49: a response with OK comes from the last transaction, which wrote the role. -/
theorem handleAgreesAfterTheRoleIsWritten : Obligations.HandleAgreesAfterTheRoleIsWritten := by
  intro i s t _ hpc hexec hv hst hi
  obtain ⟨r, hok, hplan⟩ := last_write_is_role hi
  obtain ⟨n, u, _, hu, rfl⟩ := exec_transacts hpc hexec
  rcases conclude_cases (commandOf i) n s.answer u with ⟨hlast, ⟨v, ha⟩, ht⟩ | ⟨_, _, ht⟩ | ⟨e, _, _, ht⟩ <;>
    rw [ht] at hv hst ⊢
  · have hf : (commandOf i).plan[n]? = some (.write .cfg (Role.cfgMod r)) := by
      rw [← hplan, List.getLast?_eq_getElem?, ← hlast, Nat.add_sub_cancel]
    rw [← commandOf_h]
    exact handleAgrees_complete hok ((ha ▸ hu).write_stored hf)
  · rw [State.setPc_rspValid, hu.rspValid] at hv
    cases hv
  · rw [abort_rsp, rspSt_rspWord] at hst
    cases hst

/-! ## O50: what the device holds never steers -/

/-- Two states that agree in all that O50 speaks of: the controller's registers but `TMP`, and the answers to come. -/
structure SteersAlike (s s' : State) : Prop where
  pc : s'.pc = s.pc
  x : s'.x = s.x
  rsp : s'.rsp = s.rsp
  halt : s'.halt = s.halt
  cmdr : s'.cmdr = s.cmdr
  rspValid : s'.rspValid = s.rspValid
  moves : s'.moves = s.moves
  draws : s'.draws = s.draws

namespace SteersAlike

variable {s s' : State}

theorem getX (h : SteersAlike s s') (k : HReg) : s'.getX k = s.getX k := by simp only [State.getX, h.x]

theorem setPc (h : SteersAlike s s') (p : SeqPos) : SteersAlike (s.setPc p) (s'.setPc p) :=
  { h with pc := rfl }

theorem respond (h : SteersAlike s s') (st : Status) (val : Bool) (n : Nat) (e : DevErr) :
    SteersAlike (Machine.respond st val n e s) (Machine.respond st val n e s') :=
  { h with pc := rfl, rsp := rfl, rspValid := rfl }

theorem raise (h : SteersAlike s s') (k : Cause) : SteersAlike (Machine.raise k s) (Machine.raise k s') := by
  cases k with
  | illegal => exact h.respond ..
  | badHandle => exact h.respond ..
  | contract =>
    have hhalt : SteersAlike { s with halt := true } { s' with halt := true } := { h with halt := rfl }
    exact hhalt.respond ..
  | devFail n e => exact h.respond ..

theorem setX (h : SteersAlike s s') (k : HReg) (v : Handle) : SteersAlike (s.setX k v) (s'.setX k v) :=
  { h with x := by simp only [State.setX_x, h.x] }

theorem apply (h : SteersAlike s s') (e : HandleEffect) (c : Command) :
    SteersAlike (e.apply c s) (e.apply c s') := by
  cases e with
  | keep => exact h
  | put r =>
    simp only [HandleEffect.apply, c.bankOf_congr (h.getX c.h), c.idxOf_congr (h.getX c.h)]
    exact h.setX _ _
  | clear => exact h.setX _ _

/-- Only a result bit can show what the last read delivered. -/
theorem complete (h : SteersAlike s s') {c : Command} (hres : c.result = .zero ∨ s'.tmp = s.tmp) :
    SteersAlike (Machine.complete c s) (Machine.complete c s') := by
  have hval : c.result.value c s' = c.result.value c s := by
    rcases hres with hz | ht
    · rw [hz]; rfl
    · cases c.result <;> simp only [ResultBit.value, ht, c.idxOf_congr (h.getX c.h)]
  simp only [Machine.complete, hval]
  exact (h.apply c.onOk c).respond ..

theorem accept (h : SteersAlike s s') {c : Command} (htmp : s'.tmp = s.tmp) :
    SteersAlike (Machine.accept c s) (Machine.accept c s') := by
  simp only [Machine.accept, c.handleOk_congr (h.getX c.h)]
  split
  · exact h.raise _
  · split
    · exact h.raise _
    · split
      · exact h.complete (.inr htmp)
      · exact h.setPc _

theorem conclude (h : SteersAlike s s') {c : Command} {n : Nat} {a : Answer}
    (hres : ∀ v, a = .ok v → c.result = .zero ∨ s'.tmp = s.tmp) :
    SteersAlike (Machine.conclude c n a s) (Machine.conclude c n a s') := by
  cases a with
  | err e landed => exact (h.apply c.onErr c).raise (.devFail n e)
  | ok v =>
    simp only [Machine.conclude, advance]
    split
    · exact h.complete (hres v rfl)
    · rw [h.pc]; exact h.setPc _

end SteersAlike

/-- A command with a result bit makes no transaction but the read of an input register (R102, R121, R122). -/
theorem planStep_result {i : Instr} {n : Nat} {p : PlanStep} (hp : (commandOf i).plan[n]? = some p) :
    (commandOf i).result = .zero ∨ p = .read .inp := by
  have hm := List.mem_of_getElem? hp
  cases i with
  | ishi h => exact .inr (by simpa using hm)
  | islo h => exact .inr (by simpa using hm)
  | _ => exact .inl rfl

/-- Where the result bit shows the byte read, that byte is the environment's draw, not a byte the device holds (R57). -/
theorem Transacts.tmp_eq_draw {i : Instr} {n : Nat} {s u : State} {v : Byte} (h : Transacts i n s (.ok v) u) :
    (commandOf i).result = .zero ∨ u.tmp = v := by
  cases h with
  | readOk _ hf =>
    refine (planStep_result hf).imp id fun hinp => ?_
    obtain rfl := PlanStep.read.inj hinp
    simp
  | writeOk _ hf => exact (planStep_result hf).imp id fun hinp => nomatch hinp

/-- Whether a micro-step runs depends on the position alone. -/
theorem exec_next_congr {i : Instr} {s s' t : State} (hpc : s'.pc = s.pc) (h : exec i s = .next t) :
    ∃ t', exec i s' = .next t' := by
  rw [exec_eq] at h
  rcases runCommand_next h with ⟨hidle, _⟩ | ⟨n, f, hn, hf, _⟩ | ⟨n, f, m, hn, hf, _⟩
  · exact ⟨_, exec_idle (hpc.trans hidle)⟩
  · exact ⟨_, exec_read (hpc ▸ hn) hf⟩
  · exact ⟨_, exec_write (hpc ▸ hn) hf⟩

/-- The same transaction with other bytes in the device differs at most in `TMP` and in the bytes. -/
theorem Transacts.steersAlike {i : Instr} {n : Nat} {s s' u u' : State} {a : Answer} (h : Transacts i n s a u)
    (h' : Transacts i n s' a u') (hs : SteersAlike s s') : SteersAlike u u' where
  pc := by rw [h.pc, h'.pc, hs.pc]
  x := by rw [h.x, h'.x, hs.x]
  rsp := by rw [h.rsp, h'.rsp, hs.rsp]
  halt := by rw [h.halt, h'.halt, hs.halt]
  cmdr := by rw [h.cmdr, h'.cmdr, hs.cmdr]
  rspValid := by rw [h.rspValid, h'.rspValid]
  moves := by rw [h.moves, h'.moves, hs.moves]
  draws := by rw [h.draws, h'.draws, hs.moves, hs.draws]

/-- A micro-step from two states that steer alike and have the same `TMP` leads to two states that steer alike. -/
theorem SteersAlike.exec {i : Instr} {s s' t t' : State} (hs : SteersAlike s s') (htmp : s'.tmp = s.tmp)
    (h : Machine.exec i s = .next t) (h' : Machine.exec i s' = .next t') : SteersAlike t t' := by
  by_cases hpc : s.pc = .idle
  · rw [exec_idle hpc] at h
    rw [exec_idle (hs.pc.trans hpc)] at h'
    cases h; cases h'
    have hq : SteersAlike s.quiet s'.quiet := { hs with rspValid := rfl }
    exact hq.accept htmp
  · obtain ⟨n, u, hn, hu, rfl⟩ := exec_transacts hpc h
    obtain ⟨n', u', hn', hu', rfl⟩ := exec_transacts (hs.pc ▸ hpc) h'
    obtain rfl : n = n' := Option.some.inj (hn.symm.trans (hs.pc ▸ hn'))
    rw [s.answer_eq_of s' hs.moves hs.draws] at hu' ⊢
    refine (hu.steersAlike hu' hs).conclude fun v ha => ?_
    rw [ha] at hu hu'
    rcases hu.tmp_eq_draw with hz | ht
    · exact .inl hz
    · exact hu'.tmp_eq_draw.imp id fun ht' => ht'.trans ht.symm

/-- Settles O50: the device's bytes reach `TMP` alone, and the result bit shows only a byte that is drawn. -/
theorem deviceContentNeverSteersTheController : Obligations.DeviceContentNeverSteersTheController := by
  intro i s t m h
  obtain ⟨t', h'⟩ := exec_next_congr (s := s) (s' := { s with mem := m }) rfl h
  have hs : SteersAlike s { s with mem := m } := ⟨rfl, rfl, rfl, rfl, rfl, rfl, rfl, rfl⟩
  have ht := hs.exec rfl h h'
  exact ⟨t', h', ht.pc, ht.x, ht.rsp, ht.halt, ht.cmdr, ht.rspValid, ht.moves, ht.draws⟩

/-! ## O51: the latches -/

theorem step_params {s t : State} (h : step s = .next t) : t.params = s.params := by
  cases step_outcome h with
  | accepted => exact (accept_follows _ _).params
  | illegal => rfl
  | reset landed => exact controllerReset_params landed _
  | waits hw => exact hw.params
  | transaction _ _ _ hu => exact (conclude_follows _ _ _ _).params.trans hu.params

/-- `CMDR` is written by an accepted word and by reset (R25). -/
theorem step_cmdr_changed {s t : State} (h : step s = .next t) (hne : t.cmdr ≠ s.cmdr) :
    resetsNext s = true ∨ ∃ w ms, s.moves = .command w :: ms ∧ s.cmdReady = true ∧ t.cmdr = w := by
  cases step_outcome h with
  | accepted hm hready => exact .inr ⟨_, _, hm, hready, (accept_follows _ _).cmdr⟩
  | illegal hm hready => exact .inr ⟨_, _, hm, hready, rfl⟩
  | reset landed hr => exact .inl hr
  | waits hw => exact absurd hw.cmdr hne
  | transaction _ _ _ hu => exact absurd ((conclude_follows _ _ _ _).cmdr.trans hu.cmdr) hne

/-- `TMP` is written by a read that answered `Ok` and by reset (R26). -/
theorem step_tmp_changed {s t : State} (h : step s = .next t) (hne : t.tmp ≠ s.tmp) :
    resetsNext s = true ∨ ∃ r v, t.port = some (.read r) ∧ s.answer = .ok v := by
  cases step_outcome h with
  | accepted => exact absurd (accept_follows _ _).tmp hne
  | illegal => exact absurd rfl hne
  | reset landed hr => exact .inl hr
  | waits hw => exact absurd hw.tmp hne
  | transaction _ _ _ hu =>
    rw [(conclude_follows _ _ _ _).tmp] at hne
    rw [(conclude_follows _ _ _ _).port]
    exact .inr (hu.tmp_changed hne)

/-- `RSP` is written when a response is presented and by reset (R27). -/
theorem step_rsp_changed {s t : State} (h : step s = .next t) (hne : t.rsp ≠ s.rsp) :
    resetsNext s = true ∨ t.rspValid = true := by
  cases step_outcome h with
  | accepted => exact .inr ((accept_follows _ _).rsp_changed hne)
  | illegal => exact .inr rfl
  | reset landed hr => exact .inl hr
  | waits hw => exact absurd hw.rsp hne
  | transaction _ _ _ hu => exact .inr ((conclude_follows _ _ _ _).rsp_changed (hu.rsp ▸ hne))

/-- Where a transaction leaves the sequencer: at the next position, or in `IDLE` with a response (R103 to R106, R112). -/
theorem Transacts.conclude_pc {i : Instr} {n : Nat} {s u : State} {a : Answer} (h : Transacts i n s a u)
    (hpc : s.pc.txn = some n) :
    let t := conclude (commandOf i) n a u
    (t.pc.txn = some (n + 1) ∧ n + 1 < (commandOf i).plan.length ∧ ∃ v, a = .ok v) ∨
      (t.pc = .idle ∧ t.rspValid = true ∧
        ((n + 1 = (commandOf i).plan.length ∧ ∃ v, a = .ok v) ∨ ∃ e landed, a = .err e landed)) := by
  intro t
  rcases conclude_cases (commandOf i) n a u with ⟨hlast, ha, ht⟩ | ⟨hn, ha, ht⟩ | ⟨e, landed, ha, ht⟩ <;>
    simp only [t, ht]
  · exact .inr ⟨rfl, rfl, .inl ⟨hlast, ha⟩⟩
  · exact .inl ⟨h.txn_succ hpc hn, h.next_planned hn, ha⟩
  · exact .inr ⟨rfl, rfl, .inr ⟨e, landed, ha⟩⟩

/-- Settles O51, one latch at a time. -/
theorem latchesChangeOnlyAsTheRulesSay : Obligations.LatchesChangeOnlyAsTheRulesSay := by
  intro s t hstep
  refine ⟨step_params hstep, step_cmdr_changed hstep, step_tmp_changed hstep, step_rsp_changed hstep, fun hne => ?_⟩
  cases step_outcome hstep with
  | @accepted w ms i hm hready hword =>
    obtain ⟨hidle, _⟩ := (cmdReady_iff s).mp hready
    obtain ⟨ht0, hplan⟩ := accept_pc_changed (s := ((s.withMoves ms).latch w).quiet) hidle hne
    exact .inr (.inl ⟨hidle, ht0, w, ms, i, hm, hready, hword, hplan⟩)
  | illegal _ hready => exact absurd ((cmdReady_iff s).mp hready).1.symm hne
  | reset landed hr => exact .inl hr
  | waits hw => exact absurd hw.pc hne
  | transaction hm hn hword hu => exact .inr (.inr ⟨hm, _, _, hword, hn, hu.conclude_pc hn⟩)

/-! ## O52, O53: the halt flag -/

/-- The commands that break the contract are the constructors with an index above 7 (R166). -/
theorem breaksContract_cases {i : Instr} (hi : (commandOf i).breaksContract = true) :
    ∃ h b n, 8 ≤ n ∧ (i = .newi h b n ∨ ∃ l, i = .newo h b n l) := by
  cases i with
  | newi h b n => exact ⟨h, b, n, by simpa [Command.breaksContract] using hi, .inl rfl⟩
  | newo h b n l => exact ⟨h, b, n, by simpa [Command.breaksContract] using hi, .inr ⟨l, rfl⟩⟩
  | _ => cases hi

/-- Settles O52: `raise .contract` alone writes 1 to `HALT`, and only the acceptance raises it. -/
theorem haltIsSetOnlyByAContractViolation : Obligations.HaltIsSetOnlyByAContractViolation := by
  intro s t hstep hrun hhalt
  cases step_outcome hstep with
  | illegal => exact absurd (hrun.symm.trans hhalt) (by decide)
  | reset => cases hhalt
  | waits hw => exact absurd (hrun.symm.trans (hw.halt.symm.trans hhalt)) (by decide)
  | transaction _ _ _ hu =>
    rw [conclude_halt, hu.halt, hrun] at hhalt
    cases hhalt
  | @accepted w ms i hm hready hword =>
    cases hbreaks : (commandOf i).breaksContract with
    | false =>
      rw [accept_halt hbreaks] at hhalt
      exact absurd (hrun.symm.trans hhalt) (by decide)
    | true =>
      rw [accept_of_breaksContract hbreaks]
      obtain ⟨h, b, n, hn, hi⟩ := breaksContract_cases hbreaks
      have hdecode : decode w = .ok (.newi h b n) ∨ ∃ l, decode w = .ok (.newo h b n l) := by
        rcases hi with rfl | ⟨l, rfl⟩
        · exact .inl hword
        · exact .inr ⟨l, hword⟩
      exact ⟨w, ms, h, b, n, hm, ((cmdReady_iff s).mp hready).1, hn, hdecode, rfl, rfl, rfl, rfl, rfl⟩

/-- Settles O53: a halted controller takes no word and has no command in progress, so it can only wait. -/
theorem haltIsLeftOnlyByReset : Obligations.HaltIsLeftOnlyByReset := by
  intro s t hidle hhalt hstep hreset
  have hnotReady : s.cmdReady ≠ true := fun hr => by simp [((cmdReady_iff s).mp hr).2] at hhalt
  cases step_outcome hstep with
  | accepted _ hready => exact absurd hready hnotReady
  | illegal _ hready => exact absurd hready hnotReady
  | reset _ hr => exact absurd (hreset.symm.trans hr) (by decide)
  | waits hw => exact ⟨hw.halt.trans hhalt, hw.x, hw.pc, hw.cmdr, hw.tmp, hw.rsp, hw.rspValid, hw.port⟩
  | transaction _ hn =>
    rw [hidle hhalt] at hn
    cases hn

/-! ## O54: a command in progress ends -/

/-- What O54 asks for, with a bound on the number of steps: after at most `m` of them the command ends with a response, and
until then it is in progress without one. -/
def EndsWithin (m : Nat) (s : State) : Prop :=
  ∃ k t, 1 ≤ k ∧ k ≤ m ∧ runs k s = .next t ∧ t.pc = .idle ∧ t.rspValid = true ∧ t.halt = s.halt ∧
    ∀ j u, 1 ≤ j → j < k → runs j s = .next u → u.rspValid = false ∧ u.pc ≠ .idle

theorem endsWithin_one {s t : State} (hstep : step s = .next t) (hpc : t.pc = .idle) (hv : t.rspValid = true)
    (hh : t.halt = s.halt) : EndsWithin 1 s :=
  ⟨1, t, le_rfl, le_rfl, runs_succ 0 hstep, hpc, hv, hh, fun j u h1 h2 => absurd h2 (by omega)⟩

theorem EndsWithin.mono {m m' : Nat} {s : State} (h : EndsWithin m s) (hle : m ≤ m') : EndsWithin m' s := by
  obtain ⟨k, t, h1, hk, hrest⟩ := h
  exact ⟨k, t, h1, hk.trans hle, hrest⟩

/-- One more step in front of a run to the end. -/
theorem EndsWithin.step {m : Nat} {s t : State} (h : EndsWithin m t) (hstep : Machine.step s = .next t)
    (hv : t.rspValid = false) (hpc : t.pc ≠ .idle) (hh : t.halt = s.halt) : EndsWithin (m + 1) s := by
  obtain ⟨k, e, _, hk, hrun, hidle, hresp, hhalt, hbefore⟩ := h
  refine ⟨k + 1, e, by omega, by omega, (runs_succ k hstep).trans hrun, hidle, hresp, hhalt.trans hh, ?_⟩
  intro j u hj hjk hu
  obtain ⟨j, rfl⟩ : ∃ l, j = l + 1 := ⟨j - 1, by omega⟩
  rw [runs_succ j hstep] at hu
  cases j with
  | zero => cases hu; exact ⟨hv, hpc⟩
  | succ j => exact hbefore (j + 1) u (by omega) (by omega) hu

/-- While no outside agent moves, the step is the next micro-step of the command in progress (R103, R104). -/
theorem InProgress.step_eq_exec {i : Instr} {n : Nat} {s : State} (h : InProgress i n s) (ho : OnlyAnswers s) :
    step s = exec i s := by
  have hrun : continueCommand s = exec i s := by simp only [continueCommand, h.word]
  cases hm : s.moves with
  | nil => simp only [step, hm, h.pc_ne_idle, if_false, hrun]
  | cons mv ms =>
    cases mv with
    | answer a => simp only [step, hm, h.pc_ne_idle, if_false, hrun]
    | _ => simp [OnlyAnswers, hm] at ho

/-- Taking an answer leaves nothing but answers. -/
theorem onlyAnswers_of_moves {s t : State} (ho : OnlyAnswers s) (hm : t.moves = movesAfterAnswer s.moves) :
    OnlyAnswers t := by
  unfold OnlyAnswers at ho ⊢
  rw [hm]
  cases hs : s.moves with
  | nil => rfl
  | cons mv ms =>
    rw [hs, List.all_cons, Bool.and_eq_true] at ho
    cases mv with
    | answer a => exact ho.2
    | _ => cases ho.1

/-- One step of a command while the host and the environment are silent: it ends with a response, or it is at its next
transaction without one. -/
theorem InProgress.silent_step {i : Instr} {n : Nat} {s : State} (h : InProgress i n s) (ho : OnlyAnswers s) :
    ∃ t, step s = .next t ∧ OnlyAnswers t ∧ t.halt = s.halt ∧
      ((t.pc = .idle ∧ t.rspValid = true) ∨ (InProgress i (n + 1) t ∧ t.rspValid = false)) := by
  obtain ⟨t, ht⟩ := h.exec_next
  obtain ⟨n', u, hn', hu, rfl⟩ := exec_transacts h.pc_ne_idle ht
  obtain rfl : n' = n := Option.some.inj (hn'.symm.trans h.position)
  have hend := conclude_follows (commandOf i) n' s.answer u
  have hhalt := (conclude_halt (commandOf i) n' s.answer u).trans hu.halt
  refine ⟨_, (h.step_eq_exec ho).trans ht, onlyAnswers_of_moves ho (hend.moves.trans hu.moves), hhalt, ?_⟩
  rcases conclude_cases (commandOf i) n' s.answer u with ⟨_, _, hc⟩ | ⟨hn, _, hc⟩ | ⟨_, _, _, hc⟩ <;> rw [hc]
  · exact .inl ⟨rfl, rfl⟩
  · exact .inr ⟨(h.congr hu.halt hu.pc hu.cmdr hu.x).setPc_succ hn, hu.rspValid⟩
  · exact .inl ⟨rfl, rfl⟩

/-- A command ends within as many steps as its plan has transactions left. -/
theorem InProgress.endsWithin {i : Instr} {n d : Nat} {s : State} (h : InProgress i n s) (ho : OnlyAnswers s)
    (hd : (commandOf i).plan.length = n + d) : EndsWithin d s := by
  induction d generalizing n s with
  | zero =>
    have := h.planned
    omega
  | succ d ih =>
    obtain ⟨t, hstep, hot, hh, ⟨hpc, hv⟩ | ⟨hnext, hv⟩⟩ := h.silent_step ho
    · exact (endsWithin_one hstep hpc hv hh).mono (by omega)
    · exact (ih hnext hot (by omega)).step hstep hv hnext.pc_ne_idle hh

/-- Settles O54: no plan has more than four transactions. -/
theorem commandInProgressEnds : Obligations.CommandInProgressEnds := by
  intro s hlegal ho hpc
  obtain ⟨i, n, h⟩ := hlegal.inProgress hpc
  have hplanned := h.planned
  have hlen := plan_length_le i
  exact (h.endsWithin (d := (commandOf i).plan.length - n) ho (by omega)).mono (by omega)

end Sys2Proof.Machine
end

section
/-! PROOFS. The device as a memory: how a failed transaction ends its command and what it leaves stored (O22, O23), the
write of a second master inside a read-modify-write (O33), and the pin's bit as the only one a step changes (O42). -/

namespace Sys2Proof.Machine

/-! ## O22, O23: a transaction that fails -/

/-- A failure empties the handle register of a transition that consumes its pin object; any other instruction with a
transaction that can fail keeps it (R23). DROP has none. -/
theorem onErr_eq {i : Instr} {n : Nat} {p : PlanStep} (hp : (commandOf i).plan[n]? = some p) :
    (commandOf i).onErr = if losesHandleOnFailure i = true then .clear else .keep := by
  cases i with
  | drop h => cases hp
  | _ => rfl

/-- The abort writes `RSP` and the handle register, goes to `IDLE` and presents the response; all else stays as it was
(R105, R163). -/
theorem abort_eq {i : Instr} {n : Nat} {p : PlanStep} (hp : (commandOf i).plan[n]? = some p) (e : DevErr) (s : State) :
    abort (commandOf i) n e s = { s with
      pc := .idle, rsp := rspWord .devErr false (BitVec.ofNat 2 n) e, rspValid := true
      x := if losesHandleOnFailure i then s.x.set i.hreg.val Handle.empty i.hreg.isLt else s.x } := by
  rw [abort, onErr_eq hp]
  cases losesHandleOnFailure i with
  | false => rfl
  | true => rw [← commandOf_h i]; rfl

/-- Settles O22: the read micro-step aborts with nothing but the transaction on the port. -/
theorem failedReadAbortsTheCommand : Obligations.FailedReadAbortsTheCommand := by
  intro i s n f e landed hn hf ha
  rw [exec_read hn hf, readStep_err (s.quiet_answer.trans ha), abort_eq hf]
  rfl

/-- Settles O23: the write micro-step aborts with the byte stored, or not, as the answer says. -/
theorem failedWriteLeavesOldOrNewByte : Obligations.FailedWriteLeavesOldOrNewByte := by
  intro i s n f m e landed hn hf ha
  rw [exec_write hn hf, writeStep_err (s.quiet_answer.trans ha), abort_eq hf]
  cases landed <;> rfl

/-! ## O33: a second master's write -/

/-- The step in which another master writes a storage register (R64, R206). -/
theorem step_otherMaster {s : State} {r : RegisterId} {v : Byte} {ms : List Move}
    (hm : s.moves = .otherMaster r v :: ms) (hr : isInputReg s.params r = false) :
    step s = .next ((s.withMoves ms).quiet.setDev r v) := by
  simp only [step, hm, otherMasterWrite, State.withMoves_params, hr, Bool.false_eq_true, if_false]

/-- The step in which the device answers is the next micro-step of the command in progress (R103, R104). -/
theorem step_answer {i : Instr} {s : State} {a : Answer} {ms : List Move} (hm : s.moves = .answer a :: ms)
    (hpc : s.pc ≠ .idle) (hword : decode s.cmdr = .ok i) : step s = exec i s := by
  simp only [step, hm, hpc, if_false, continueCommand, hword]

/-- A last write that answers `Ok` stores the byte made from `TMP` and completes the command (R104, R106). -/
theorem exec_lastWrite_ok {i : Instr} {s : State} {n : Nat} {f : Fn} {m : BitMod} {v : Byte} (hn : s.pc.txn = some n)
    (hf : (commandOf i).plan[n]? = some (.write f m)) (hlast : n + 1 = (commandOf i).plan.length)
    (ha : s.answer = .ok v) :
    exec i s = .next (complete (commandOf i)
      ((s.issue (.write (plannedReg i s f) (plannedByte i s m))).setDev (plannedReg i s f) (plannedByte i s m))) := by
  rw [exec_write hn hf, writeStep_ok (s.quiet_answer.trans ha), advance, if_pos hlast]
  rfl

/-- A command without a result bit completes with the response word 0 (R90, R106). -/
theorem complete_rsp_of_zero {c : Command} (hres : c.result = .zero) (s : State) : (complete c s).rsp = 0x0000 := by
  simp only [complete, respond_rsp, hres, ResultBit.value]
  exact rspWord_ok false

/-- The second transaction of SETH, answered `Ok`, stores `TMP` with the pin's bit set and completes (R131). -/
theorem step_seth_write {h : HReg} {s : State} {v : Byte} {ms : List Move} (hm : s.moves = .answer (.ok v) :: ms)
    (hpc : s.pc = .t1) (hword : decode s.cmdr = .ok (.seth h)) :
    step s = .next (complete (commandOf (.seth h))
      ((s.issue (.write (plannedReg (.seth h) s .out) (plannedByte (.seth h) s .set))).setDev
        (plannedReg (.seth h) s .out) (plannedByte (.seth h) s .set))) := by
  have hn : s.pc.txn = some 1 := by rw [hpc]; rfl
  have ha : s.answer = .ok v := by rw [State.answer, hm]
  rw [step_answer hm (by simp [hpc]) hword, exec_lastWrite_ok hn rfl rfl ha]

/-- Settles O33: the byte SETH writes is made from `TMP`, which the other master's write does not reach. -/
theorem otherMastersWriteIsLost : Obligations.OtherMastersWriteIsLost := by
  intro s h v smp ms hregs hpc hword hm
  have hother := step_otherMaster hm (isInputReg_eq_false hregs _ (by decide))
  set u := (s.withMoves (.answer (.ok smp) :: ms)).quiet.setDev (regSel s.params (s.getX h).bank .out) v
  have hseth := step_seth_write (s := u) rfl hpc hword
  refine ⟨⟨u, runs_succ 0 hother, State.devReg_setDev_self ..⟩,
    ⟨_, (runs_succ 1 hother).trans (runs_succ 0 hseth), ?_, complete_rsp_of_zero rfl _, rfl⟩⟩
  rw [complete_devReg]
  exact State.devReg_setDev_self ..

/-! ## O42: the siblings of a pin -/

/-- A write of a plan differs from the byte it is made from in the pin's bit alone (R65, R108). -/
theorem bit_apply_ne (m : BitMod) (v : Byte) {i j : PinIdx} (h : j ≠ i) : bit (m.apply v i) j = bit v j := by
  cases m with
  | set => simp [BitMod.apply, bit_setbit, h.symm]
  | clear => simp [BitMod.apply, bit_clrbit, h.symm]

/-- Settles O42: the one byte a step changes is that of the planned write (O40), made from the byte the register still
holds, so a bit that differs is the pin's. -/
theorem onlyThePinsBitChanges : Obligations.OnlyThePinsBitChanges := by
  intro s t b f j hlegal hfresh hu hstep hbit
  have hreg : t.devReg b f = t.devByte (regSel s.params b f) := by rw [State.devReg, step_params hstep]
  rw [hreg] at hbit
  obtain ⟨i, n, f', m, hword, hn, hf, hr, hv⟩ :=
    deviceChangesOnlyByThePlannedWrite s t _ hstep hu fun heq => hbit (congrArg (bit · j) heq)
  obtain ⟨rfl, rfl⟩ := regSel_inj hlegal.1 hr
  have htmp := (freshOk_iff s).mp hfresh i n f m hword hn hf
  rw [hv, htmp] at hbit
  exact ⟨i, n, m, hword, hn, hf, rfl, by_contra fun hj => hbit (bit_apply_ne m _ hj)⟩

end Sys2Proof.Machine
end

section
/-! PROOFS. The decoder and the encoder are inverse, and the words the decoder refuses are those of R86 (O1 to O4).

The masks and patterns of the opcode map are read field by field once (`accepts_iff`): a row accepts a word when the word
has the row's opcode and obeys the field rule of R83, which speaks of the opcode alone. The opcodes of the rows are
distinct, so the row that accepts a word is the only one, and the order in which the decoder tries the rows plays no
part. -/

namespace Sys2Proof

/-! ## The opcode map, field by field -/

/-- A row of the map is one of the twelve (R84). -/
theorem opTable_cases {motive : (r : OpRow) → r ∈ opTable → Prop}
    (newi : ∀ h, motive rowNewi h) (ishi : ∀ h, motive rowIshi h) (islo : ∀ h, motive rowIslo h)
    (spol : ∀ h, motive rowSpol h) (i2i : ∀ h, motive rowI2i h) (i2o : ∀ h, motive rowI2o h)
    (newo : ∀ h, motive rowNewo h) (seth : ∀ h, motive rowSeth h) (setl : ∀ h, motive rowSetl h)
    (o2i : ∀ h, motive rowO2i h) (o2o : ∀ h, motive rowO2o h) (drop : ∀ h, motive rowDrop h)
    (r : OpRow) (hr : r ∈ opTable) : motive r hr := by
  have h := hr
  simp only [opTable, List.mem_cons, List.not_mem_nil, or_false] at h
  rcases h with rfl | rfl | rfl | rfl | rfl | rfl | rfl | rfl | rfl | rfl | rfl | rfl
  exacts [newi hr, ishi hr, islo hr, spol hr, i2i hr, i2o hr, newo hr, seth hr, setl hr, o2i hr, o2o hr, drop hr]

/-- The opcode a row of the map stands for (R84). -/
def OpRow.opcode (r : OpRow) : BitVec 4 := opField r.pattern

/-- The instructions that use the fields `bank` and `idx`: NEWI and NEWO (R83). -/
abbrev UsesPin (op : BitVec 4) : Prop := op = 0x1 ∨ op = 0x7

/-- The instructions that use the field `arg`: SPOL, I2O, NEWO and O2O (R83). -/
abbrev UsesArg (op : BitVec 4) : Prop := op = 0x4 ∨ op = 0x6 ∨ op = 0x7 ∨ op = 0xB

/-- The opcodes no instruction has (R86). -/
abbrev UnknownOpcode (op : BitVec 4) : Prop := op = 0x0 ∨ op = 0xD ∨ op = 0xE ∨ op = 0xF

/-- The reserved field and the fields the word's opcode does not use are 0 (R83). -/
def FieldRule (w : Word) : Prop :=
  zField w = 0 ∧ (¬ UsesPin (opField w) → bankField w = 0 ∧ idxField w = 0) ∧
    (¬ UsesArg (opField w) → argField w = 0)

/-- A pattern holds nothing but the opcode. -/
theorem pattern_fields : ∀ r ∈ opTable, hField r.pattern = 0 ∧ bankField r.pattern = 0 ∧ argField r.pattern = 0 ∧
    zField r.pattern = 0 ∧ idxField r.pattern = 0 := by decide

/-- A mask covers the opcode, the reserved field and the fields the instruction does not use (R83, R84). -/
theorem mask_fields : ∀ r ∈ opTable, opField r.mask = BitVec.allOnes 4 ∧ hField r.mask = 0 ∧
    bankField r.mask = (if UsesPin r.opcode then 0 else BitVec.allOnes 1) ∧
    argField r.mask = (if UsesArg r.opcode then 0 else BitVec.allOnes 1) ∧ zField r.mask = BitVec.allOnes 2 ∧
    idxField r.mask = (if UsesPin r.opcode then 0 else BitVec.allOnes 4) := by decide

/-- A field is masked to 0 when it is used, or is 0 itself. -/
theorem and_unusedMask_eq_zero {n : Nat} (used : Prop) [Decidable used] (v : BitVec n) :
    v &&& (if used then 0 else BitVec.allOnes n) = 0 ↔ (¬ used → v = 0) := by
  split <;> simp [*]

/-- A row accepts the words with its opcode that obey the field rule. -/
theorem accepts_iff {r : OpRow} (hr : r ∈ opTable) (w : Word) :
    r.accepts w = true ↔ opField w = r.opcode ∧ FieldRule w := by
  obtain ⟨ph, pb, pa, pz, pi⟩ := pattern_fields r hr
  obtain ⟨mo, mh, mb, ma, mz, mi⟩ := mask_fields r hr
  have hh : hField (w &&& r.mask) = 0 := by rw [hField_and, mh]; simp
  rw [OpRow.accepts, beq_iff_eq, and_eq_iff_fields, hh, mo, mb, ma, mz, mi, ph, pb, pa, pz, pi, BitVec.and_allOnes,
    BitVec.and_allOnes, and_unusedMask_eq_zero, and_unusedMask_eq_zero, and_unusedMask_eq_zero, ← OpRow.opcode]
  refine and_congr_right fun ho => ?_
  rw [FieldRule, ho]
  tauto

/-! ## The decoder finds the one row that accepts the word -/

/-- No two rows have one opcode. -/
theorem opcode_inj {r r' : OpRow} (hr : r ∈ opTable) (hr' : r' ∈ opTable) (h : r.opcode = r'.opcode) : r = r' :=
  List.inj_on_of_nodup_map (show (opTable.map OpRow.opcode).Nodup by decide) hr hr' h

/-- The rows are disjoint (R84). -/
theorem accepts_unique {r r' : OpRow} {w : Word} (hr : r ∈ opTable) (hr' : r' ∈ opTable) (h : r.accepts w = true)
    (h' : r'.accepts w = true) : r = r' :=
  opcode_inj hr hr' (((accepts_iff hr w).mp h).1.symm.trans ((accepts_iff hr' w).mp h').1)

/-- A word decodes to what a row that accepts it builds (R85). -/
theorem decode_eq_ok_iff (w : Word) (i : Instr) :
    decode w = .ok i ↔ ∃ r ∈ opTable, r.accepts w = true ∧ r.build w = i := by
  unfold decode
  split
  · next r hf =>
    have hr := List.mem_of_find?_eq_some hf
    have ha := List.find?_some (p := fun r => OpRow.accepts r w) hf
    constructor
    · intro h
      exact ⟨r, hr, ha, Except.ok.inj h⟩
    · rintro ⟨r', hr', ha', rfl⟩
      rw [accepts_unique hr hr' ha ha']
  · next hf =>
    constructor
    · intro h
      cases h
    · rintro ⟨r, hr, ha, -⟩
      exact absurd ha (List.find?_eq_none.mp hf r hr)

/-- A word is illegal when no row accepts it (R86). -/
theorem decode_eq_error_iff (w : Word) : (∃ e, decode w = .error e) ↔ ¬ ∃ r ∈ opTable, r.accepts w = true := by
  cases hd : decode w with
  | ok i =>
    obtain ⟨r, hr, ha, -⟩ := (decode_eq_ok_iff w i).mp hd
    constructor
    · rintro ⟨_, he⟩
      cases he
    · exact fun hn => absurd ⟨r, hr, ha⟩ hn
  | error e =>
    refine ⟨fun _ ⟨r, hr, ha⟩ => ?_, fun _ => ⟨e, rfl⟩⟩
    have hok := (decode_eq_ok_iff w _).mpr ⟨r, hr, ha, rfl⟩
    rw [hd] at hok
    cases hok

/-! ## Instruction to word and back (O1) -/

@[simp] theorem Bank.ofCode_code (b : Bank) : Bank.ofCode b.code = b := by cases b <;> rfl

@[simp] theorem Level.ofCode_code (l : Level) : Level.ofCode l.code = l := by cases l <;> rfl

@[simp] theorem Polarity.ofCode_code (p : Polarity) : Polarity.ofCode p.code = p := by cases p <;> rfl

/-- An index that fits its field comes back from it (R82). -/
theorem toNat_ofNat_index {n : Nat} (h : IndexFits n) : (BitVec.ofNat 4 n).toNat = n := by
  rw [BitVec.toNat_ofNat]
  exact Nat.mod_eq_of_lt h

theorem rowOf_mem (i : Instr) : rowOf i ∈ opTable := by
  cases i <;> simp [rowOf, opTable]

/-- The word of an instruction is one of its own row, whatever the instruction. -/
theorem encode_matches_rowOf : ∀ i, Laws.RowMatch.Statement i
  | .newi h b n => Laws.RowMatch.newi h b n
  | .ishi h => Laws.RowMatch.ishi h
  | .islo h => Laws.RowMatch.islo h
  | .spol h p => Laws.RowMatch.spol h p
  | .i2i h => Laws.RowMatch.i2i h
  | .i2o h l => Laws.RowMatch.i2o h l
  | .newo h b n l => Laws.RowMatch.newo h b n l
  | .seth h => Laws.RowMatch.seth h
  | .setl h => Laws.RowMatch.setl h
  | .o2i h => Laws.RowMatch.o2i h
  | .o2o h l => Laws.RowMatch.o2o h l
  | .drop h => Laws.RowMatch.drop h

theorem rowOf_accepts_encode (i : Instr) : (rowOf i).accepts (encode i) = true :=
  beq_iff_eq.mpr (encode_matches_rowOf i)

/-- The row of a well-formed instruction reads every operand back from the instruction's word (R81, R82). -/
theorem rowOf_build_encode {i : Instr} (hi : i.wellFormed = true) : (rowOf i).build (encode i) = i := by
  cases i with
  | newi h b n => simp [rowOf, rowNewi, encode, toNat_ofNat_index (of_decide_eq_true hi)]
  | newo h b n l => simp [rowOf, rowNewo, encode, toNat_ofNat_index (of_decide_eq_true hi)]
  | spol h p => simp [rowOf, rowSpol, encode]
  | i2o h l => simp [rowOf, rowI2o, encode]
  | o2o h l => simp [rowOf, rowO2o, encode]
  | _ h => exact congrArg _ (hField_packWord ..)

/-- Settles O1: the row of the instruction accepts its word, and builds the instruction from it. -/
theorem decodeOfEncodeIsTheInstruction : Obligations.DecodeOfEncodeIsTheInstruction := by
  intro i hi
  exact (decode_eq_ok_iff _ _).mpr ⟨rowOf i, rowOf_mem i, rowOf_accepts_encode i, rowOf_build_encode hi⟩

/-! ## Word to instruction and back (O2) -/

@[simp] theorem Bank.code_ofCode (c : BitVec 1) : (Bank.ofCode c).code = c := by revert c; decide

@[simp] theorem Level.code_ofCode (c : BitVec 1) : (Level.ofCode c).code = c := by revert c; decide

@[simp] theorem Polarity.code_ofCode (c : BitVec 1) : (Polarity.ofCode c).code = c := by revert c; decide

/-- The four bits of the field `idx` hold an index that fits (R82). -/
theorem indexFits_idxField (w : Word) : IndexFits (idxField w).toNat := (idxField w).isLt

theorem build_wellFormed {r : OpRow} (hr : r ∈ opTable) (w : Word) : (r.build w).wellFormed = true := by
  cases r, hr using opTable_cases with
  | newi | newo => exact decide_eq_true (indexFits_idxField w)
  | _ => rfl

/-- What a row builds is encoded with the row's opcode, the word's handle number and those fields of the word that the
opcode uses, the others 0 (R83, R88). -/
theorem encode_build {r : OpRow} (hr : r ∈ opTable) (w : Word) :
    encode (r.build w) = packWord r.opcode (hField w) (if UsesPin r.opcode then bankField w else 0)
      (if UsesArg r.opcode then argField w else 0) (if UsesPin r.opcode then idxField w else 0) := by
  cases r, hr using opTable_cases with
  | newi => simp only [rowNewi, encode, Bank.code_ofCode, BitVec.ofNat_toNat, BitVec.setWidth_eq]; rfl
  | newo => simp only [rowNewo, encode, Bank.code_ofCode, Level.code_ofCode, BitVec.ofNat_toNat, BitVec.setWidth_eq]; rfl
  | spol => simp only [rowSpol, encode, Polarity.code_ofCode]; rfl
  | i2o => simp only [rowI2o, encode, Level.code_ofCode]; rfl
  | o2o => simp only [rowO2o, encode, Level.code_ofCode]; rfl
  | _ => rfl

/-- A row's instruction has the word it was built from, when the row accepts that word. -/
theorem encode_build_of_accepts {r : OpRow} {w : Word} (hr : r ∈ opTable) (ha : r.accepts w = true) :
    encode (r.build w) = w := by
  obtain ⟨ho, hz, hpin, harg⟩ := (accepts_iff hr w).mp ha
  have hbank : (if UsesPin (opField w) then bankField w else 0) = bankField w :=
    ite_eq_left_iff.mpr fun hp => (hpin hp).1.symm
  have hidx : (if UsesPin (opField w) then idxField w else 0) = idxField w :=
    ite_eq_left_iff.mpr fun hp => (hpin hp).2.symm
  have harg' : (if UsesArg (opField w) then argField w else 0) = argField w :=
    ite_eq_left_iff.mpr fun hp => (harg hp).symm
  rw [encode_build hr, ← ho, hbank, hidx, harg', packWord_fields w hz]

/-- Settles O2: no bit of an accepted word is lost, since those the row does not read are 0. -/
theorem encodeOfDecodeIsTheWord : Obligations.EncodeOfDecodeIsTheWord := by
  intro w i hd
  obtain ⟨r, hr, ha, rfl⟩ := (decode_eq_ok_iff w i).mp hd
  exact ⟨build_wellFormed hr w, encode_build_of_accepts hr ha⟩

/-! ## The illegal words (O3) -/

/-- Twelve of the sixteen opcodes have a row (R84). -/
theorem exists_row_iff (op : BitVec 4) : (∃ r ∈ opTable, r.opcode = op) ↔ ¬ UnknownOpcode op := by
  revert op; decide

theorem exists_accepts_iff (w : Word) :
    (∃ r ∈ opTable, r.accepts w = true) ↔ ¬ UnknownOpcode (opField w) ∧ FieldRule w := by
  rw [← exists_row_iff]
  constructor
  · rintro ⟨r, hr, ha⟩
    obtain ⟨ho, hw⟩ := (accepts_iff hr w).mp ha
    exact ⟨⟨r, hr, ho.symm⟩, hw⟩
  · rintro ⟨⟨r, hr, ho⟩, hw⟩
    exact ⟨r, hr, (accepts_iff hr w).mpr ⟨ho.symm, hw⟩⟩

/-- The field rule is broken by the reserved field or by a field the opcode does not use. -/
theorem not_fieldRule_iff (w : Word) : ¬ FieldRule w ↔ zField w ≠ 0 ∨
    (¬ UsesPin (opField w) ∧ (bankField w ≠ 0 ∨ idxField w ≠ 0)) ∨ (¬ UsesArg (opField w) ∧ argField w ≠ 0) := by
  unfold FieldRule
  tauto

/-- Settles O3: a word is refused when no row has its opcode or the field rule is broken. -/
theorem illegalWordsAreThoseOfTheRule : Obligations.IllegalWordsAreThoseOfTheRule := by
  intro w
  rw [decode_eq_error_iff, exists_accepts_iff, not_and_or, not_not, not_fieldRule_iff]
  simp only [UsesPin, UsesArg, not_or, and_assoc, ne_eq]

/-! ## Sample words (O4) -/

/-- A word written out for a well-formed instruction decodes to it. -/
theorem decode_of_encode_eq {w : Word} {i : Instr} (hi : i.wellFormed = true) (hw : encode i = w) :
    decode w = .ok i :=
  hw ▸ decodeOfEncodeIsTheInstruction i hi

/-- Settles O4: the eight legal words are those of their instructions (O1); the decoder is run on the three others. -/
theorem sampleWordsDecode : Obligations.SampleWordsDecode :=
  ⟨decode_of_encode_eq rfl rfl, decode_of_encode_eq rfl rfl, decode_of_encode_eq rfl rfl, decode_of_encode_eq rfl rfl,
    decode_of_encode_eq rfl rfl, decode_of_encode_eq rfl rfl, decode_of_encode_eq rfl rfl, decode_of_encode_eq rfl rfl,
    by decide, by decide, by decide⟩

end Sys2Proof
end

section
/-! PROOFS. The read-modify-write sequencer (O5 to O7, O20, O24 to O28, O43, O44, O56, O60): which micro-step a step runs,
what one micro-step and one plan are, the level that NEWO and I2O program before the direction, and whole commands.

A whole command is cut into its acceptance (`step_accepts`) and its transactions (`InProgress.step_transacts`), each of
which leads to the next through `InProgress`. The transactions come in pairs that read and write one register; what such a
pair does is said once, by `ReadsModifiesWrites`. -/

namespace Sys2Proof.Machine

/-! ## O5, O6, O7: which micro-step a step runs -/

/-- An accepted word is taken off the list of moves and latched, and its instruction runs (R100, R101). -/
theorem step_command {i : Instr} {s : State} {w : Word} {ms : List Move} (hm : s.moves = .command w :: ms)
    (hready : s.cmdReady = true) (hword : decode w = .ok i) : step s = exec i ((s.withMoves ms).latch w) := by
  have hready' : (s.withMoves ms).cmdReady = true := hready
  simp only [step, hm, presentWord, hready', if_true, acceptWord, hword]

/-- Settles O5. -/
theorem stepRunsTheAcceptedInstruction : Obligations.StepRunsTheAcceptedInstruction := by
  intro s w ms i hpc hrun hm hword
  exact step_command hm ((cmdReady_iff s).mpr ⟨hpc, hrun⟩) hword

/-- Settles O6: the two cases of the device's turn, a listed answer and a free one. -/
theorem stepRunsTheInstructionInProgress : Obligations.StepRunsTheInstructionInProgress := by
  rintro s i hpc hword (hm | ⟨a, ms, hm⟩)
  · simp only [step, hm, hpc, if_false, continueCommand, hword]
  · exact step_answer hm hpc hword

/-- Settles O7: a controller that is busy or halted is not ready, and then the word goes by. -/
theorem wordWhileNotReadyHasNoEffect : Obligations.WordWhileNotReadyHasNoEffect := by
  intro s w ms hm hbusy
  have hnotReady : ¬ (s.withMoves ms).cmdReady = true := by
    rw [cmdReady_iff]
    rintro ⟨hpc, hrun⟩
    rcases hbusy with hne | hhalt
    · exact hne hpc
    · exact absurd (hrun.symm.trans hhalt) (by decide)
  simp only [step, hm, presentWord, if_neg hnotReady]
  rfl

/-! ## O20: the contract check at acceptance -/

/-- A constructor with an index above 7 is refused at acceptance, and the controller halts (R101 step 2, R166). -/
theorem exec_of_breaksContract {i : Instr} {s : State} (hi : (commandOf i).breaksContract = true) (hpc : s.pc = .idle) :
    exec i s = .next { s with halt := true, rsp := 0x0004, rspValid := true, port := none } := by
  have hraise : raise .contract s.quiet =
      { s with pc := .idle, halt := true, rsp := 0x0004, rspValid := true, port := none } := rfl
  rw [exec_idle hpc, accept_of_breaksContract hi, hraise, ← hpc]

/-- Settles O20. -/
theorem indexAboveSevenHalts : Obligations.IndexAboveSevenHalts := by
  intro h b i l s hi hpc
  exact ⟨exec_of_breaksContract (decide_eq_true hi) hpc, exec_of_breaksContract (decide_eq_true hi) hpc⟩

/-! ## O24, O25: the two micro-steps -/

/-- Whatever the answer, a read leaves the state with the transaction on the port (R52). -/
theorem memRead_state {r : RegisterId} {s s' : State} {o : Except DevErr Byte} (h : memRead r s = (o, s')) :
    s' = s.afterAnswer.present (.read r) := by
  rcases memRead_cases r s with ⟨_, _, hr⟩ | ⟨_, _, _, hr⟩ <;> rw [hr] at h <;> exact (Prod.mk.inj h).2.symm

/-- Whatever the answer, a write leaves `pc` and `TMP` alone (R53, R104). -/
theorem memWrite_keeps {r : RegisterId} {v : Byte} {s s' : State} {o : Except DevErr Unit}
    (h : memWrite r v s = (o, s')) : s'.pc = s.pc ∧ s'.tmp = s.tmp := by
  rcases memWrite_cases r v s with ⟨_, _, hw⟩ | ⟨_, _, hw⟩ | ⟨_, _, hw⟩ <;> rw [hw] at h <;>
    obtain rfl := (Prod.mk.inj h).2 <;> exact ⟨rfl, rfl⟩

/-- The micro-steps go by the outcome of their transaction (R103, R104). -/
theorem readStep_of_ok {c : Command} {n : Nat} {f : Fn} {s s' : State} {v : Byte}
    (h : memRead (regSel s.params (c.bankOf s) f) s = (.ok v, s')) : readStep c n f s = advance c n (s'.setTmp v) := by
  simp only [readStep, h]

theorem readStep_of_error {c : Command} {n : Nat} {f : Fn} {s s' : State} {e : DevErr}
    (h : memRead (regSel s.params (c.bankOf s) f) s = (.error e, s')) : readStep c n f s = abort c n e s' := by
  simp only [readStep, h]

theorem writeStep_of_ok {c : Command} {n : Nat} {f : Fn} {m : BitMod} {s s' : State}
    (h : memWrite (regSel s.params (c.bankOf s) f) (m.apply s.tmp (c.idxOf s)) s = (.ok (), s')) :
    writeStep c n f m s = advance c n s' := by
  simp only [writeStep]; rw [h]

theorem writeStep_of_error {c : Command} {n : Nat} {f : Fn} {m : BitMod} {s s' : State} {e : DevErr}
    (h : memWrite (regSel s.params (c.bankOf s) f) (m.apply s.tmp (c.idxOf s)) s = (.error e, s')) :
    writeStep c n f m s = abort c n e s' := by
  simp only [writeStep]; rw [h]

/-- After a transaction that answered `Ok` the command is complete if it was the last, else it goes on to the position of
the next one (R103, R104). -/
theorem advance_completes_or_goesOn {i : Instr} {n : Nat} {s : State} (hpc : s.pc.txn = some n) :
    (n + 1 = (commandOf i).plan.length → advance (commandOf i) n s = complete (commandOf i) s) ∧
    (n + 1 < (commandOf i).plan.length → ∃ p, p.txn = some (n + 1) ∧ advance (commandOf i) n s = s.setPc p) := by
  have hle := plan_length_le i
  exact ⟨fun hn => if_pos hn, fun hn => ⟨s.pc.succ, SeqPos.txn_succ hpc (by omega), if_neg hn.ne⟩⟩

/-- Settles O24: the read delivers its byte to `TMP`, or aborts. -/
theorem readMicroStep : Obligations.ReadMicroStep := by
  intro i s n f hpc hf
  rw [exec_read hpc hf]
  refine ⟨fun v s' hread => ?_, fun e s' hread => congrArg _ (readStep_of_error hread)⟩
  have hpc' : (s'.setTmp v).pc.txn = some n := by rw [memRead_state hread]; exact hpc
  obtain ⟨hlast, hearlier⟩ := advance_completes_or_goesOn (i := i) hpc'
  rw [readStep_of_ok hread]
  refine ⟨fun hn => congrArg _ (hlast hn), fun hn => ?_⟩
  obtain ⟨p, hp, hadv⟩ := hearlier hn
  exact ⟨p, hp, congrArg _ hadv⟩

/-- Settles O25: the write leaves `TMP` alone whatever the answer, and goes on or aborts. -/
theorem writeMicroStep : Obligations.WriteMicroStep := by
  intro i s n f m hpc hf
  rw [exec_write hpc hf]
  refine ⟨fun s' hwrite => ?_, fun e s' hwrite => ?_⟩
  · obtain ⟨hpc', htmp⟩ := memWrite_keeps hwrite
    obtain ⟨hlast, hearlier⟩ := advance_completes_or_goesOn (i := i) (s := s') (hpc' ▸ hpc)
    rw [writeStep_of_ok hwrite]
    refine ⟨htmp, fun hn => congrArg _ (hlast hn), fun hn => ?_⟩
    obtain ⟨p, hp, hadv⟩ := hearlier hn
    exact ⟨p, hp, congrArg _ hadv⟩
  · exact ⟨(memWrite_keeps hwrite).2, congrArg _ (writeStep_of_error hwrite)⟩

/-! ## O26: the plans -/

/-- The even transactions of a plan are reads (R102): the plan is made of pairs, but for the single read of ISHI and
ISLO. -/
theorem read_even {i : Instr} {n : Nat} {f : Fn} (h : (commandOf i).plan[n]? = some (.read f)) : n % 2 = 0 := by
  rcases plan_shape i with hp | ⟨g, hp⟩ | ⟨g, l, hp⟩ | ⟨g, l, g', l', hp⟩ <;> rw [hp] at h
  · cases h
  · match n, h with
    | 0, _ => rfl
    | n + 1, h => cases h
  · match n, h with
    | 0, _ => rfl
    | 1, h => cases h
    | n + 2, h => cases h
  · match n, h with
    | 0, _ => rfl
    | 1, h => cases h
    | 2, _ => rfl
    | 3, h => cases h
    | n + 4, h => cases h

/-- SPOL is the one command that reads a polarity register (R102). -/
theorem eq_spol_of_read_pol {i : Instr} {n : Nat} (h : (commandOf i).plan[n]? = some (.read .pol)) :
    ∃ k p, i = .spol k p := by
  have hmem := List.mem_of_getElem? h
  cases i with
  | spol k p => exact ⟨k, p, rfl⟩
  | _ => simp at hmem

/-- Settles O26: a write stands just after the read of its register, so what it says of writes follows from the reads. -/
theorem plansAlternateReadAndWrite : Obligations.PlansAlternateReadAndWrite := by
  intro i
  refine ⟨fun n f hf => ⟨read_even hf, ?_⟩, fun n f m hf => ?_, ?_⟩
  · rintro rfl
    exact eq_spol_of_read_pol hf
  · obtain ⟨k, rfl, hread⟩ := read_before_write hf
    have heven := read_even hread
    refine ⟨by omega, write_ne_inp hf, hread, ?_⟩
    rintro rfl
    exact eq_spol_of_read_pol hread
  · rcases plan_shape i with hp | ⟨g, hp⟩ | ⟨g, l, hp⟩ | ⟨g, l, g', l', hp⟩ <;> simp [hp]

/-! ## O27: the device port -/

/-- A read of the plan is on the port at its register, whatever the answer (R52, R111). -/
theorem Transacts.port_read {i : Instr} {n : Nat} {s u : State} {a : Answer} {f : Fn} (h : Transacts i n s a u)
    (hf : (commandOf i).plan[n]? = some (.read f)) : u.port = some (.read (plannedReg i s f)) := by
  cases h with
  | readOk _ hf' | readErr _ _ hf' =>
    obtain rfl : f = _ := by simpa using hf.symm.trans hf'
    rfl
  | writeOk _ hf' | writeLanded _ hf' | writeLost _ hf' => simp [hf] at hf'

/-- A write of the plan is on the port with the byte made from `TMP`, whatever the answer and the byte (R53, R110). -/
theorem Transacts.port_write {i : Instr} {n : Nat} {s u : State} {a : Answer} {f : Fn} {m : BitMod}
    (h : Transacts i n s a u) (hf : (commandOf i).plan[n]? = some (.write f m)) :
    u.port = some (.write (plannedReg i s f) (plannedByte i s m)) := by
  cases h with
  | readOk _ hf' | readErr _ _ hf' => simp [hf] at hf'
  | writeOk _ hf' | writeLanded _ hf' | writeLost _ hf' =>
    obtain ⟨rfl, rfl⟩ : f = _ ∧ m = _ := by simpa using hf.symm.trans hf'
    rfl

/-- Settles O27: what follows the answer does not touch the port. -/
theorem portShowsThePlannedTransaction : Obligations.PortShowsThePlannedTransaction := by
  intro i s t n hpc hexec
  have hbusy : s.pc ≠ .idle := fun hidle => by simp [hidle, SeqPos.txn] at hpc
  obtain ⟨n', u, hn', hu, rfl⟩ := exec_transacts hbusy hexec
  obtain rfl : n' = n := Option.some.inj (hn'.symm.trans hpc)
  rw [(conclude_follows _ _ _ _).port]
  exact ⟨fun f hf => hu.port_read hf, fun f m hf => hu.port_write hf⟩

/-! ## O28: the bit operations -/

/-- `putbit` leaves a byte alone that has the bit already (R109). -/
theorem putbit_eq_self {v : Byte} {i : PinIdx} {c : Bool} (h : bit v i = c) : putbit v i c = v := by
  refine eq_of_bit_eq fun j => ?_
  rw [bit_putbit]
  split
  · next hj => rw [← hj, h]
  · rfl

/-- Of two writes of one bit the later one counts (R109). -/
theorem putbit_putbit (v : Byte) (i : PinIdx) (c d : Bool) : putbit (putbit v i c) i d = putbit v i d := by
  refine eq_of_bit_eq fun j => ?_
  simp only [bit_putbit]
  split <;> rfl

/-- Settles O28. `setbit` and `clrbit` are `putbit` of 1 and 0, so the laws are those of `putbit`; those of the mask are
facts about eight indices. -/
theorem bitOperationLaws : Obligations.BitOperationLaws := by
  intro v i j c
  have hother : ∀ d, j ≠ i → bit (putbit v i d) j = bit v j := fun d hj => by rw [bit_putbit, if_neg hj.symm]
  have hown : ∀ d, bit (putbit v i d) i = d := fun d => by rw [bit_putbit, if_pos rfl]
  have hback : putbit (putbit v i c) i (bit v i) = v := by rw [putbit_putbit, putbit_eq_self rfl]
  have hmask : oneHot i ∈ [0x01#8, 0x02#8, 0x04#8, 0x08#8, 0x10#8, 0x20#8, 0x40#8, 0x80#8] ∧
      (oneHot i).toNat = 2 ^ i.val := by clear hother hown hback; revert i; decide
  exact ⟨hown true, hown false, hown c, hother true, hother false, putbit_eq_self (c := true),
    putbit_eq_self (c := false), putbit_putbit v i true false, putbit_putbit v i false true, hback, hmask⟩

/-! ## O43, O44: the level comes before the direction -/

/-- `seededOk` asks for something only after the write of the level (R107). -/
theorem seededOk_iff (s : State) :
    seededOk s = true ↔ ∀ i l, decode s.cmdr = .ok i → seedLevel i = some l → (s.pc = .t2 ∨ s.pc = .t3) →
      bit (s.devReg ((commandOf i).bankOf s) .out) ((commandOf i).idxOf s) = levelBit l := by
  cases hd : decode s.cmdr with
  | error e => simp [seededOk, hd]
  | ok i =>
    have hseed : seededOk s = true ↔ ∀ l, seedLevel i = some l → (s.pc = .t2 ∨ s.pc = .t3) →
        bit (s.devReg ((commandOf i).bankOf s) .out) ((commandOf i).idxOf s) = levelBit l := by
      cases hl : seedLevel i <;> cases hpc : s.pc <;> simp [seededOk, hd, hl, hpc]
    rw [hseed]
    constructor
    · rintro h j l ⟨⟩
      exact h l
    · exact fun h l => h i l rfl

/-- Before the write of the level there is nothing to ask. -/
theorem seededOk_of_early {s : State} (hpc : s.pc = .idle ∨ s.pc = .t0) : seededOk s = true := by
  rw [seededOk_iff]
  intro i l _ _ hlate
  rcases hpc with h | h <;> simp [h] at hlate

/-- NEWO and I2O write the level, then the direction (R102, R107). -/
theorem seedLevel_plan {i : Instr} {l : Level} (h : seedLevel i = some l) :
    (commandOf i).plan = [.read .out, .write .out (.put (levelBit l)), .read .cfg, .write .cfg .clear] := by
  cases i with
  | newo | i2o => cases h; rfl
  | _ => cases h

/-- A write chosen by an operand bit is `putbit` of that bit (R15, R102). -/
@[simp] theorem BitMod.apply_put (c : Bool) (v : Byte) (i : PinIdx) : (BitMod.put c).apply v i = putbit v i c := by
  cases c <;> rfl

/-- A read stores nothing (R52). -/
theorem Transacts.devReg_of_read {i : Instr} {n : Nat} {s u : State} {a : Answer} {f : Fn} (h : Transacts i n s a u)
    (hf : (commandOf i).plan[n]? = some (.read f)) (b : Bank) (g : Fn) : u.devReg b g = s.devReg b g := by
  cases h with
  | readOk | readErr => rfl
  | writeOk _ hf' | writeLanded _ hf' | writeLost _ hf' => simp [hf] at hf'

/-- Waiting keeps the level, as long as no other agent writes the device. -/
theorem Waits.seededOk {s t : State} (h : Waits s t) (hu : Undisturbed s) (hs : seededOk s = true) :
    Machine.seededOk t = true := by
  rw [seededOk_iff] at hs ⊢
  rw [h.cmdr, h.pc]
  intro i l hword hl hpos
  rw [← hs i l hword hl hpos, Command.bankOf_congr _ (h.getX _), Command.idxOf_congr _ (h.getX _)]
  simp only [State.devReg, h.devByte hu, h.params]

/-- Going on to `T2`, the transaction just made was the write of the level; going on to `T3`, it was a read. -/
theorem Transacts.seededOk_setPc {i : Instr} {n : Nat} {s u : State} {v : Byte} (h : Transacts i n s (.ok v) u)
    (hs : seededOk s = true) (hword : decode s.cmdr = .ok i) (hpc : s.pc.txn = some n) :
    seededOk (u.setPc u.pc.succ) = true := by
  rw [seededOk_iff]
  intro j l hj hl hpos
  obtain rfl : i = j := by
    rw [State.setPc_cmdr, h.cmdr, hword] at hj
    exact Except.ok.inj hj
  have hplan := seedLevel_plan hl
  change bit (u.devReg ((commandOf i).bankOf u) .out) ((commandOf i).idxOf u) = levelBit l
  rw [State.setPc_pc, h.pc] at hpos
  have hbefore : s.pc = .t1 ∨ s.pc = .t2 := by cases hp : s.pc <;> simp [hp, SeqPos.succ] at hpos ⊢
  rcases hbefore with hp | hp <;> rw [hp] at hpc <;> obtain rfl := Option.some.inj hpc
  · have hf : (commandOf i).plan[1]? = some (.write .out (.put (levelBit l))) := by rw [hplan]; rfl
    rw [h.write_stored hf, BitMod.apply_put, bit_putbit, if_pos rfl]
  · have hf : (commandOf i).plan[2]? = some (.read .cfg) := by rw [hplan]; rfl
    rw [h.devReg_of_read hf, Command.bankOf_congr _ (h.getX _), Command.idxOf_congr _ (h.getX _)]
    exact (seededOk_iff s).mp hs i l hword hl (.inl hp)

/-- Settles O43. A step can lead to `T2` or `T3` of NEWO and I2O only by a transaction, or by waiting there. -/
theorem stepKeepsTheLevelSeeded : Obligations.StepKeepsTheLevelSeeded := by
  intro s t _ hseeded hu hstep
  cases step_outcome hstep with
  | illegal => exact seededOk_of_early (.inl rfl)
  | reset => exact seededOk_of_early (.inl rfl)
  | waits hw => exact hw.seededOk hu hseeded
  | @accepted w ms i _ hready =>
    have hpc : ((s.withMoves ms).latch w).quiet.pc = .idle := ((cmdReady_iff s).mp hready).1
    by_cases hidle : (accept (commandOf i) ((s.withMoves ms).latch w).quiet).pc = .idle
    · exact seededOk_of_early (.inl hidle)
    · exact seededOk_of_early (.inr (accept_pc_changed hpc (hpc ▸ hidle)).1)
  | @transaction i n u _ hn hword hu =>
    rcases conclude_cases (commandOf i) n s.answer u with ⟨_, _, ht⟩ | ⟨_, ⟨v, ha⟩, ht⟩ | ⟨_, _, _, ht⟩ <;> rw [ht]
    · exact seededOk_of_early (.inl rfl)
    · exact (ha ▸ hu).seededOk_setPc hseeded hword hn
    · exact seededOk_of_early (.inl rfl)

/-- Only the last transaction of NEWO and I2O makes a pin an output (R102, R200). -/
theorem clears_direction {i : Instr} {n : Nat} (h : (commandOf i).plan[n]? = some (.write .cfg .clear)) :
    n = 3 ∧ ∃ l, seedLevel i = some l := by
  have hmem := List.mem_of_getElem? h
  obtain ⟨l, hl⟩ : ∃ l, seedLevel i = some l := by
    cases i with
    | newo _ _ _ l | i2o _ l => exact ⟨l, rfl⟩
    | _ => simp [BitMod.put] at hmem
  refine ⟨?_, l, hl⟩
  rw [seedLevel_plan hl] at h
  match n, h with
  | 0, h => cases h
  | 1, h => cases h
  | 2, h => cases h
  | 3, _ => rfl
  | n + 4, h => cases h

/-- The hardware role is the pin's configuration bit (R32). -/
theorem hwRole_eq_input_iff (s : State) (b : Bank) (j : PinIdx) :
    hwRole s b j = .input ↔ bit (s.devReg b .cfg) j = true := by
  simp [hwRole]

theorem hwRole_eq_output_iff (s : State) (b : Bank) (j : PinIdx) :
    hwRole s b j = .output ↔ bit (s.devReg b .cfg) j = false := by
  simp [hwRole]

/-- With neither a device reset nor another master next, a register of the device that a step changed is the one the plan
writes next, and holds the byte made from `TMP` (O40 for the registers by bank and function). -/
theorem step_devReg_changed {s t : State} {b : Bank} {f : Fn} (hp : s.params.regs.wf) (hu : Undisturbed s)
    (hstep : step s = .next t) (hne : t.devReg b f ≠ s.devReg b f) :
    ∃ i n m, decode s.cmdr = .ok i ∧ s.pc.txn = some n ∧ (commandOf i).plan[n]? = some (.write f m) ∧
      b = (commandOf i).bankOf s ∧ t.devReg b f = plannedByte i s m := by
  have hreg : t.devReg b f = t.devByte (regSel s.params b f) := by rw [State.devReg, step_params hstep]
  rw [hreg] at hne ⊢
  obtain ⟨i, n, f', m, hword, hn, hf, hr, hv⟩ := deviceChangesOnlyByThePlannedWrite s t _ hstep hu hne
  obtain ⟨rfl, rfl⟩ := regSel_inj hp hr
  exact ⟨i, n, m, hword, hn, hf, rfl, hv⟩

/-- Settles O44. The configuration bit was cleared by the last write of NEWO or I2O, before which the output register holds
the level (`seededOk`), and that step writes no output register. -/
theorem outputLevelIsProgrammedBeforeDirection : Obligations.OutputLevelIsProgrammedBeforeDirection := by
  intro s t b j hlegal hfresh hseeded hu hstep hin hout
  rw [hwRole_eq_input_iff] at hin
  rw [hwRole_eq_output_iff] at hout
  have hbit : bit (t.devReg b .cfg) j ≠ bit (s.devReg b .cfg) j := by rw [hin, hout]; decide
  obtain ⟨i, n, m, hword, hn, hf, rfl, hv⟩ :=
    step_devReg_changed hlegal.1 hu hstep fun heq => hbit (congrArg (bit · j) heq)
  have htmp := (freshOk_iff s).mp hfresh i n .cfg m hword hn hf
  rw [hv, plannedByte, htmp] at hbit hout
  obtain rfl : j = (commandOf i).idxOf s := by_contra fun hj => hbit (bit_apply_ne m _ hj)
  obtain rfl : m = .clear := by
    cases m with
    | clear => rfl
    | set => simp [BitMod.apply, bit_setbit] at hout
  obtain ⟨rfl, l, hl⟩ := clears_direction hf
  have hpc : s.pc = .t3 := by cases hp : s.pc <;> simp [hp, SeqPos.txn] at hn ⊢
  have hsame : t.devReg ((commandOf i).bankOf s) .out = s.devReg ((commandOf i).bankOf s) .out := by
    by_contra hne
    obtain ⟨i', n', m', hword', hn', hf', _, _⟩ := step_devReg_changed hlegal.1 hu hstep hne
    obtain rfl : i = i' := Except.ok.inj (hword.symm.trans hword')
    obtain rfl : 3 = n' := Option.some.inj (hn.symm.trans hn')
    cases hf.symm.trans hf'
  exact ⟨i, l, hword, hl, rfl, rfl, hsame ▸ (seededOk_iff s).mp hseeded i l hword hl (.inr hpc)⟩

/-! ## Whole commands, micro-step by micro-step -/

/-- One more step at the end of a run. -/
theorem runs_snoc {k : Nat} {s t u : State} (h : runs k s = .next t) (hstep : step t = .next u) :
    runs (k + 1) s = .next u := by
  induction k generalizing s with
  | zero =>
    cases h
    exact runs_succ 0 hstep
  | succ k ih =>
    cases hs : step s with
    | next s' =>
      rw [runs_succ _ hs] at h ⊢
      exact ih h
    | fault r | refused r =>
      have hcore : Sys2Proof.core.step s = _ := hs
      simp only [runs, Host.Core.run, hcore, reduceCtorEq] at h

/-- The word of a well-formed instruction, presented to a ready controller, runs its acceptance (R100, R101). -/
theorem step_encoded {i : Instr} {s : State} {ms : List Move} (hready : s.cmdReady = true)
    (hm : s.moves = .command (encode i) :: ms) (hi : i.wellFormed = true) :
    step s = .next (accept (commandOf i) ((s.withMoves ms).latch (encode i)).quiet) := by
  have hpc : ((s.withMoves ms).latch (encode i)).pc = .idle := ((cmdReady_iff s).mp hready).1
  rw [step_command hm hready (decodeOfEncodeIsTheInstruction i hi), exec_idle hpc]

/-- The command of a presented instruction is accepted and is at its first transaction, when its checks pass and its plan
has one (R101). -/
theorem step_accepts {i : Instr} {s : State} {ms : List Move} (hready : s.cmdReady = true)
    (hm : s.moves = .command (encode i) :: ms) (hi : i.wellFormed = true) (hindex : (commandOf i).breaksContract = false)
    (hhandle : (commandOf i).handleOk s = true) (hplan : (commandOf i).plan ≠ []) :
    ∃ t, step s = .next t ∧ InProgress i 0 t ∧ t.x = s.x ∧ t.mem = s.mem ∧ t.params = s.params ∧ t.port = none ∧
      t.moves = ms := by
  have hhandle' : (commandOf i).handleOk ((s.withMoves ms).latch (encode i)).quiet = true := hhandle
  have hstep : step s = .next (((s.withMoves ms).latch (encode i)).quiet.setPc .t0) := by
    rw [step_encoded hready hm hi]
    simp [accept, hindex, hhandle', hplan]
  have hprog : InProgress i 0 (((s.withMoves ms).latch (encode i)).quiet.setPc .t0) :=
    ⟨((cmdReady_iff s).mp hready).2, rfl, decodeOfEncodeIsTheInstruction i hi, List.length_pos_iff.mpr hplan, hindex,
      hhandle⟩
  exact ⟨_, hstep, hprog, rfl, rfl, rfl, rfl, rfl⟩

/-- An instruction that needs a pin object its register does not hold is refused with BAD_HANDLE at acceptance, with no
transaction (R101, R164). -/
theorem step_refuses {i : Instr} {s : State} {ms : List Move} (hready : s.cmdReady = true)
    (hm : s.moves = .command (encode i) :: ms) (hi : i.wellFormed = true) (hindex : (commandOf i).breaksContract = false)
    (hhandle : (commandOf i).handleOk s = false) :
    step s = .next (raise .badHandle ((s.withMoves ms).latch (encode i)).quiet) := by
  have hhandle' : (commandOf i).handleOk ((s.withMoves ms).latch (encode i)).quiet = false := hhandle
  rw [step_encoded hready hm hi]
  simp [accept, hindex, hhandle']

/-- The step in which the device answers transaction `n`. -/
theorem InProgress.step_transacts {i : Instr} {n : Nat} {s : State} {a : Answer} {ms : List Move} (h : InProgress i n s)
    (hm : s.moves = .answer a :: ms) :
    ∃ u, Transacts i n s a u ∧ step s = .next (conclude (commandOf i) n a u) ∧ InProgress i n u ∧ u.moves = ms := by
  have ha : s.answer = a := by rw [State.answer, hm]
  obtain ⟨t, ht⟩ := h.exec_next
  obtain ⟨n', u, hn', hu, rfl⟩ := exec_transacts h.pc_ne_idle ht
  obtain rfl : n' = n := Option.some.inj (hn'.symm.trans h.position)
  rw [ha] at hu ht
  exact ⟨u, hu, (step_answer hm h.pc_ne_idle h.word).trans ht, h.congr hu.halt hu.pc hu.cmdr hu.x,
    hu.moves.trans (by rw [hm]; rfl)⟩

/-- An `Ok` to a transaction that is not the last leads to the next one. -/
theorem InProgress.conclude_ok {i : Instr} {n : Nat} {u : State} (h : InProgress i n u) (v : Byte)
    (hn : n + 1 < (commandOf i).plan.length) :
    conclude (commandOf i) n (.ok v) u = u.setPc u.pc.succ ∧ InProgress i (n + 1) (u.setPc u.pc.succ) :=
  ⟨if_neg hn.ne, h.setPc_succ hn.ne⟩

/-! ## O56: NEWO from the word to the response -/

/-- From `s` to `u` the command `i` has read its register of function `f`, changed the pin's bit by `m` and written the
byte back: nothing else of the device, and no handle register, has changed (R65, R108). -/
structure ReadsModifiesWrites (i : Instr) (f : Fn) (m : BitMod) (s u : State) : Prop where
  x : u.x = s.x
  params : u.params = s.params
  port : u.port = some (.write (plannedReg i s f) (m.apply (s.devReg ((commandOf i).bankOf s) f) ((commandOf i).idxOf s)))
  stored : u.devReg ((commandOf i).bankOf s) f = m.apply (s.devReg ((commandOf i).bankOf s) f) ((commandOf i).idxOf s)
  others : ∀ b' f', ¬ (b' = (commandOf i).bankOf s ∧ f' = f) → u.devReg b' f' = s.devReg b' f'

/-- A transaction changes the register of its planned write alone (R53). -/
theorem Transacts.devReg_of_write {i : Instr} {n : Nat} {s u : State} {a : Answer} {f : Fn} {m : BitMod}
    (h : Transacts i n s a u) (hp : s.params.regs.wf) (hf : (commandOf i).plan[n]? = some (.write f m)) {b' : Bank}
    {f' : Fn} (hne : ¬ (b' = (commandOf i).bankOf s ∧ f' = f)) : u.devReg b' f' = s.devReg b' f' := by
  rw [State.devReg, h.params, State.devReg]
  by_contra hchanged
  obtain ⟨g, l, hg, hr, _⟩ := h.devByte_changed hchanged
  obtain ⟨rfl, _⟩ : f = g ∧ m = l := by simpa using hf.symm.trans hg
  exact hne (regSel_inj hp hr)

/-- Two answers `Ok` to a read and the write after it make the read-modify-write (R103, R104, R108). -/
theorem InProgress.step_pair {i : Instr} {n : Nat} {f : Fn} {m : BitMod} {s : State} {v w : Byte} {ms : List Move}
    (h : InProgress i n s) (hp : s.params.regs.wf) (hm : s.moves = .answer (.ok v) :: .answer (.ok w) :: ms)
    (hread : (commandOf i).plan[n]? = some (.read f)) (hwrite : (commandOf i).plan[n + 1]? = some (.write f m)) :
    ∃ t u, step s = .next t ∧ t.port = some (.read (plannedReg i s f)) ∧
      step t = .next (conclude (commandOf i) (n + 1) (.ok w) u) ∧ InProgress i (n + 1) u ∧ u.moves = ms ∧
      ReadsModifiesWrites i f m s u := by
  have hn : n + 1 < (commandOf i).plan.length := (List.getElem?_eq_some_iff.mp hwrite).1
  obtain ⟨r, hr, hstep, hprog, hmoves⟩ := h.step_transacts hm
  obtain ⟨ht, htprog⟩ := hprog.conclude_ok v hn
  rw [ht] at hstep
  obtain ⟨u, hu, hstep', huprog, humoves⟩ := htprog.step_transacts hmoves
  have hbank : (commandOf i).bankOf (r.setPc r.pc.succ) = (commandOf i).bankOf s := Command.bankOf_congr _ (hr.getX _)
  have hidx : (commandOf i).idxOf (r.setPc r.pc.succ) = (commandOf i).idxOf s := Command.idxOf_congr _ (hr.getX _)
  have hparams : (r.setPc r.pc.succ).params = s.params := hr.params
  have hsame : ∀ b' f', (r.setPc r.pc.succ).devReg b' f' = s.devReg b' f' := hr.devReg_of_read hread
  have htmp : (r.setPc r.pc.succ).tmp = s.devReg ((commandOf i).bankOf s) f := by
    rw [← hsame, ← hbank]
    exact hr.read_storage hread hp (write_ne_inp hwrite)
  refine ⟨_, u, hstep, hr.port_read hread, hstep', huprog, humoves,
    ⟨hu.x.trans hr.x, hu.params.trans hparams, ?_, ?_, ?_⟩⟩
  · rw [hu.port_write hwrite, plannedReg, plannedByte, hbank, hidx, htmp, hparams]
  · have hstored := hu.write_stored hwrite
    rwa [Command.bankOf_congr _ (hu.getX _), Command.idxOf_congr _ (hu.getX _), hbank, hidx, htmp] at hstored
  · intro b' f' hne
    rw [← hsame]
    exact hu.devReg_of_write (hparams ▸ hp) hwrite (hbank ▸ hne)

/-- From `s` to `u` the command `i` has programmed the level `l` and then made its pin an output, and nothing else has
changed (R107, R200). -/
structure MakesOutput (i : Instr) (l : Level) (s u : State) : Prop where
  x : u.x = s.x
  running : u.halt = false
  level : u.devReg ((commandOf i).bankOf s) .out =
    putbit (s.devReg ((commandOf i).bankOf s) .out) ((commandOf i).idxOf s) (levelBit l)
  direction : u.devReg ((commandOf i).bankOf s) .cfg =
    clrbit (s.devReg ((commandOf i).bankOf s) .cfg) ((commandOf i).idxOf s)
  others : ∀ b' f', ¬ (b' = (commandOf i).bankOf s ∧ (f' = .out ∨ f' = .cfg)) → u.devReg b' f' = s.devReg b' f'

/-- The four transactions of NEWO and I2O, each answered `Ok`, and what is on the port at each (R130, R142). -/
theorem InProgress.makes_output {i : Instr} {l : Level} {s : State} {v0 v1 v2 v3 : Byte} {ms : List Move}
    (h : InProgress i 0 s) (hl : seedLevel i = some l) (hp : s.params.regs.wf)
    (hm : s.moves = .answer (.ok v0) :: .answer (.ok v1) :: .answer (.ok v2) :: .answer (.ok v3) :: ms) :
    ∃ t₁ t₂ t₃ u, step s = .next t₁ ∧ step t₁ = .next t₂ ∧ step t₂ = .next t₃ ∧
      step t₃ = .next (complete (commandOf i) u) ∧
      t₁.port = some (.read (plannedReg i s .out)) ∧
      t₂.port = some (.write (plannedReg i s .out)
        (putbit (s.devReg ((commandOf i).bankOf s) .out) ((commandOf i).idxOf s) (levelBit l))) ∧
      t₃.port = some (.read (plannedReg i s .cfg)) ∧
      u.port = some (.write (plannedReg i s .cfg)
        (clrbit (s.devReg ((commandOf i).bankOf s) .cfg) ((commandOf i).idxOf s))) ∧
      u.moves = ms ∧ MakesOutput i l s u := by
  have hplan := seedLevel_plan hl
  have hlen : (commandOf i).plan.length = 4 := by rw [hplan]; rfl
  obtain ⟨t₁, r, hstep₁, hport₁, hstep₂, hprog, hmoves, hout⟩ :=
    h.step_pair (f := .out) hp hm (by rw [hplan]; rfl) (by rw [hplan]; rfl)
  obtain ⟨ht₂, hprog₂⟩ := hprog.conclude_ok v1 (by omega)
  rw [ht₂] at hstep₂
  have hparams : (r.setPc r.pc.succ).params = s.params := hout.params
  have hbank : (commandOf i).bankOf (r.setPc r.pc.succ) = (commandOf i).bankOf s :=
    Command.bankOf_congr _ (by simp only [State.getX, State.setPc_x, hout.x])
  have hidx : (commandOf i).idxOf (r.setPc r.pc.succ) = (commandOf i).idxOf s :=
    Command.idxOf_congr _ (by simp only [State.getX, State.setPc_x, hout.x])
  obtain ⟨t₃, u, hstep₃, hport₃, hstep₄, huprog, humoves, hcfg⟩ :=
    hprog₂.step_pair (f := .cfg) (hparams ▸ hp) hmoves (by rw [hplan]; rfl) (by rw [hplan]; rfl)
  have hlast : conclude (commandOf i) 3 (.ok v3) u = complete (commandOf i) u := if_pos hlen.symm
  rw [hlast] at hstep₄
  have hcfgKept : (r.setPc r.pc.succ).devReg ((commandOf i).bankOf s) .cfg = s.devReg ((commandOf i).bankOf s) .cfg :=
    hout.others _ _ (by simp)
  obtain ⟨hx, _, hport₄, hstored, hothers⟩ := hcfg
  simp only [plannedReg, hbank, hidx, hparams, hcfgKept] at hport₃ hport₄ hstored hothers
  refine ⟨t₁, _, t₃, u, hstep₁, hstep₂, hstep₃, hstep₄, hport₁, ?_, hport₃, hport₄, humoves,
    hx.trans hout.x, huprog.running, ?_, hstored, ?_⟩
  · exact hout.port.trans (by rw [BitMod.apply_put])
  · rw [hothers _ _ (by simp), State.setPc_devReg, hout.stored, BitMod.apply_put]
  · intro b' f' hne
    rw [hothers _ _ fun hc => hne ⟨hc.1, .inr hc.2⟩, State.setPc_devReg]
    exact hout.others _ _ fun ho => hne ⟨ho.1, .inl ho.2⟩

/-- An index 0 to 7 is itself in three bits (R120, R130). -/
@[simp] theorem pinIdx_val (i : PinIdx) : pinIdx i.val = i :=
  Fin.ext (Nat.mod_eq_of_lt i.isLt)

/-- Settles O56: the acceptance, the four transactions and the completion, which writes the handle. -/
theorem newoConstructsAnOutputPin : Obligations.NewoConstructsAnOutputPin := by
  intro h b i l s v0 v1 v2 v3 ms hlegal hready hm
  have hindex : ¬ 8 ≤ i.val := by omega
  obtain ⟨s₁, hstep, hprog, hx, hmem, hparams, hport, hmoves⟩ := step_accepts hready hm
    (decide_eq_true (show IndexFits i.val by unfold IndexFits; omega)) (decide_eq_false hindex) rfl (by simp)
  obtain ⟨s₂, s₃, s₄, u, hstep₂, hstep₃, hstep₄, hstep₅, hport₂, hport₃, hport₄, hport₅, humoves, hu⟩ :=
    hprog.makes_output rfl (hparams ▸ hlegal.1) hmoves
  have hdev : ∀ b' f', s₁.devReg b' f' = s.devReg b' f' := fun b' f' => by
    simp only [State.devReg, State.devByte, hmem, hparams]
  have hbank : ∀ s, (commandOf (.newo h b i.val l)).bankOf s = b := fun _ => rfl
  have hidx : ∀ s, (commandOf (.newo h b i.val l)).idxOf s = i := fun _ => pinIdx_val i
  obtain ⟨hux, hrun, hlevel, hdirection, hothers⟩ := hu
  simp only [plannedReg, hbank, hidx, hparams, hdev] at hport₂ hport₃ hport₄ hport₅ hlevel hdirection hothers
  have hrun₁ := runs_succ 0 hstep
  have hrun₂ := runs_snoc hrun₁ hstep₂
  have hrun₃ := runs_snoc hrun₂ hstep₃
  have hrun₄ := runs_snoc hrun₃ hstep₄
  have hrun₅ := runs_snoc hrun₄ hstep₅
  refine ⟨⟨_, hrun₅, ?_, ?_, ?_, ?_, ?_, complete_rsp_of_zero rfl u, rfl, ?_, ?_⟩, ⟨_, hrun₁, hport⟩, ⟨_, hrun₂, hport₂⟩,
    ⟨_, hrun₃, hport₃⟩, ⟨_, hrun₄, hport₄⟩, ⟨_, hrun₅, ?_⟩⟩
  · rw [complete_devReg, hlevel]
  · rw [complete_devReg, hdirection]
  · exact fun b' f' hne => by rw [complete_devReg, hothers b' f' hne]
  · have hput : (complete (commandOf (.newo h b i.val l)) u).getX h = ⟨true, .output, b, pinIdx i.val⟩ :=
      State.getX_setX_self u h _
    rw [hput, pinIdx_val]
  · intro k hk
    rw [complete_getX, HandleEffect.apply_getX_ne _ _ _ k hk]
    simp only [State.getX, hux, hx]
  · exact (cmdReady_iff _).mpr ⟨rfl, (complete_halt _ u).trans hrun⟩
  · rw [complete_moves, humoves]
  · rw [complete_port, hport₅]

/-! ## O60: a transition that fails -/

/-- A command in progress whose next transactions answer `Ok` and then one `Err` aborts at that one, with its handle register
as it was until then; if the first one fails and is a read, the device is as it was too (R55, R105). -/
theorem InProgress.runs_failing {i : Instr} {n : Nat} {s : State} {vs : List Byte} {e : DevErr} {landed : Bool}
    {ms : List Move} (h : InProgress i n s)
    (hm : s.moves = (vs.map Answer.ok).map Move.answer ++ .answer (.err e landed) :: ms)
    (hlen : n + vs.length < (commandOf i).plan.length) :
    ∃ u, runs (vs.length + 1) s = .next (abort (commandOf i) (n + vs.length) e u) ∧ u.x = s.x ∧ u.halt = false ∧
      u.moves = ms ∧
      (vs = [] → ∀ f, (commandOf i).plan[n]? = some (.read f) → ∀ r, u.devByte r = s.devByte r) := by
  induction vs generalizing n s with
  | nil =>
    obtain ⟨u, hu, hstep, hprog, hmoves⟩ := h.step_transacts hm
    refine ⟨u, runs_succ 0 hstep, hu.x, hprog.running, hmoves, fun _ f hf r => ?_⟩
    by_contra hne
    obtain ⟨g, m, hg, _⟩ := hu.devByte_changed hne
    simp [hf] at hg
  | cons v vs ih =>
    rw [List.length_cons] at hlen
    obtain ⟨r, hr, hstep, hprog, hmoves⟩ := h.step_transacts hm
    obtain ⟨ht, hnext⟩ := hprog.conclude_ok v (by omega)
    rw [ht] at hstep
    obtain ⟨u, hrun, hx, hhalt, humoves, _⟩ := ih hnext hmoves (by omega)
    have hcount : n + 1 + vs.length = n + (vs.length + 1) := by omega
    rw [hcount] at hrun
    exact ⟨u, (runs_succ _ hstep).trans hrun, hx.trans hr.x, hhalt, humoves, fun hnil => by cases hnil⟩

/-- I2O, O2I and O2O start with a read and lose their handle when they fail; each takes its pin from the handle register
(R23, R102). -/
theorem transition_row {h : HReg} {i : Instr} (hi : (∃ l, i = .i2o h l) ∨ i = .o2i h ∨ ∃ l, i = .o2o h l) :
    i.wellFormed = true ∧ (commandOf i).breaksContract = false ∧ (commandOf i).h = h ∧ (commandOf i).onErr = .clear ∧
      ∃ f, (commandOf i).plan[0]? = some (.read f) := by
  rcases hi with ⟨l, rfl⟩ | rfl | ⟨l, rfl⟩
  · exact ⟨rfl, rfl, rfl, rfl, .out, rfl⟩
  · exact ⟨rfl, rfl, rfl, rfl, .cfg, rfl⟩
  · exact ⟨rfl, rfl, rfl, rfl, .out, rfl⟩

/-- The nine instructions that need a pin object (R102). -/
theorem needsPin_row {h : HReg} {j : Instr}
    (hj : j = .ishi h ∨ j = .islo h ∨ (∃ p, j = .spol h p) ∨ j = .i2i h ∨ (∃ l, j = .i2o h l) ∨ j = .seth h ∨ j = .setl h ∨
      j = .o2i h ∨ ∃ l, j = .o2o h l) :
    j.wellFormed = true ∧ (commandOf j).breaksContract = false ∧ (commandOf j).h = h ∧
      ∃ r, (commandOf j).needs = some r := by
  rcases hj with rfl | rfl | ⟨p, rfl⟩ | rfl | ⟨l, rfl⟩ | rfl | rfl | rfl | ⟨l, rfl⟩ <;> exact ⟨rfl, rfl, rfl, _, rfl⟩

/-- An empty register holds no pin object of either role (R21, R164). -/
theorem handleOk_of_empty {c : Command} {s : State} {r : Role} (hc : c.needs = some r)
    (hempty : s.getX c.h = Handle.empty) : c.handleOk s = false := by
  simp only [Command.handleOk, hc, hempty]
  rfl

/-- Settles O60: the failing transition is accepted, runs into its failure (`InProgress.runs_failing`), and leaves a ready
controller with an empty register, which the next instruction is refused on. -/
theorem failedTransitionLosesThePin : Obligations.FailedTransitionLosesThePin := by
  intro h i j s vs e landed ms _ hready hvalid hi hj hlen hm
  obtain ⟨hwf, hindex, hh, hclear, f, hread⟩ :=
    transition_row (h := h) (i := i) (hi.imp And.right And.right)
  obtain ⟨hjwf, hjindex, hjh, r, hneeds⟩ := needsPin_row hj
  have hhandle : (commandOf i).handleOk s = true := by
    rcases hi with ⟨hrole, l, rfl⟩ | ⟨hrole, rfl | ⟨l, rfl⟩⟩ <;> simp [Command.handleOk, Handle.holds, hvalid, hrole]
  have hm' : s.moves = .command (encode i) ::
      ((vs.map Answer.ok).map Move.answer ++ .answer (.err e landed) :: .command (encode j) :: ms) := by
    simpa [script] using hm
  obtain ⟨s₁, hstep, hprog, hx, hmem, hparams, _, hmoves⟩ :=
    step_accepts hready hm' hwf hindex hhandle (fun hnil => by simp [hnil] at hread)
  obtain ⟨u, hrun, hux, hhalt, humoves, hdev⟩ := hprog.runs_failing hmoves (by omega)
  rw [Nat.zero_add] at hrun
  set t := abort (commandOf i) vs.length e u with ht
  have hrunt : runs (vs.length + 2) s = .next t := (runs_succ _ hstep).trans hrun
  have hempty : t.getX h = Handle.empty := by
    rw [abort_getX, hclear, ← hh]
    exact State.getX_setX_self _ _ _
  have htready : t.cmdReady = true := (cmdReady_iff t).mpr ⟨rfl, (abort_halt _ u vs.length e).trans hhalt⟩
  have hrefused := step_refuses htready ((abort_moves _ u vs.length e).trans humoves) hjwf hjindex
    (handleOk_of_empty hneeds (hjh ▸ hempty))
  refine ⟨⟨t, hrunt, hempty, fun k hk => ?_, rfl, rfl, fun hnil a => ?_⟩,
    ⟨_, runs_snoc hrunt hrefused, rfl, rfl, rfl, hempty, htready, rfl⟩⟩
  · rw [abort_getX, HandleEffect.apply_getX_ne _ _ _ k (hh ▸ hk)]
    simp only [State.getX, hux, hx]
  · have hsame : u.devByte a = s₁.devByte a := hdev hnil f hread a
    simp only [State.devByte, ht, abort_mem, abort_params] at hsame ⊢
    rw [hsame, hmem, hparams]

end Sys2Proof.Machine
end

section
/-! PROOFS. The input pin instructions (O9 to O12, O55, O57, O58) and the frames of the instructions that store at most one
register (O34, O35).

A micro-step is described twice. `exec_accepts`, `exec_read_goesOn`, `exec_lastRead` and `exec_lastWrite` give the whole
next state when the checks pass and the device answers `Ok`; `exec_follows` says of any next state how it came about, and
the frames are read off it. A whole command is then its micro-steps in a row (`runs_readModifyWrite`, `runs_read`). -/

namespace Sys2Proof.Machine

/-! ## The next state of a micro-step -/

/-- The acceptance of an instruction whose checks pass and whose plan has a transaction (R101). -/
theorem exec_accepts {i : Instr} {s : State} (hpc : s.pc = .idle) (hindex : (commandOf i).breaksContract = false)
    (hhandle : (commandOf i).handleOk s = true) (hplan : (commandOf i).plan ≠ []) :
    exec i s = .next { s with pc := .t0, rspValid := false, port := none } := by
  have hhandle' : (commandOf i).handleOk s.quiet = true := hhandle
  have haccept : accept (commandOf i) s.quiet = s.quiet.setPc .t0 := by simp [accept, hindex, hhandle', hplan]
  rw [exec_idle hpc, haccept]
  rfl

/-- A read of a storage register that answers `Ok` and is not the last transaction: the register's byte is in `TMP` and
the command is at its next position (R103). -/
theorem exec_read_goesOn {i : Instr} {s : State} {p : SeqPos} {n : Nat} {f : Fn} {v : Byte} (hpc : s.pc = p)
    (hn : p.txn = some n) (hf : (commandOf i).plan[n]? = some (.read f)) (hlast : n + 1 ≠ (commandOf i).plan.length)
    (hp : s.params.regs.wf) (hinp : f ≠ .inp) (ha : s.answer = .ok v) :
    exec i s = .next { s.afterAnswer with
      pc := p.succ, tmp := s.devReg ((commandOf i).bankOf s) f, rspValid := false
      port := some (.read (plannedReg i s f)) } := by
  subst hpc
  have hstorage : isInputReg s.quiet.params (regSel s.quiet.params ((commandOf i).bankOf s.quiet) f) = false :=
    isInputReg_eq_false hp _ hinp
  rw [exec_read hn hf, readStep_ok (s.quiet_answer.trans ha), advance, if_neg hlast, hstorage]
  rfl

/-- A read of an input register that answers `Ok` and is the last transaction: the draw is in `TMP`, and the response
shows the result bit made from it (R57, R103, R106). -/
theorem exec_lastRead {i : Instr} {s : State} {p : SeqPos} {n : Nat} {v : Byte} (hpc : s.pc = p) (hn : p.txn = some n)
    (hf : (commandOf i).plan[n]? = some (.read .inp)) (hlast : n + 1 = (commandOf i).plan.length)
    (hkeep : (commandOf i).onOk = .keep) (ha : s.answer = .ok v) :
    exec i s = .next { s.afterAnswer with
      pc := .idle, tmp := v, rspValid := true
      rsp := if (commandOf i).result.value (commandOf i) (s.setTmp v) then 0x0010 else 0x0000
      port := some (.read (plannedReg i s .inp)) } := by
  subst hpc
  have hinput : isInputReg s.quiet.params (regSel s.quiet.params ((commandOf i).bankOf s.quiet) .inp) = true :=
    isInputReg_inp _ _
  rw [exec_read hn hf, readStep_ok (s.quiet_answer.trans ha), advance, if_pos hlast, hinput, complete, hkeep,
    ← rspWord_ok]
  rfl

/-- The response with OK and result 0 (R90). -/
theorem respond_ok_zero (s : State) :
    respond .ok false 0 0 s = { s with pc := .idle, rsp := 0x0000, rspValid := true } :=
  congrArg (fun w => { s with pc := .idle, rsp := w, rspValid := true }) (rspWord_ok false)

/-- A command without a result bit completes with the response word 0, and then its handle register is written (R106). -/
theorem complete_of_zero {c : Command} (hres : c.result = .zero) (s : State) :
    complete c s = c.onOk.apply c { s with pc := .idle, rsp := 0x0000, rspValid := true } := by
  have hzero : ResultBit.zero.value c s = false := rfl
  rw [complete, hres, hzero, respond_ok_zero]
  cases c.onOk <;> rfl

/-- A write that answers `Ok` and is the last transaction: the byte made from `TMP` is stored, the response word is 0 and
the handle register is as the command leaves it (R104, R106). -/
theorem exec_lastWrite {i : Instr} {s : State} {p : SeqPos} {n : Nat} {f : Fn} {m : BitMod} {v : Byte} (hpc : s.pc = p)
    (hn : p.txn = some n) (hf : (commandOf i).plan[n]? = some (.write f m))
    (hlast : n + 1 = (commandOf i).plan.length) (hres : (commandOf i).result = .zero) (ha : s.answer = .ok v) :
    exec i s = .next ((commandOf i).onOk.apply (commandOf i) { s.afterAnswer with
      pc := .idle
      mem := Memory.write s.params s.mem (plannedReg i s f).toNat (plannedByte i s m)
      rsp := 0x0000, rspValid := true
      port := some (.write (plannedReg i s f) (plannedByte i s m)) }) := by
  rw [exec_lastWrite_ok (hpc ▸ hn) hf hlast ha, complete_of_zero hres]
  rfl

/-! ## O9 to O12: the input pin instructions, micro-step by micro-step -/

/-- A command that needs a pin object of role `r` is not refused on a register that holds one (R101 step 3). -/
theorem handleOk_of_role {i : Instr} {s : State} {r : Role} (hneeds : (commandOf i).needs = some r)
    (hvalid : (s.getX i.hreg).valid = true) (hrole : (s.getX i.hreg).role = r) : (commandOf i).handleOk s = true := by
  simp [Command.handleOk, hneeds, Handle.holds, hvalid, hrole]

/-- Settles O9. -/
theorem newiReadsSetsAndWritesConfiguration : Obligations.NewiReadsSetsAndWritesConfiguration := by
  intro h b i s v hi hp
  have hindex : (commandOf (.newi h b i)).breaksContract = false := decide_eq_false (by omega)
  exact ⟨fun hpc => exec_accepts hpc hindex rfl (by simp),
    fun hpc ha => exec_read_goesOn hpc rfl rfl (by simp) hp (by decide) ha,
    fun hpc ha => exec_lastWrite (f := .cfg) (m := .set) hpc rfl rfl rfl rfl ha⟩

/-- Settles O10. -/
theorem ishiAnswersTheBitRead : Obligations.IshiAnswersTheBitRead := by
  intro h s v
  exact ⟨fun hpc hvalid hrole => exec_accepts hpc rfl (handleOk_of_role rfl hvalid hrole) (by simp),
    fun hpc ha => exec_lastRead hpc rfl rfl rfl rfl ha⟩

/-- Settles O11: the result bit is the negated one, so the two response words change places. -/
theorem isloAnswersTheNegatedBitRead : Obligations.IsloAnswersTheNegatedBitRead := by
  intro h s v
  refine ⟨fun hpc hvalid hrole => exec_accepts hpc rfl (handleOk_of_role rfl hvalid hrole) (by simp), fun hpc ha => ?_⟩
  have hswap : (if bit v (s.getX h).idx then 0x0000 else 0x0010 : Word) =
      if (!bit v (s.getX h).idx) then 0x0010 else 0x0000 := by cases bit v (s.getX h).idx <;> rfl
  rw [hswap]
  exact exec_lastRead hpc rfl rfl rfl rfl ha

/-- The bit SPOL writes is 1 for Inverse and 0 for Normal (R108). -/
theorem polarityBit_eq_decide (p : Polarity) : polarityBit p = decide (p = .inverse) := by cases p <;> rfl

/-- Settles O12. -/
theorem spolPutsThePolarityBit : Obligations.SpolPutsThePolarityBit := by
  intro h p s v hp
  refine ⟨fun hpc hvalid hrole => exec_accepts hpc rfl (handleOk_of_role rfl hvalid hrole) (by simp),
    fun hpc ha => exec_read_goesOn hpc rfl rfl (by simp) hp (by decide) ha, fun hpc ha => ?_⟩
  rw [← polarityBit_eq_decide, ← BitMod.apply_put]
  exact exec_lastWrite hpc rfl rfl rfl rfl ha

/-! ## What a micro-step leaves unchanged -/

/-- An address at which a transaction changed the byte is that of the planned write (R53, R104). -/
theorem Transacts.mem_changed {i : Instr} {n : Nat} {s u : State} {a : Answer} (h : Transacts i n s a u) {k : Nat}
    (hne : Memory.read u.params u.mem k ≠ Memory.read s.params s.mem k) :
    ∃ f m, (commandOf i).plan[n]? = some (.write f m) ∧ k = (plannedReg i s f).toNat := by
  cases h with
  | readOk | readErr | writeLost => exact absurd rfl hne
  | writeOk _ hf | writeLanded _ hf =>
    exact ⟨_, _, hf, by_contra fun hk => hne (Memory.read_write_ne _ _ _ _ _ hk)⟩

/-- A transaction that changed `TMP` is a read of the plan (R26, R103). -/
theorem Transacts.read_of_tmp_changed {i : Instr} {n : Nat} {s u : State} {a : Answer} (h : Transacts i n s a u)
    (hne : u.tmp ≠ s.tmp) : ∃ f, (commandOf i).plan[n]? = some (.read f) := by
  cases h with
  | readOk _ hf => exact ⟨_, hf⟩
  | _ => exact absurd rfl hne

/-- The state `u` from which a micro-step of `i` comes to its end: nothing is driven yet at acceptance, or its transaction
has been answered. -/
inductive Begins (i : Instr) (s : State) : State → Prop where
  | accepted (hpc : s.pc = .idle) : Begins i s s.quiet
  | answered {n : Nat} {u : State} (hn : s.pc.txn = some n) (hu : Transacts i n s s.answer u) : Begins i s u

/-- Every micro-step begins with the acceptance or a transaction and ends in one of the four ways (R101, R103 to R106). -/
theorem exec_follows {i : Instr} {s t : State} (h : exec i s = .next t) :
    ∃ u, Begins i s u ∧ Follows (commandOf i) u t := by
  by_cases hpc : s.pc = .idle
  · rw [exec_idle hpc] at h
    injection h with h
    exact ⟨s.quiet, .accepted hpc, h ▸ accept_follows _ _⟩
  · obtain ⟨n, u, hn, hu, rfl⟩ := exec_transacts hpc h
    exact ⟨u, .answered hn hu, conclude_follows _ _ _ _⟩

namespace Begins

variable {i : Instr} {s u : State}

theorem cmdr (h : Begins i s u) : u.cmdr = s.cmdr := by
  cases h with
  | accepted => rfl
  | answered _ hu => exact hu.cmdr

theorem params (h : Begins i s u) : u.params = s.params := by
  cases h with
  | accepted => rfl
  | answered _ hu => exact hu.params

theorem rsp (h : Begins i s u) : u.rsp = s.rsp := by
  cases h with
  | accepted => rfl
  | answered _ hu => exact hu.rsp

theorem getX (h : Begins i s u) (k : HReg) : u.getX k = s.getX k := by
  cases h with
  | accepted => rfl
  | answered _ hu => exact hu.getX k

/-- An address at which a micro-step changed the byte is that of the planned write. -/
theorem mem_changed (h : Begins i s u) {a : Nat}
    (hne : Memory.read u.params u.mem a ≠ Memory.read s.params s.mem a) :
    ∃ n f m, s.pc.txn = some n ∧ (commandOf i).plan[n]? = some (.write f m) ∧ a = (plannedReg i s f).toNat := by
  cases h with
  | accepted => exact absurd rfl hne
  | answered hn hu =>
    obtain ⟨f, m, hf, ha⟩ := hu.mem_changed hne
    exact ⟨_, f, m, hn, hf, ha⟩

theorem tmp_changed (h : Begins i s u) (hne : u.tmp ≠ s.tmp) :
    ∃ n f, s.pc.txn = some n ∧ (commandOf i).plan[n]? = some (.read f) := by
  cases h with
  | accepted => exact absurd rfl hne
  | answered hn hu =>
    obtain ⟨f, hf⟩ := hu.read_of_tmp_changed hne
    exact ⟨_, f, hn, hf⟩

end Begins

/-- A micro-step leaves the rest alone: it stores to no register but the one of the planned write (R22, R25, R27, R53). -/
theorem exec_leavesTheRest {i : Instr} {s t : State} {stored : List RegisterId} (h : exec i s = .next t)
    (hstored : ∀ n f m, s.pc.txn = some n → (commandOf i).plan[n]? = some (.write f m) → plannedReg i s f ∈ stored) :
    LeavesTheRest i.hreg stored s t := by
  obtain ⟨u, hu, ht⟩ := exec_follows h
  refine ⟨fun j hj => ?_, ht.cmdr.trans hu.cmdr, ht.params.trans hu.params, fun hv => ?_, fun a ha => ?_⟩
  · rw [← hu.getX j]
    by_contra hne
    obtain ⟨_, _, hk⟩ := ht.getX_changed hne
    exact hj (hk.symm.trans (commandOf_h i))
  · rw [← hu.rsp]
    by_contra hne
    exact absurd (hv.symm.trans (ht.rsp_changed hne)) (by decide)
  · rw [ht.params, ht.mem]
    by_contra hne
    obtain ⟨n, f, m, hn, hf, hreg⟩ := hu.mem_changed hne
    exact ha _ (hstored n f m hn hf) hreg

/-- A command that keeps its handle register however it ends changes none (R23). -/
theorem exec_getX_of_keep {i : Instr} {s t : State} (h : exec i s = .next t) (hok : (commandOf i).onOk = .keep)
    (herr : (commandOf i).onErr = .keep) (k : HReg) : t.getX k = s.getX k := by
  obtain ⟨u, hu, ht⟩ := exec_follows h
  rw [← hu.getX k]
  cases ht with
  | refused => exact raise_getX _ u k
  | completed => rw [complete_getX, hok]; rfl
  | aborted => rw [abort_getX, herr]; rfl
  | goesOn => rfl

/-- Only the acceptance of a constructor with a wrong index changes `HALT` (R28, R166). -/
theorem exec_halt {i : Instr} {s t : State} (h : exec i s = .next t) :
    t.halt = s.halt ∨ (s.pc = .idle ∧ (commandOf i).breaksContract = true) := by
  by_cases hpc : s.pc = .idle
  · rw [exec_idle hpc] at h
    injection h with h
    cases hindex : (commandOf i).breaksContract with
    | true => exact .inr ⟨hpc, rfl⟩
    | false => exact .inl (h ▸ accept_halt hindex s.quiet)
  · obtain ⟨n, u, _, hu, rfl⟩ := exec_transacts hpc h
    exact .inl ((conclude_halt _ _ _ _).trans hu.halt)

theorem exec_halt_of_indexOk {i : Instr} {s t : State} (h : exec i s = .next t)
    (hindex : (commandOf i).breaksContract = false) : t.halt = s.halt :=
  (exec_halt h).resolve_right fun hc => absurd (hindex.symm.trans hc.2) (by decide)

/-- `TMP` is kept at every position at which the plan has no read (R26). -/
theorem exec_tmp {i : Instr} {s t : State} (h : exec i s = .next t)
    (hread : ∀ n f, s.pc.txn = some n → (commandOf i).plan[n]? ≠ some (.read f)) : t.tmp = s.tmp := by
  obtain ⟨u, hu, ht⟩ := exec_follows h
  rw [ht.tmp]
  by_contra hne
  obtain ⟨n, f, hn, hf⟩ := hu.tmp_changed hne
  exact hread n f hn hf

/-! ## O34: the instructions that store nothing -/

/-- A micro-step of a command whose plan has no write stores nothing. -/
theorem exec_storesNothing {i : Instr} {s t : State} (hplan : ∀ f m, PlanStep.write f m ∉ (commandOf i).plan)
    (h : exec i s = .next t) : LeavesTheRest i.hreg [] s t :=
  exec_leavesTheRest h fun _ f m _ hf => absurd (List.mem_of_getElem? hf) (hplan f m)

/-- Settles O34: none of the four plans has a write, and those of I2I and DROP are empty. -/
theorem instructionsThatStoreNothing : Obligations.InstructionsThatStoreNothing := by
  intro h s t
  refine ⟨fun ht => ?_, fun ht => ?_, fun ht => ?_, fun ht => ?_⟩
  · exact ⟨exec_storesNothing (by simp) ht, exec_getX_of_keep ht rfl rfl h, exec_halt_of_indexOk ht rfl⟩
  · exact ⟨exec_storesNothing (by simp) ht, exec_getX_of_keep ht rfl rfl h, exec_halt_of_indexOk ht rfl⟩
  · exact ⟨exec_storesNothing (by simp) ht, exec_getX_of_keep ht rfl rfl h, exec_halt_of_indexOk ht rfl,
      exec_tmp ht (by simp)⟩
  · exact ⟨exec_storesNothing (by simp) ht, exec_halt_of_indexOk ht rfl, exec_tmp ht (by simp)⟩

/-! ## O35: the instructions that store one register -/

/-- A micro-step of a command that reads and writes one register stores to that register, in transaction 1, and keeps
`TMP` but in transaction 0 (R102 to R104). -/
theorem exec_storesOnce {i : Instr} {f : Fn} {m : BitMod} {s t : State}
    (hplan : (commandOf i).plan = [.read f, .write f m]) (h : exec i s = .next t) :
    LeavesTheRest i.hreg (if s.pc = .t1 then [plannedReg i s f] else []) s t ∧
      (s.pc = .idle ∨ s.pc = .t1 → t.tmp = s.tmp) := by
  refine ⟨exec_leavesTheRest h fun n g l hn hg => ?_, fun hpc => exec_tmp h fun n g hn hg => ?_⟩ <;> rw [hplan] at hg
  · cases hpc : s.pc <;> rw [hpc] at hn <;> cases hn <;> cases hg
    exact List.mem_singleton_self _
  · rcases hpc with hpc | hpc <;> rw [hpc] at hn <;> cases hn
    cases hg

/-- The same for a command that brings no wrong index, so that `HALT` is kept too. -/
theorem exec_storesOnce_of_indexOk {i : Instr} {f : Fn} {m : BitMod} {s t : State}
    (hplan : (commandOf i).plan = [.read f, .write f m]) (hindex : (commandOf i).breaksContract = false)
    (h : exec i s = .next t) :
    LeavesTheRest i.hreg (if s.pc = .t1 then [plannedReg i s f] else []) s t ∧ t.halt = s.halt ∧
      (s.pc = .idle ∨ s.pc = .t1 → t.tmp = s.tmp) := by
  obtain ⟨hrest, htmp⟩ := exec_storesOnce hplan h
  exact ⟨hrest, exec_halt_of_indexOk h hindex, htmp⟩

/-- Settles O35. The plan of each of the six reads and writes one register; SPOL, SETH and SETL keep their handle, and only
NEWI brings an index that can be wrong. -/
theorem instructionsThatStoreOnce : Obligations.InstructionsThatStoreOnce := by
  intro h s t
  refine ⟨fun b i ht => ?newi, exec_storesOnce_of_indexOk rfl rfl, fun p ht => ?spol, fun ht => ?seth, fun ht => ?setl,
    fun l => exec_storesOnce_of_indexOk rfl rfl⟩
  case newi =>
    obtain ⟨hrest, htmp⟩ := exec_storesOnce rfl ht
    exact ⟨hrest, (exec_halt ht).imp id fun hc => ⟨hc.1, of_decide_eq_true hc.2⟩, htmp⟩
  all_goals
    obtain ⟨hrest, hkept⟩ := exec_storesOnce_of_indexOk rfl rfl ht
    exact ⟨hrest, exec_getX_of_keep ht rfl rfl h, hkept⟩

/-! ## Whole commands -/

/-- A run is continued from where it has come to. -/
theorem runs_add {j : Nat} {s t : State} (h : runs j s = .next t) (k : Nat) : runs (k + j) s = runs k t := by
  induction j generalizing s with
  | zero => cases h; rfl
  | succ j ih =>
    cases hs : step s with
    | next s' =>
      rw [runs_succ _ hs] at h
      exact (runs_succ (k + j) hs).trans (ih h)
    | fault r | refused r =>
      have hcore : Sys2Proof.core.step s = _ := hs
      simp only [runs, Host.Core.run, hcore, reduceCtorEq] at h

/-- A command that completed leaves a controller ready for the next word (R100, R106). -/
theorem complete_ready {u : State} (h : u.halt = false) (c : Command) : (complete c u).cmdReady = true :=
  (cmdReady_iff _).mpr ⟨rfl, (complete_halt c u).trans h⟩

@[simp] theorem complete_devByte (c : Command) (s : State) (r : RegisterId) :
    (complete c s).devByte r = s.devByte r := by
  simp [complete]

theorem complete_x_of_keep {c : Command} (hc : c.onOk = .keep) (s : State) : (complete c s).x = s.x := by
  rw [complete, hc]
  rfl

/-- The read-modify-write looks at the handle file and the device of the state it starts from, and at nothing else. -/
theorem ReadsModifiesWrites.of_eq {i : Instr} {f : Fn} {m : BitMod} {s s' u : State} (h : ReadsModifiesWrites i f m s' u)
    (hx : s'.x = s.x) (hmem : s'.mem = s.mem) (hparams : s'.params = s.params) : ReadsModifiesWrites i f m s u := by
  have hget : s'.getX (commandOf i).h = s.getX (commandOf i).h := by simp only [State.getX, hx]
  have hdev : ∀ b g, s'.devReg b g = s.devReg b g := fun b g => by
    simp only [State.devReg, State.devByte, hmem, hparams]
  obtain ⟨hux, huparams, hport, hstored, hothers⟩ := h
  simp only [plannedReg, Command.bankOf_congr _ hget, Command.idxOf_congr _ hget, hparams, hdev] at hport hstored hothers
  exact ⟨hux.trans hx, huparams.trans hparams, hport, hstored, hothers⟩

/-- A whole command that reads and writes one register, with both answers `Ok`: its three steps make the
read-modify-write and complete it (R100, R103, R104). -/
theorem runs_readModifyWrite {i : Instr} {f : Fn} {m : BitMod} {s : State} {v w : Byte} {ms : List Move}
    (hplan : (commandOf i).plan = [.read f, .write f m]) (hp : s.params.regs.wf) (hready : s.cmdReady = true)
    (hm : s.moves = .command (encode i) :: .answer (.ok v) :: .answer (.ok w) :: ms) (hi : i.wellFormed = true)
    (hindex : (commandOf i).breaksContract = false) (hhandle : (commandOf i).handleOk s = true) :
    ∃ u, runs 3 s = .next (complete (commandOf i) u) ∧ ReadsModifiesWrites i f m s u ∧ u.halt = false ∧ u.moves = ms := by
  obtain ⟨s₁, hstep₁, hprog, hx, hmem, hparams, _, hmoves⟩ :=
    step_accepts hready hm hi hindex hhandle (by simp [hplan])
  obtain ⟨s₂, u, hstep₂, _, hstep₃, huprog, humoves, hu⟩ :=
    hprog.step_pair (f := f) (m := m) (hparams ▸ hp) hmoves (by rw [hplan]; rfl) (by rw [hplan]; rfl)
  have hlast : conclude (commandOf i) (0 + 1) (.ok w) u = complete (commandOf i) u := if_pos (by rw [hplan]; rfl)
  rw [hlast] at hstep₃
  exact ⟨u, runs_snoc (runs_snoc (runs_succ 0 hstep₁) hstep₂) hstep₃, hu.of_eq hx hmem hparams, huprog.running, humoves⟩

/-! ## O55: NEWI from the word to the response -/

/-- Settles O55: the read-modify-write of the configuration register, and the completion, which writes the handle. -/
theorem newiConstructsAnInputPin : Obligations.NewiConstructsAnInputPin := by
  intro h b i s v0 v1 ms hlegal hready hm
  have hwf : (Instr.newi h b i.val).wellFormed = true := decide_eq_true (show i.val < 16 by omega)
  have hindex : (commandOf (.newi h b i.val)).breaksContract = false := decide_eq_false (show ¬ 8 ≤ i.val by omega)
  obtain ⟨u, hrun, ⟨hx, _, _, hstored, hothers⟩, hhalt, hmoves⟩ :=
    runs_readModifyWrite rfl hlegal.1 hready hm hwf hindex rfl
  have hbank : ∀ s, (commandOf (.newi h b i.val)).bankOf s = b := fun _ => rfl
  have hidx : ∀ s, (commandOf (.newi h b i.val)).idxOf s = i := fun _ => pinIdx_val i
  simp only [hbank, hidx] at hstored hothers
  refine ⟨_, hrun, ?_, ?_, ?_, ?_, complete_rsp_of_zero rfl u, rfl, complete_ready hhalt _, ?_⟩
  · rw [complete_devReg, hstored]
    rfl
  · exact fun b' f' hne => by rw [complete_devReg, hothers b' f' hne]
  · have hput : (complete (commandOf (.newi h b i.val)) u).getX h = ⟨true, .input, b, pinIdx i.val⟩ :=
      State.getX_setX_self u h _
    rw [hput, pinIdx_val]
  · intro k hk
    rw [complete_getX, HandleEffect.apply_getX_ne _ _ _ k hk]
    simp only [State.getX, hx]
  · rw [complete_moves, hmoves]

/-! ## O57: ISHI and ISLO, one after the other -/

/-- A transaction that is a read changes no device byte (R52, D22). -/
theorem Transacts.devByte_of_read {i : Instr} {n : Nat} {s u : State} {a : Answer} {f : Fn} (h : Transacts i n s a u)
    (hf : (commandOf i).plan[n]? = some (.read f)) (r : RegisterId) : u.devByte r = s.devByte r := by
  by_contra hne
  obtain ⟨g, m, hg, _⟩ := h.devByte_changed hne
  cases hf.symm.trans hg

/-- The result bit comes from `TMP` and the pin of the command alone (R121, R122). -/
theorem ResultBit.value_congr (r : ResultBit) {c : Command} {s s' : State} (htmp : s'.tmp = s.tmp)
    (hget : s'.getX c.h = s.getX c.h) : r.value c s' = r.value c s := by
  cases r with
  | zero => rfl
  | level | notLevel => simp only [ResultBit.value, htmp, Command.idxOf_congr c hget]

/-- A whole ISHI or ISLO whose read answers `Ok(v)`: the response is OK with the result bit made from `v`, and neither a
handle register nor the device has changed (R121, R122). -/
theorem runs_read {i : Instr} {s : State} {v : Byte} {ms : List Move} (hi : (∃ h, i = .ishi h) ∨ ∃ h, i = .islo h)
    (hready : s.cmdReady = true) (hm : s.moves = .command (encode i) :: .answer (.ok v) :: ms)
    (hvalid : (s.getX i.hreg).valid = true) (hrole : (s.getX i.hreg).role = .input) :
    ∃ t, runs 2 s = .next t ∧ rspSt t.rsp = Status.ok.code ∧
      rspVal t.rsp = (commandOf i).result.value (commandOf i) (s.setTmp v) ∧ t.x = s.x ∧
      (∀ r, t.devByte r = s.devByte r) ∧ t.cmdReady = true ∧ t.moves = ms := by
  obtain ⟨hplan, hneeds, hindex, hwf, hkeep, hres⟩ :
      (commandOf i).plan = [.read .inp] ∧ (commandOf i).needs = some .input ∧ (commandOf i).breaksContract = false ∧
        i.wellFormed = true ∧ (commandOf i).onOk = .keep ∧ (commandOf i).result ≠ .zero := by
    rcases hi with ⟨h, rfl⟩ | ⟨h, rfl⟩ <;> exact ⟨rfl, rfl, rfl, rfl, rfl, nofun⟩
  have hread : (commandOf i).plan[0]? = some (.read .inp) := by rw [hplan]; rfl
  obtain ⟨s₁, hstep₁, hprog, hx, hmem, hparams, _, hmoves⟩ :=
    step_accepts hready hm hwf hindex (handleOk_of_role hneeds hvalid hrole) (by simp [hplan])
  obtain ⟨u, hu, hstep₂, huprog, humoves⟩ := hprog.step_transacts hmoves
  have hlast : conclude (commandOf i) 0 (.ok v) u = complete (commandOf i) u := if_pos (by rw [hplan]; rfl)
  rw [hlast] at hstep₂
  have htmp : u.tmp = v := hu.tmp_eq_draw.resolve_left hres
  have hux : u.x = s.x := hu.x.trans hx
  refine ⟨_, runs_snoc (runs_succ 0 hstep₁) hstep₂, rspSt_rspWord .., ?_, (complete_x_of_keep hkeep u).trans hux,
    fun r => ?_, complete_ready huprog.running _, (complete_moves _ u).trans humoves⟩
  · have hget : u.getX (commandOf i).h = s.getX (commandOf i).h := by simp only [State.getX, hux]
    exact (rspVal_rspWord ..).trans (ResultBit.value_congr _ htmp hget)
  · rw [complete_devByte, hu.devByte_of_read hread]
    simp only [State.devByte, hmem, hparams]

/-- Settles O57: the second command finds the handle and the device as the first one did. -/
theorem ishiAndIsloAnswerTheirOwnReads : Obligations.IshiAndIsloAnswerTheirOwnReads := by
  intro h s v w ms _ hready hvalid hrole hm
  obtain ⟨t, hrun, hst, hval, hx, hdev, htready, htmoves⟩ := runs_read (.inl ⟨h, rfl⟩) hready hm hvalid hrole
  have hget : t.getX h = s.getX h := by simp only [State.getX, hx]
  obtain ⟨u, hrun', hst', hval', _, hdev', _, _⟩ :=
    runs_read (.inr ⟨h, rfl⟩) htready htmoves (hget ▸ hvalid) (hget ▸ hrole)
  have hhigh : rspVal t.rsp = bit v (s.getX h).idx := hval
  have hlow : rspVal u.rsp = !bit w (s.getX h).idx := hget ▸ hval'
  exact ⟨t, u, hrun, (runs_add hrun 2).trans hrun', hst, hhigh, hst', hlow, fun hvw => by rw [hlow, hhigh, hvw],
    fun r => (hdev' r).trans (hdev r)⟩

/-! ## O58: SPOL Inverse, then SPOL Normal -/

/-- Eight distinct identifiers of three bits are all there are, so every identifier names a register (R8, R10). -/
theorem exists_regSel {p : Params} (hp : p.regs.wf) (r : RegisterId) : ∃ b f, regSel p b f = r := by
  have hmem : r ∈ [p.regs.in0, p.regs.in1, p.regs.out0, p.regs.out1, p.regs.pol0, p.regs.pol1, p.regs.cfg0,
      p.regs.cfg1] := by
    by_contra hr
    have hnine := ((List.nodup_cons.mpr ⟨hr, hp⟩).map BitVec.toFin_injective).length_le_card
    simp at hnine
  simp only [List.mem_cons, List.not_mem_nil, or_false] at hmem
  rcases hmem with rfl | rfl | rfl | rfl | rfl | rfl | rfl | rfl
  · exact ⟨.bank0, .inp, rfl⟩
  · exact ⟨.bank1, .inp, rfl⟩
  · exact ⟨.bank0, .out, rfl⟩
  · exact ⟨.bank1, .out, rfl⟩
  · exact ⟨.bank0, .pol, rfl⟩
  · exact ⟨.bank1, .pol, rfl⟩
  · exact ⟨.bank0, .cfg, rfl⟩
  · exact ⟨.bank1, .cfg, rfl⟩

/-- The device holds the same bytes when each register of each bank does. -/
theorem devByte_eq_of_devReg_eq {s t : State} (hp : s.params.regs.wf) (hparams : t.params = s.params)
    (h : ∀ b f, t.devReg b f = s.devReg b f) (r : RegisterId) : t.devByte r = s.devByte r := by
  obtain ⟨b, f, rfl⟩ := exists_regSel hp r
  have hreg := h b f
  rwa [State.devReg, State.devReg, hparams] at hreg

/-- A whole SPOL on an input pin with both answers `Ok` puts the polarity's bit in the polarity register of the pin's
bank; nothing else in the device and no handle register has changed (R123). -/
theorem runs_spol {h : HReg} {p : Polarity} {s : State} {v w : Byte} {ms : List Move} (hp : s.params.regs.wf)
    (hready : s.cmdReady = true) (hvalid : (s.getX h).valid = true) (hrole : (s.getX h).role = .input)
    (hm : s.moves = .command (encode (.spol h p)) :: .answer (.ok v) :: .answer (.ok w) :: ms) :
    ∃ t, runs 3 s = .next t ∧
      t.devReg (s.getX h).bank .pol = putbit (s.devReg (s.getX h).bank .pol) (s.getX h).idx (polarityBit p) ∧
      (∀ b f, ¬ (b = (s.getX h).bank ∧ f = .pol) → t.devReg b f = s.devReg b f) ∧
      t.x = s.x ∧ t.params = s.params ∧ t.rsp = 0x0000 ∧ t.cmdReady = true ∧ t.moves = ms := by
  obtain ⟨u, hrun, ⟨hx, hparams, _, hstored, hothers⟩, hhalt, hmoves⟩ :=
    runs_readModifyWrite rfl hp hready hm rfl rfl (handleOk_of_role rfl hvalid hrole)
  refine ⟨_, hrun, ?_, fun b f hne => ?_, (complete_x_of_keep rfl u).trans hx, (complete_params _ u).trans hparams,
    complete_rsp_of_zero rfl u, complete_ready hhalt _, (complete_moves _ u).trans hmoves⟩
  · rw [complete_devReg, ← BitMod.apply_put]
    exact hstored
  · rw [complete_devReg]
    exact hothers b f hne

/-- Settles O58: of the two writes of the pin's bit the second one counts, and it writes the bit that was there if that
was Normal. -/
theorem inverseThenNormalRestoresPolarity : Obligations.InverseThenNormalRestoresPolarity := by
  intro h s v0 v1 v2 v3 ms hlegal hready hvalid hrole hm
  obtain ⟨t, hrun, hpol, hothers, hx, hparams, _, htready, htmoves⟩ := runs_spol hlegal.1 hready hvalid hrole hm
  have hget : t.getX h = s.getX h := by simp only [State.getX, hx]
  obtain ⟨u, hrun', hpol', hothers', hx', hparams', hrsp, huready, humoves⟩ :=
    runs_spol (hparams ▸ hlegal.1) htready (hget ▸ hvalid) (hget ▸ hrole) htmoves
  rw [hget] at hpol' hothers'
  rw [hpol, putbit_putbit] at hpol'
  refine ⟨u, (runs_add hrun 3).trans hrun', hpol', fun hbit => ?_, hx'.trans hx, hrsp, huready, humoves⟩
  refine devByte_eq_of_devReg_eq hlegal.1 (hparams'.trans hparams) fun b f => ?_
  by_cases hreg : b = (s.getX h).bank ∧ f = .pol
  · obtain ⟨rfl, rfl⟩ := hreg
    exact hpol'.trans (putbit_eq_self hbit)
  · rw [hothers' b f hreg, hothers b f hreg]

end Sys2Proof.Machine
end

section
/-! PROOFS. The output pin instructions, micro-step by micro-step (O13 to O15), and the frame of the two instructions that
store to two registers (O36). `exec_write_goesOn` is the one kind of micro-step that NEWO and I2O add to those of the
input pin instructions: a write with transactions still to come. -/

namespace Sys2Proof.Machine

/-! ## O36: the instructions that store two registers -/

/-- A micro-step of NEWO or I2O stores to the output register in transaction 1 and to the configuration register in
transaction 3, and keeps `TMP` but in the two reads (R102 to R104, R107). -/
theorem exec_storesTwice {i : Instr} {l : Level} {s t : State} (hl : seedLevel i = some l) (h : exec i s = .next t) :
    LeavesTheRest i.hreg (if s.pc = .t1 then [plannedReg i s .out]
        else if s.pc = .t3 then [plannedReg i s .cfg] else []) s t ∧
      (s.pc = .idle ∨ s.pc = .t1 ∨ s.pc = .t3 → t.tmp = s.tmp) := by
  have hplan := seedLevel_plan hl
  refine ⟨exec_leavesTheRest h fun n g m hn hg => ?_, fun hpc => exec_tmp h fun n g hn hg => ?_⟩ <;> rw [hplan] at hg
  · cases hpc : s.pc <;> rw [hpc] at hn <;> cases hn <;> cases hg
    · exact List.mem_singleton_self _
    · exact List.mem_singleton_self _
  · rcases hpc with hpc | hpc | hpc <;> rw [hpc] at hn <;> cases hn <;> cases hg

/-- Settles O36: both instructions have the plan of `exec_storesTwice`, and only NEWO brings an index that can be wrong. -/
theorem instructionsThatStoreTwice : Obligations.InstructionsThatStoreTwice := by
  intro h l s t
  refine ⟨fun b i ht => ?newo, fun ht => ?i2o⟩
  case newo =>
    obtain ⟨hrest, htmp⟩ := exec_storesTwice rfl ht
    exact ⟨hrest, (exec_halt ht).imp id fun ⟨hpc, hindex⟩ => ⟨hpc, of_decide_eq_true hindex⟩, htmp⟩
  case i2o =>
    obtain ⟨hrest, htmp⟩ := exec_storesTwice rfl ht
    exact ⟨hrest, exec_halt_of_indexOk ht rfl, htmp⟩

/-! ## O13: NEWO -/

/-- A write that answers `Ok` and is not the last transaction: the byte made from `TMP` is stored and the command is at
its next position (R104). -/
theorem exec_write_goesOn {i : Instr} {s : State} {p : SeqPos} {n : Nat} {f : Fn} {m : BitMod} {v : Byte} (hpc : s.pc = p)
    (hn : p.txn = some n) (hf : (commandOf i).plan[n]? = some (.write f m)) (hlast : n + 1 ≠ (commandOf i).plan.length)
    (ha : s.answer = .ok v) :
    exec i s = .next { s.afterAnswer with
      pc := p.succ, rspValid := false
      mem := Memory.write s.params s.mem (plannedReg i s f).toNat (plannedByte i s m)
      port := some (.write (plannedReg i s f) (plannedByte i s m)) } := by
  subst hpc
  rw [exec_write hn hf, writeStep_ok (s.quiet_answer.trans ha), advance, if_neg hlast]
  rfl

/-- The bit a level writes is 1 for High and 0 for Low (R108). -/
theorem levelBit_eq_decide (l : Level) : levelBit l = decide (l = .high) := by cases l <;> rfl

/-- Settles O13: the acceptance, two reads that go on, the write of the level that goes on, and the write of the
configuration that completes the command and so writes the handle. -/
theorem newoProgramsOutputThenConfiguration : Obligations.NewoProgramsOutputThenConfiguration := by
  intro h b i l s v hi hp
  have hindex : (commandOf (.newo h b i l)).breaksContract = false := decide_eq_false (by omega)
  refine ⟨fun hpc => exec_accepts hpc hindex rfl (by simp),
    fun hpc ha => exec_read_goesOn hpc rfl rfl (by simp) hp (by decide) ha, fun hpc ha => ?levelWrite,
    fun hpc ha => exec_read_goesOn hpc rfl rfl (by simp) hp (by decide) ha,
    fun hpc ha => exec_lastWrite (f := .cfg) (m := .clear) hpc rfl rfl rfl rfl ha⟩
  case levelWrite =>
    rw [← levelBit_eq_decide, ← BitMod.apply_put]
    exact exec_write_goesOn hpc rfl rfl (by simp) ha

/-! ## O14, O15: SETH and SETL -/

/-- Settles O14. -/
theorem sethSetsTheOutputBit : Obligations.SethSetsTheOutputBit := by
  intro h s v hp
  exact ⟨fun hpc hvalid hrole => exec_accepts hpc rfl (handleOk_of_role rfl hvalid hrole) (by simp),
    fun hpc ha => exec_read_goesOn hpc rfl rfl (by simp) hp (by decide) ha,
    fun hpc ha => exec_lastWrite (f := .out) (m := .set) hpc rfl rfl rfl rfl ha⟩

/-- Settles O15. -/
theorem setlClearsTheOutputBit : Obligations.SetlClearsTheOutputBit := by
  intro h s v hp
  exact ⟨fun hpc hvalid hrole => exec_accepts hpc rfl (handleOk_of_role rfl hvalid hrole) (by simp),
    fun hpc ha => exec_read_goesOn hpc rfl rfl (by simp) hp (by decide) ha,
    fun hpc ha => exec_lastWrite (f := .out) (m := .clear) hpc rfl rfl rfl rfl ha⟩

end Sys2Proof.Machine
end

section
/-! PROOFS. The role transitions and DROP, micro-step by micro-step (O16 to O19), and the round trip of one pin through both
roles (O59).

A transition takes its pin from the handle register and gives it back with the other role, so what a whole I2O and a whole
O2I do is said of a register that holds a known pin (`runs_i2o`, `runs_o2i`), and one runs on from where the other left
it. -/

namespace Sys2Proof.Machine

/-! ## O59: input, output, input -/

/-- A run of at least one step that answers a state begins with a step that does. -/
theorem runs_succ_next {k : Nat} {s t : State} (h : runs (k + 1) s = .next t) :
    ∃ s', step s = .next s' ∧ runs k s' = .next t := by
  cases hstep : step s with
  | next s' => exact ⟨s', rfl, (runs_succ k hstep).symm.trans h⟩
  | fault r | refused r =>
    have hcore : Sys2Proof.core.step s = _ := hstep
    simp only [runs, Host.Core.run, hcore, reduceCtorEq] at h

/-- What every step keeps, a run keeps. -/
theorem runs_keeps {P : State → Prop} (hP : ∀ {s t : State}, step s = .next t → P s → P t) {k : Nat} {s t : State}
    (h : runs k s = .next t) (hs : P s) : P t := by
  induction k generalizing s with
  | zero => cases h; exact hs
  | succ k ih =>
    obtain ⟨s', hstep, hrun⟩ := runs_succ_next h
    exact ih hrun (hP hstep hs)

/-- No run changes the parameters the machine is built with (R8, R11). -/
theorem runs_params {k : Nat} {s t : State} (h : runs k s = .next t) : t.params = s.params :=
  runs_keeps (P := fun u => u.params = s.params) (fun hstep hu => (step_params hstep).trans hu) h rfl

/-- A command that takes its pin from the handle register and writes it back as a pin of role `r` keeps bank and index
(R106, R142, R143). -/
theorem complete_getX_of_put {c : Command} {u : State} {r r' : Role} {b : Bank} {j : PinIdx} (hpin : c.pin = none)
    (hput : c.onOk = .put r) (hget : u.getX c.h = ⟨true, r', b, j⟩) : (complete c u).getX c.h = ⟨true, r, b, j⟩ := by
  have hbank : c.bankOf u = b := by simp only [Command.bankOf, hpin, hget]
  have hidx : c.idxOf u = j := by simp only [Command.idxOf, hpin, hget]
  rw [complete_getX, hput, HandleEffect.apply, State.getX_setX_self, hbank, hidx]

/-- A whole I2O on an input pin with its four answers `Ok` puts the level in the output register of the pin's bank and
clears its configuration bit; nothing else in the device has changed, and the handle is the output pin (R142). -/
theorem runs_i2o {h : HReg} {l : Level} {s : State} {b : Bank} {j : PinIdx} {v0 v1 v2 v3 : Byte} {ms : List Move}
    (hp : s.params.regs.wf) (hready : s.cmdReady = true) (hget : s.getX h = ⟨true, .input, b, j⟩)
    (hm : s.moves = .command (encode (.i2o h l)) :: .answer (.ok v0) :: .answer (.ok v1) :: .answer (.ok v2) ::
      .answer (.ok v3) :: ms) :
    ∃ t, runs 5 s = .next t ∧ t.devReg b .cfg = clrbit (s.devReg b .cfg) j ∧
      t.devReg b .out = putbit (s.devReg b .out) j (levelBit l) ∧
      (∀ b' f', ¬ (b' = b ∧ (f' = .out ∨ f' = .cfg)) → t.devReg b' f' = s.devReg b' f') ∧
      t.getX h = ⟨true, .output, b, j⟩ ∧ t.cmdReady = true ∧ t.moves = ms := by
  obtain ⟨s₁, hstep₁, hprog, hx, hmem, hparams, _, hmoves⟩ :=
    step_accepts hready hm rfl rfl (handleOk_of_role (r := .input) rfl (by simp [hget]) (by simp [hget])) (by simp)
  obtain ⟨s₂, s₃, s₄, u, hstep₂, hstep₃, hstep₄, hstep₅, _, _, _, _, humoves, hux, hrunning, hlevel, hdirection, hothers⟩ :=
    hprog.makes_output rfl (hparams ▸ hp) hmoves
  have hget₁ : s₁.getX h = ⟨true, .input, b, j⟩ := by rw [← hget]; simp only [State.getX, hx]
  have hgetu : u.getX h = ⟨true, .input, b, j⟩ := by rw [← hget₁]; simp only [State.getX, hux]
  have hbank : (commandOf (.i2o h l)).bankOf s₁ = b := congrArg Handle.bank hget₁
  have hidx : (commandOf (.i2o h l)).idxOf s₁ = j := congrArg Handle.idx hget₁
  have hdev : ∀ b' f', s₁.devReg b' f' = s.devReg b' f' := fun b' f' => by
    simp only [State.devReg, State.devByte, hmem, hparams]
  simp only [hbank, hidx, hdev] at hlevel hdirection hothers
  have hrun := runs_snoc (runs_snoc (runs_snoc (runs_snoc (runs_succ 0 hstep₁) hstep₂) hstep₃) hstep₄) hstep₅
  exact ⟨_, hrun, (complete_devReg ..).trans hdirection, (complete_devReg ..).trans hlevel,
    fun b' f' hne => (complete_devReg ..).trans (hothers b' f' hne), complete_getX_of_put rfl rfl hgetu,
    complete_ready hrunning _, (complete_moves ..).trans humoves⟩

/-- A whole O2I on an output pin with both answers `Ok` sets the pin's configuration bit; nothing else in the device has
changed, and the handle is the input pin (R143). -/
theorem runs_o2i {h : HReg} {s : State} {b : Bank} {j : PinIdx} {v w : Byte} {ms : List Move} (hp : s.params.regs.wf)
    (hready : s.cmdReady = true) (hget : s.getX h = ⟨true, .output, b, j⟩)
    (hm : s.moves = .command (encode (.o2i h)) :: .answer (.ok v) :: .answer (.ok w) :: ms) :
    ∃ t, runs 3 s = .next t ∧ t.devReg b .cfg = setbit (s.devReg b .cfg) j ∧
      (∀ b' f', ¬ (b' = b ∧ f' = .cfg) → t.devReg b' f' = s.devReg b' f') ∧
      t.getX h = ⟨true, .input, b, j⟩ ∧ t.rsp = 0x0000 ∧ t.cmdReady = true ∧ t.moves = ms := by
  obtain ⟨u, hrun, ⟨hx, _, _, hstored, hothers⟩, hrunning, hmoves⟩ := runs_readModifyWrite rfl hp hready hm rfl rfl
    (handleOk_of_role (r := .output) rfl (by simp [hget]) (by simp [hget]))
  have hgetu : u.getX h = ⟨true, .output, b, j⟩ := by rw [← hget]; simp only [State.getX, hx]
  have hbank : (commandOf (.o2i h)).bankOf s = b := congrArg Handle.bank hget
  have hidx : (commandOf (.o2i h)).idxOf s = j := congrArg Handle.idx hget
  simp only [hbank, hidx] at hstored hothers
  exact ⟨_, hrun, (complete_devReg ..).trans hstored, fun b' f' hne => (complete_devReg ..).trans (hothers b' f' hne),
    complete_getX_of_put rfl rfl hgetu, complete_rsp_of_zero rfl u, complete_ready hrunning _,
    (complete_moves ..).trans hmoves⟩

/-- Settles O59: NEWI (O55), I2O and O2I in a row. Of the three writes of the configuration bit the last one counts, and
only I2O writes the output register. -/
theorem inputOutputInputRoundTrip : Obligations.InputOutputInputRoundTrip := by
  intro h b i s v0 v1 v2 v3 v4 v5 v6 v7 ms hlegal hready hm
  obtain ⟨t₁, hrun₁, hcfg₁, hothers₁, hget₁, _, _, _, hready₁, hmoves₁⟩ :=
    newiConstructsAnInputPin h b i s v0 v1 _ hlegal hready hm
  obtain ⟨t₂, hrun₂, hcfg₂, hout₂, hothers₂, hget₂, hready₂, hmoves₂⟩ :=
    runs_i2o (runs_params hrun₁ ▸ hlegal.1) hready₁ hget₁ hmoves₁
  have hrun₁₂ : runs 8 s = .next t₂ := (runs_add hrun₁ 5).trans hrun₂
  obtain ⟨t₃, hrun₃, hcfg₃, hothers₃, hget₃, hrsp, hready₃, hmoves₃⟩ :=
    runs_o2i (runs_params hrun₁₂ ▸ hlegal.1) hready₂ hget₂ hmoves₂
  have hlastCounts : setbit (clrbit (setbit (s.devReg b .cfg) i) i) i = setbit (s.devReg b .cfg) i :=
    (putbit_putbit _ i false true).trans (putbit_putbit _ i true true)
  refine ⟨t₃, (runs_add hrun₁₂ 3).trans hrun₃, ?cfg, ?out, fun b' f' hne => ?others, hget₃, hrsp, hready₃, hmoves₃⟩
  case cfg => rw [hcfg₃, hcfg₂, hcfg₁, hlastCounts]
  case out =>
    have hhigh : ∀ v, putbit v i (levelBit .high) = setbit v i := fun _ => rfl
    rw [hothers₃ b .out (by simp), hout₂, hothers₁ b .out (by simp), hhigh]
  case others =>
    have hcfg : ¬ (b' = b ∧ f' = .cfg) := fun ⟨hb, hf⟩ => hne ⟨hb, .inr hf⟩
    rw [hothers₃ b' f' hcfg, hothers₂ b' f' hne, hothers₁ b' f' hcfg]

/-! ## O16: I2I and DROP -/

/-- The acceptance of an instruction whose checks pass and whose plan is empty: the response word is 0 and the handle
register is as the command leaves it (R101 step 4, R106). -/
theorem exec_completes {i : Instr} {s : State} (hpc : s.pc = .idle) (hindex : (commandOf i).breaksContract = false)
    (hhandle : (commandOf i).handleOk s = true) (hplan : (commandOf i).plan = []) (hres : (commandOf i).result = .zero) :
    exec i s = .next ((commandOf i).onOk.apply (commandOf i) { s with rsp := 0x0000, rspValid := true, port := none }) := by
  have hhandle' : (commandOf i).handleOk s.quiet = true := hhandle
  have haccept : accept (commandOf i) s.quiet = complete (commandOf i) s.quiet := by
    simp [accept, hindex, hhandle', hplan]
  rw [exec_idle hpc, haccept, complete_of_zero hres, ← hpc]
  rfl

/-- Settles O16. -/
theorem i2iAndDropCompleteAtAcceptance : Obligations.I2iAndDropCompleteAtAcceptance := by
  intro h s hpc
  exact ⟨fun hvalid hrole => exec_completes hpc rfl (handleOk_of_role rfl hvalid hrole) rfl rfl,
    exec_completes hpc rfl rfl rfl rfl⟩

/-! ## O17 to O19: I2O, O2I and O2O, micro-step by micro-step -/

/-- Settles O17: the micro-steps are those of NEWO, on the pin of the handle register. -/
theorem i2oProgramsOutputThenConfiguration : Obligations.I2oProgramsOutputThenConfiguration := by
  intro h l s v hp
  refine ⟨fun hpc hvalid hrole => exec_accepts hpc rfl (handleOk_of_role rfl hvalid hrole) (by simp),
    fun hpc ha => exec_read_goesOn hpc rfl rfl (by simp) hp (by decide) ha, fun hpc ha => ?levelWrite,
    fun hpc ha => exec_read_goesOn hpc rfl rfl (by simp) hp (by decide) ha,
    fun hpc ha => exec_lastWrite (f := .cfg) (m := .clear) hpc rfl rfl rfl rfl ha⟩
  case levelWrite =>
    rw [← levelBit_eq_decide, ← BitMod.apply_put]
    exact exec_write_goesOn hpc rfl rfl (by simp) ha

/-- Settles O18. -/
theorem transitionO2iSetsTheConfigurationBit : Obligations.TransitionO2iSetsTheConfigurationBit := by
  intro h s v hp
  exact ⟨fun hpc hvalid hrole => exec_accepts hpc rfl (handleOk_of_role rfl hvalid hrole) (by simp),
    fun hpc ha => exec_read_goesOn hpc rfl rfl (by simp) hp (by decide) ha,
    fun hpc ha => exec_lastWrite (f := .cfg) (m := .set) hpc rfl rfl rfl rfl ha⟩

/-- Settles O19: the last write puts the level, and the handle it leaves is the output pin it was. -/
theorem transitionO2oPutsTheLevelBit : Obligations.TransitionO2oPutsTheLevelBit := by
  intro h l s v hp
  refine ⟨fun hpc hvalid hrole => exec_accepts hpc rfl (handleOk_of_role rfl hvalid hrole) (by simp),
    fun hpc ha => exec_read_goesOn hpc rfl rfl (by simp) hp (by decide) ha, fun hpc ha => ?levelWrite⟩
  case levelWrite =>
    rw [← levelBit_eq_decide, ← BitMod.apply_put]
    exact exec_lastWrite hpc rfl rfl rfl rfl ha

end Sys2Proof.Machine
end

section
/-! PROOFS. Where pin objects come from (O48).

Only the effect `put` of a completed command makes an empty handle register valid. The rows of R102 that have it are the
constructors, which need no pin object, and three transitions, which need one in the very register they put it back to: from
a legal state they do not run on an empty register. -/

namespace Sys2Proof.Machine

/-! ## O48: the origin of a pin object -/

/-- A handle effect that makes an empty register valid puts a pin object in the command's own register (R22, R23). -/
theorem HandleEffect.put_of_born {e : HandleEffect} {c : Command} {s : State} {k : HReg}
    (hs : (s.getX k).valid = false) (ht : ((e.apply c s).getX k).valid = true) : c.h = k ∧ ∃ r, e = .put r := by
  by_cases hk : k = c.h
  · subst hk
    cases e with
    | keep => exact absurd (hs.symm.trans ht) Bool.false_ne_true
    | put r => exact ⟨rfl, r, rfl⟩
    | clear => simp [HandleEffect.apply, Handle.empty] at ht
  · rw [e.apply_getX_ne c s k hk] at ht
    exact absurd (hs.symm.trans ht) Bool.false_ne_true

/-- The instructions whose success puts a pin object are the constructors and the transitions that need one; they make
transactions and have no result bit (R23, R102). -/
theorem put_row {i : Instr} {r : Role} (h : (commandOf i).onOk = .put r) :
    (commandOf i).plan ≠ [] ∧ (commandOf i).result = .zero ∧
      (isConstructor i = true ∨ ∃ q, (commandOf i).needs = some q) := by
  cases i with
  | newi | newo => exact ⟨List.cons_ne_nil _ _, rfl, .inl rfl⟩
  | i2o | o2i | o2o => exact ⟨List.cons_ne_nil _ _, rfl, .inr ⟨_, rfl⟩⟩
  | ishi | islo | spol | i2i | seth | setl | drop => cases h

/-- No failure puts a pin object in a handle register (R23, R105). -/
theorem onErr_ne_put (i : Instr) (r : Role) : (commandOf i).onErr ≠ .put r := by
  cases i <;> exact nofun

/-- A pin object that a command needs is there when its role check passes (R101 step 3). -/
theorem valid_of_handleOk {c : Command} {s : State} {r : Role} (hc : c.needs = some r) (h : c.handleOk s = true) :
    (s.getX c.h).valid = true := by
  simp only [Command.handleOk, hc, Handle.holds, Bool.and_eq_true] at h
  exact h.1

/-- The acceptance of a word makes no pin object: a command that completes there has an empty plan (R101 step 4). -/
theorem accept_not_born {i : Instr} {s : State} {k : HReg} (hs : (s.getX k).valid = false) :
    ((accept (commandOf i) s).getX k).valid = false := by
  rcases accept_cases (commandOf i) s with ⟨_, h⟩ | ⟨_, _, h⟩ | ⟨_, _, hplan, h⟩ | ⟨_, _, _, h⟩ <;> rw [h]
  · rwa [raise_getX]
  · rwa [raise_getX]
  · refine Bool.eq_false_iff.mpr fun ht => ?_
    obtain ⟨_, r, hput⟩ := HandleEffect.put_of_born hs ht
    exact (put_row hput).1 hplan
  · exact hs

/-- A command in progress whose end fills an empty handle register is a constructor on it, and completes with the response
word 0 (R106, R152): a transition would have needed the pin object that is not there. -/
theorem InProgress.constructs_of_born {i : Instr} {n : Nat} {u : State} {a : Answer} {k : HReg} (h : InProgress i n u)
    (hu : (u.getX k).valid = false) (ht : ((conclude (commandOf i) n a u).getX k).valid = true) :
    isConstructor i = true ∧ i.hreg = k ∧ (conclude (commandOf i) n a u).rsp = 0x0000 ∧
      (conclude (commandOf i) n a u).rspValid = true := by
  rcases conclude_cases (commandOf i) n a u with ⟨_, _, hc⟩ | ⟨_, _, hc⟩ | ⟨_, _, _, hc⟩ <;> rw [hc] at ht ⊢
  · obtain ⟨rfl, r, hput⟩ := HandleEffect.put_of_born hu ht
    obtain ⟨_, hres, hctor | ⟨q, hneeds⟩⟩ := put_row hput
    · exact ⟨hctor, (commandOf_h i).symm, complete_rsp_of_zero hres u, rfl⟩
    · exact absurd (hu.symm.trans (valid_of_handleOk hneeds h.handleOk)) Bool.false_ne_true
  · exact absurd (hu.symm.trans ht) Bool.false_ne_true
  · obtain ⟨_, r, hput⟩ := HandleEffect.put_of_born hu ht
    exact absurd hput (onErr_ne_put i r)

/-- Settles O48: of the five outcomes of a step, only a transaction that completes its command fills an empty register. -/
theorem pinObjectsComeOnlyFromConstructors : Obligations.PinObjectsComeOnlyFromConstructors := by
  intro s t k hlegal hstep hs ht
  cases step_outcome hstep with
  | @accepted w ms i =>
    have hempty := accept_not_born (i := i) (s := ((s.withMoves ms).latch w).quiet) hs
    exact absurd (hempty.symm.trans ht) Bool.false_ne_true
  | illegal => exact absurd (hs.symm.trans ht) Bool.false_ne_true
  | reset landed =>
    rw [controllerReset_getX] at ht
    cases ht
  | waits hw =>
    rw [hw.getX] at ht
    exact absurd (hs.symm.trans ht) Bool.false_ne_true
  | @transaction i n u _ hpc hword hu =>
    have hbusy : s.pc ≠ .idle := fun hidle => by simp [hidle, SeqPos.txn] at hpc
    obtain ⟨j, m, hprog⟩ := hlegal.inProgress hbusy
    obtain rfl : i = j := Except.ok.inj (hword.symm.trans hprog.word)
    obtain rfl : n = m := Option.some.inj (hpc.symm.trans hprog.position)
    have hanswered : InProgress i n u := hprog.congr hu.halt hu.pc hu.cmdr hu.x
    exact ⟨i, hword, hanswered.constructs_of_born (hu.getX k ▸ hs) ht⟩

end Sys2Proof.Machine
end

section
/-! PROOFS. The two refusals at acceptance that leave the controller ready for the next command: ILLEGAL (O8) and BAD_HANDLE
(O21). Each is one call of `raise`, whose effect on the latched or the given state is the response word alone. -/

namespace Sys2Proof.Machine

/-! ## O8: a word that is not an instruction -/

/-- A word that does not decode is taken off the list of moves and latched, and the command ends with ILLEGAL (R101 step 1,
R165). -/
theorem step_illegal {s : State} {w : Word} {ms : List Move} {e : DecodeError} (hm : s.moves = .command w :: ms)
    (hready : s.cmdReady = true) (hword : decode w = .error e) :
    step s = .next (raise .illegal ((s.withMoves ms).latch w).quiet) := by
  have hready' : (s.withMoves ms).cmdReady = true := hready
  simp only [step, hm, presentWord, hready', if_true, acceptWord, hword]

/-- The response with ILLEGAL (R90, R165). -/
theorem raise_illegal (s : State) :
    raise .illegal s = { s with pc := .idle, rsp := 0x0003, rspValid := true } :=
  congrArg (fun w => { s with pc := .idle, rsp := w, rspValid := true }) rspWord_illegal

/-- Settles O8. -/
theorem illegalWordIsRefused : Obligations.IllegalWordIsRefused := by
  intro s w ms e hpc hrun hm hword
  rw [step_illegal hm ((cmdReady_iff s).mpr ⟨hpc, hrun⟩) hword, raise_illegal, ← hpc]
  rfl

/-! ## O21: a register without the pin object that the instruction needs -/

/-- The response with BAD_HANDLE (R90, R164). -/
theorem raise_badHandle (s : State) :
    raise .badHandle s = { s with pc := .idle, rsp := 0x0002, rspValid := true } :=
  congrArg (fun w => { s with pc := .idle, rsp := w, rspValid := true }) rspWord_badHandle

/-- Only the constructors bring an index of their own, and they need no pin object (R102). -/
theorem breaksContract_of_needs {i : Instr} {r : Role} (hneeds : (commandOf i).needs = some r) :
    (commandOf i).breaksContract = false := by
  cases i with
  | newi | newo | drop => cases hneeds
  | ishi | islo | spol | i2i | i2o | seth | setl | o2i | o2o => rfl

/-- The role check fails on an empty register and on one of the other role (R101 step 3). -/
theorem handleOk_of_not_role {i : Instr} {s : State} {r : Role} (hneeds : (commandOf i).needs = some r)
    (hnot : ¬ ((s.getX i.hreg).valid = true ∧ (s.getX i.hreg).role = r)) : (commandOf i).handleOk s = false := by
  simpa [Command.handleOk, hneeds, Handle.holds] using hnot

/-- The acceptance of an instruction that needs a pin object its register does not hold (R101 step 3, R164). -/
theorem exec_of_not_role {i : Instr} {s : State} {r : Role} (hpc : s.pc = .idle)
    (hneeds : (commandOf i).needs = some r)
    (hnot : ¬ ((s.getX i.hreg).valid = true ∧ (s.getX i.hreg).role = r)) :
    exec i s = .next { s with rsp := 0x0002, rspValid := true, port := none } := by
  have hindex := breaksContract_of_needs hneeds
  have hhandle : (commandOf i).handleOk s.quiet = false := handleOk_of_not_role hneeds hnot
  have haccept : accept (commandOf i) s.quiet = raise .badHandle s.quiet := by simp [accept, hindex, hhandle]
  rw [exec_idle hpc, haccept, raise_badHandle, ← hpc]
  rfl

/-- Settles O21: the instructions of each list need the role that the register does not hold. -/
theorem wrongHandleIsRefused : Obligations.WrongHandleIsRefused := by
  intro h s hpc
  refine ⟨fun hnot i hi => ?needsInput, fun hnot i hi => ?needsOutput⟩
  case needsInput =>
    rcases hi with rfl | rfl | ⟨p, rfl⟩ | rfl | ⟨l, rfl⟩ <;> exact exec_of_not_role hpc rfl hnot
  case needsOutput =>
    rcases hi with rfl | rfl | rfl | ⟨l, rfl⟩ <;> exact exec_of_not_role hpc rfl hnot

end Sys2Proof.Machine
end

section
/-! PROOFS. The two resets and the device they leave (O30, O31), and the polarity registers as SPOL's alone (O45). -/

namespace Sys2Proof.Machine

/-! ## O30: a controller reset and the write in flight -/

/-- The step in which a controller reset arrives (R190). -/
theorem step_reset {s : State} {landed : Bool} {ms : List Move} (hm : s.moves = .reset landed :: ms) :
    step s = .next (controllerReset landed (s.withMoves ms)) := by
  simp only [step, hm]

/-- A write is in flight exactly when the command in progress has one next, at that register and with that byte (R191). -/
theorem inFlightWrite_eq_some_iff (s : State) (r : RegisterId) (v : Byte) :
    inFlightWrite s = some (r, v) ↔ ∃ i n f m, decode s.cmdr = .ok i ∧ s.pc.txn = some n ∧
      (commandOf i).plan[n]? = some (.write f m) ∧ r = plannedReg i s f ∧ v = plannedByte i s m := by
  constructor
  · exact inFlightWrite_eq_some
  · rintro ⟨i, n, f, m, hword, hn, hf, rfl, rfl⟩
    simp only [inFlightWrite, hword, hn, hf]

/-- With no command in progress nothing is in flight. -/
theorem inFlightWrite_of_idle {s : State} (hpc : s.pc = .idle) : inFlightWrite s = none := by
  simp only [inFlightWrite, hpc, SeqPos.txn]

theorem settleInFlight_of_unwritten {landed : Bool} {s : State} (h : landed = false ∨ inFlightWrite s = none) :
    settleInFlight landed s = s := by
  rcases h with rfl | hnone
  · rfl
  · cases landed with
    | false => rfl
    | true => simp only [settleInFlight, hnone]

theorem settleInFlight_of_landed {s : State} {r : RegisterId} {v : Byte} (h : inFlightWrite s = some (r, v)) :
    settleInFlight true s = s.setDev r v := by
  simp only [settleInFlight, h]

/-- The reset of the controller's own registers reaches no device byte (R192). -/
theorem controllerReset_devByte (landed : Bool) (s : State) (r : RegisterId) :
    (controllerReset landed s).devByte r = (settleInFlight landed s).devByte r := rfl

/-- Settles O30: the reset leaves the device as `settleInFlight` makes it, the same device or one with the write in flight
stored. -/
theorem controllerResetKeepsTheDevice : Obligations.ControllerResetKeepsTheDevice := by
  intro s landed ms hm
  refine ⟨_, step_reset hm, fun hunwritten r => ?unwritten, fun hlanded r v hw => ?landed,
    inFlightWrite_eq_some_iff s, inFlightWrite_of_idle⟩
  case unwritten =>
    rw [controllerReset_devByte, settleInFlight_of_unwritten (s := s.withMoves ms) hunwritten]
    rfl
  case landed =>
    simp only [controllerReset_devByte, hlanded, settleInFlight_of_landed (s := s.withMoves ms) hw]
    exact ⟨State.devByte_setDev_self .., fun r' hr => State.devByte_setDev_ne _ _ _ _ hr⟩

/-! ## O31: a device reset -/

/-- The step in which a device reset arrives (R193). -/
theorem step_deviceReset {s : State} {ms : List Move} (hm : s.moves = .deviceReset :: ms) :
    step s = .next (deviceReset (s.withMoves ms)) := by
  simp only [step, hm]

/-- After a device reset every register reads as its reset content (R36). -/
theorem deviceReset_devReg (s : State) (b : Bank) (f : Fn) :
    (deviceReset s).devReg b f = resetByte s.params (regSel s.params b f).toNat := rfl

/-- Settles O31: to the controller the step is one of waiting, and the device is left with its reset bytes. -/
theorem deviceResetRestoresTheDevice : Obligations.DeviceResetRestoresTheDevice := by
  intro s ms hp hm
  have hwaits := waits_deviceReset hm
  refine ⟨_, step_deviceReset hm, fun b => ?_, hwaits.x, hwaits.pc, hwaits.cmdr, hwaits.tmp, hwaits.rsp, hwaits.halt,
    hwaits.rspValid, hwaits.port, rfl, hwaits.params⟩
  simp only [deviceReset_devReg]
  exact resetByte_regSel hp b

/-! ## O45: the polarity registers -/

/-- The one write of a polarity register is the second transaction of SPOL (R102). -/
theorem write_pol_row {i : Instr} {n : Nat} {m : BitMod} (h : (commandOf i).plan[n]? = some (.write .pol m)) :
    (∃ k p, i = .spol k p) ∧ n = 1 := by
  obtain ⟨j, rfl, hread⟩ := read_before_write h
  obtain ⟨k, p, rfl⟩ := eq_spol_of_read_pol hread
  refine ⟨⟨k, p, rfl⟩, ?_⟩
  match j, hread with
  | 0, _ => rfl
  | 1, hread => cases hread
  | j + 2, hread => cases hread

/-- Transaction 1 is the one of the position `T1` (R24). -/
theorem SeqPos.eq_t1_of_txn {p : SeqPos} (h : p.txn = some 1) : p = .t1 := by
  cases p with
  | t1 => rfl
  | idle | t0 | t2 | t3 => cases h

/-- Settles O45: the changed register is the one the plan writes next, and only SPOL's plan writes polarity. -/
theorem polarityChangesOnlyBySpol : Obligations.PolarityChangesOnlyBySpol := by
  intro s t b hp hstep hu hne
  obtain ⟨i, n, m, hword, hn, hf, hbank, _⟩ := step_devReg_changed hp hu hstep hne
  obtain ⟨⟨k, p, rfl⟩, rfl⟩ := write_pol_row hf
  exact ⟨k, p, hword, SeqPos.eq_t1_of_txn hn, hbank⟩

end Sys2Proof.Machine
end
